-- ==== Sys2Proof/Word.lean ====
section
/-! DEFINITION. The word types of the block: every register is 32 bits wide (R8, R11), a memory byte 8, a VRAM
pixel 16; a register index is a number below 32 (R30). -/

namespace Sys2Proof

/-- A 32-bit register, address or instruction word (R8, R11). -/
abbrev Word := BitVec 32

/-- A byte of memory (R46). -/
abbrev Byte := BitVec 8

/-- A halfword: an immediate field (R101) or a pixel of VRAM (R47). -/
abbrev Half := BitVec 16

/-- The index of a general register or of a COP0 register, 0..31 (R30, R39). -/
abbrev Reg := Fin 32

end Sys2Proof
end

