-- ==== Sys2Proof/Syntax.lean ====
section
/-! DEFINITION. The instructions: one constructor per row of spec/opcode_table.json (R3), with the operands the
instruction uses and no others (R110: unused fields are ignored), in the assembler's order (R113). -/

namespace Sys2Proof

/-- An instruction. `off` of a branch is the `imm` field, a signed count of instructions (R113). -/
inductive Instr where
  -- immediate arithmetic, logic and comparison (R153-R160)
  | addi (rt rs : Reg) (imm : Half)
  | addiu (rt rs : Reg) (imm : Half)
  | slti (rt rs : Reg) (imm : Half)
  | sltiu (rt rs : Reg) (imm : Half)
  | andi (rt rs : Reg) (imm : Half)
  | ori (rt rs : Reg) (imm : Half)
  | xori (rt rs : Reg) (imm : Half)
  | lui (rt : Reg) (imm : Half)
  -- shifts (R171-R176)
  | sll (rd rt : Reg) (shamt : Nat)
  | srl (rd rt : Reg) (shamt : Nat)
  | sra (rd rt : Reg) (shamt : Nat)
  | sllv (rd rt rs : Reg)
  | srlv (rd rt rs : Reg)
  | srav (rd rt rs : Reg)
  -- register jumps (R219, R220)
  | jr (rs : Reg)
  | jalr (rd rs : Reg)
  -- traps (R240, R241)
  | syscall
  | brk
  -- HI/LO moves, multiply and divide (R187-R194)
  | mfhi (rd : Reg)
  | mthi (rs : Reg)
  | mflo (rd : Reg)
  | mtlo (rs : Reg)
  | mult (rs rt : Reg)
  | multu (rs rt : Reg)
  | div (rs rt : Reg)
  | divu (rs rt : Reg)
  -- register arithmetic, logic and comparison (R177-R186)
  | add (rd rs rt : Reg)
  | addu (rd rs rt : Reg)
  | sub (rd rs rt : Reg)
  | subu (rd rs rt : Reg)
  | and (rd rs rt : Reg)
  | or (rd rs rt : Reg)
  | xor (rd rs rt : Reg)
  | nor (rd rs rt : Reg)
  | slt (rd rs rt : Reg)
  | sltu (rd rs rt : Reg)
  -- jumps and branches (R213-R218, R222-R225)
  | j (target : BitVec 26)
  | jal (target : BitVec 26)
  | beq (rs rt : Reg) (off : Half)
  | bne (rs rt : Reg) (off : Half)
  | blez (rs : Reg) (off : Half)
  | bgtz (rs : Reg) (off : Half)
  | bltz (rs : Reg) (off : Half)
  | bgez (rs : Reg) (off : Half)
  | bltzal (rs : Reg) (off : Half)
  | bgezal (rs : Reg) (off : Half)
  -- COP0 (R242-R244)
  | mfc0 (rt rd : Reg)
  | mtc0 (rt rd : Reg)
  | rfe
  -- loads and stores (R258-R269)
  | lb (rt : Reg) (off : Half) (base : Reg)
  | lh (rt : Reg) (off : Half) (base : Reg)
  | lwl (rt : Reg) (off : Half) (base : Reg)
  | lw (rt : Reg) (off : Half) (base : Reg)
  | lbu (rt : Reg) (off : Half) (base : Reg)
  | lhu (rt : Reg) (off : Half) (base : Reg)
  | lwr (rt : Reg) (off : Half) (base : Reg)
  | sb (rt : Reg) (off : Half) (base : Reg)
  | sh (rt : Reg) (off : Half) (base : Reg)
  | swl (rt : Reg) (off : Half) (base : Reg)
  | sw (rt : Reg) (off : Half) (base : Reg)
  | swr (rt : Reg) (off : Half) (base : Reg)
  deriving DecidableEq, Repr

end Sys2Proof
end

