-- ==== Sys2Proof/Decode.lean ====
section
/-! DEFINITION. The decoder, total on every word and on any bytes, rejecting by name (R104-R112), and after it the encoder,
written from the same maps. -/

namespace Sys2Proof

/-! ### The fields of the instruction word (R101) -/

/-- A five-bit field as a register index. -/
def regOfBits (b : BitVec 5) : Reg := ⟨b.toNat, b.isLt⟩

def opOf (w : Word) : BitVec 6 := w.extractLsb' 26 6
def rsBits (w : Word) : BitVec 5 := w.extractLsb' 21 5
def rtBits (w : Word) : BitVec 5 := w.extractLsb' 16 5
def rdBits (w : Word) : BitVec 5 := w.extractLsb' 11 5
def shamtBits (w : Word) : BitVec 5 := w.extractLsb' 6 5
def functOf (w : Word) : BitVec 6 := w.extractLsb' 0 6
def targetOf (w : Word) : BitVec 26 := w.extractLsb' 0 26
def immOf (w : Word) : Half := w.extractLsb' 0 16

def rsOf (w : Word) : Reg := regOfBits (rsBits w)
def rtOf (w : Word) : Reg := regOfBits (rtBits w)
def rdOf (w : Word) : Reg := regOfBits (rdBits w)
def shamtOf (w : Word) : Nat := (shamtBits w).toNat

/-! ### The decoder -/

/-- Why bytes decode to no instruction: an opcode, SPECIAL funct or COP0 variant marked "—" (R104, R105, R107, R108), or
fewer than the four bytes of an instruction word (R100). An illegal WORD is no error of the machine: it runs as a
no-op (R108, R136). -/
inductive Illegal where
  | unknownOp (op : BitVec 6)
  | unknownFunct (funct : BitVec 6)
  | unhandledCop0 (rs : BitVec 5) (funct : BitVec 6)
  | tooShort
  deriving DecidableEq, Repr

/-- The SPECIAL map, `op` = 0x00, selected by `funct` (R105, R170). -/
def decodeSpecial (w : Word) : Except Illegal Instr :=
  match functOf w with
  | 0x00#6 => .ok (.sll (rdOf w) (rtOf w) (shamtOf w))
  | 0x02#6 => .ok (.srl (rdOf w) (rtOf w) (shamtOf w))
  | 0x03#6 => .ok (.sra (rdOf w) (rtOf w) (shamtOf w))
  | 0x04#6 => .ok (.sllv (rdOf w) (rtOf w) (rsOf w))
  | 0x06#6 => .ok (.srlv (rdOf w) (rtOf w) (rsOf w))
  | 0x07#6 => .ok (.srav (rdOf w) (rtOf w) (rsOf w))
  | 0x08#6 => .ok (.jr (rsOf w))
  | 0x09#6 => .ok (.jalr (rdOf w) (rsOf w))
  | 0x0C#6 => .ok .syscall
  | 0x0D#6 => .ok .brk
  | 0x10#6 => .ok (.mfhi (rdOf w))
  | 0x11#6 => .ok (.mthi (rsOf w))
  | 0x12#6 => .ok (.mflo (rdOf w))
  | 0x13#6 => .ok (.mtlo (rsOf w))
  | 0x18#6 => .ok (.mult (rsOf w) (rtOf w))
  | 0x19#6 => .ok (.multu (rsOf w) (rtOf w))
  | 0x1A#6 => .ok (.div (rsOf w) (rtOf w))
  | 0x1B#6 => .ok (.divu (rsOf w) (rtOf w))
  | 0x20#6 => .ok (.add (rdOf w) (rsOf w) (rtOf w))
  | 0x21#6 => .ok (.addu (rdOf w) (rsOf w) (rtOf w))
  | 0x22#6 => .ok (.sub (rdOf w) (rsOf w) (rtOf w))
  | 0x23#6 => .ok (.subu (rdOf w) (rsOf w) (rtOf w))
  | 0x24#6 => .ok (.and (rdOf w) (rsOf w) (rtOf w))
  | 0x25#6 => .ok (.or (rdOf w) (rsOf w) (rtOf w))
  | 0x26#6 => .ok (.xor (rdOf w) (rsOf w) (rtOf w))
  | 0x27#6 => .ok (.nor (rdOf w) (rsOf w) (rtOf w))
  | 0x2A#6 => .ok (.slt (rdOf w) (rsOf w) (rtOf w))
  | 0x2B#6 => .ok (.sltu (rdOf w) (rsOf w) (rtOf w))
  | f => .error (.unknownFunct f)

/-- The BCOND map, `op` = 0x01: only `rt[4]` (link) and `rt[0]` (sense) decode, every `rt` is valid (R106, R221). -/
def decodeBcond (w : Word) : Instr :=
  match (rtBits w).getLsbD 4, (rtBits w).getLsbD 0 with
  | false, false => .bltz (rsOf w) (immOf w)
  | false, true => .bgez (rsOf w) (immOf w)
  | true, false => .bltzal (rsOf w) (immOf w)
  | true, true => .bgezal (rsOf w) (immOf w)

/-- The COP0 map, `op` = 0x10: `rs` first, then `funct` (R107). -/
def decodeCop0 (w : Word) : Except Illegal Instr :=
  if rsBits w = 0x00#5 then .ok (.mfc0 (rtOf w) (rdOf w))
  else if rsBits w = 0x04#5 then .ok (.mtc0 (rtOf w) (rdOf w))
  else if functOf w = 0x10#6 then .ok .rfe
  else .error (.unhandledCop0 (rsBits w) (functOf w))

/-- The instruction a word selects, by the order of R112: `op`, then the sub-opcode (R104). -/
def decode (w : Word) : Except Illegal Instr :=
  match opOf w with
  | 0x00#6 => decodeSpecial w
  | 0x01#6 => .ok (decodeBcond w)
  | 0x02#6 => .ok (.j (targetOf w))
  | 0x03#6 => .ok (.jal (targetOf w))
  | 0x04#6 => .ok (.beq (rsOf w) (rtOf w) (immOf w))
  | 0x05#6 => .ok (.bne (rsOf w) (rtOf w) (immOf w))
  | 0x06#6 => .ok (.blez (rsOf w) (immOf w))
  | 0x07#6 => .ok (.bgtz (rsOf w) (immOf w))
  | 0x08#6 => .ok (.addi (rtOf w) (rsOf w) (immOf w))
  | 0x09#6 => .ok (.addiu (rtOf w) (rsOf w) (immOf w))
  | 0x0A#6 => .ok (.slti (rtOf w) (rsOf w) (immOf w))
  | 0x0B#6 => .ok (.sltiu (rtOf w) (rsOf w) (immOf w))
  | 0x0C#6 => .ok (.andi (rtOf w) (rsOf w) (immOf w))
  | 0x0D#6 => .ok (.ori (rtOf w) (rsOf w) (immOf w))
  | 0x0E#6 => .ok (.xori (rtOf w) (rsOf w) (immOf w))
  | 0x0F#6 => .ok (.lui (rtOf w) (immOf w))
  | 0x10#6 => decodeCop0 w
  | 0x20#6 => .ok (.lb (rtOf w) (immOf w) (rsOf w))
  | 0x21#6 => .ok (.lh (rtOf w) (immOf w) (rsOf w))
  | 0x22#6 => .ok (.lwl (rtOf w) (immOf w) (rsOf w))
  | 0x23#6 => .ok (.lw (rtOf w) (immOf w) (rsOf w))
  | 0x24#6 => .ok (.lbu (rtOf w) (immOf w) (rsOf w))
  | 0x25#6 => .ok (.lhu (rtOf w) (immOf w) (rsOf w))
  | 0x26#6 => .ok (.lwr (rtOf w) (immOf w) (rsOf w))
  | 0x28#6 => .ok (.sb (rtOf w) (immOf w) (rsOf w))
  | 0x29#6 => .ok (.sh (rtOf w) (immOf w) (rsOf w))
  | 0x2A#6 => .ok (.swl (rtOf w) (immOf w) (rsOf w))
  | 0x2B#6 => .ok (.sw (rtOf w) (immOf w) (rsOf w))
  | 0x2E#6 => .ok (.swr (rtOf w) (immOf w) (rsOf w))
  | o => .error (.unknownOp o)

/-- Four bytes as the word they store, the first the least significant (R84, R100). -/
def wordOfBytes (b0 b1 b2 b3 : Byte) : Word := b3 ++ b2 ++ b1 ++ b0

/-- The byte `i` of a word, 0 the least significant. -/
def byteOfWord (w : Word) (i : Nat) : Byte := w.extractLsb' (8 * i) 8

/-- The four bytes that store a word, lowest address first (R84). -/
def bytesOfWord (w : Word) : List Byte := [byteOfWord w 0, byteOfWord w 1, byteOfWord w 2, byteOfWord w 3]

/-- Decoding from bytes: the instruction of the first word and the bytes after it (R100). -/
def decodeBytes : List Byte → Except Illegal (Instr × List Byte)
  | b0 :: b1 :: b2 :: b3 :: rest =>
    match decode (wordOfBytes b0 b1 b2 b3) with
    | .ok i => .ok (i, rest)
    | .error e => .error e
  | _ => .error .tooShort

/-- The instruction the decoder reads from the word whose low `nbits` bits are `w`, laid out as memory stores it. -/
def decodeTableWord (nbits w : Nat) : Option Instr :=
  match decodeBytes (bytesOfWord (BitVec.ofNat 32 (w % 2 ^ nbits))) with
  | .ok (i, _) => some i
  | .error _ => none

/-! ### The encoder: unused fields are 0, and RFE is its canonical word (R107, R110; log entry 12) -/

def bitsOfReg (r : Reg) : BitVec 5 := BitVec.ofNat 5 r.val

/-- The I format (R102). -/
def iWord (op : BitVec 6) (rs rt : BitVec 5) (imm : Half) : Word := op ++ rs ++ rt ++ imm

/-- The R (SPECIAL) and COP0 formats (R102). -/
def rWord (op : BitVec 6) (rs rt rd shamt : BitVec 5) (funct : BitVec 6) : Word := op ++ rs ++ rt ++ rd ++ shamt ++ funct

/-- The J format (R102). -/
def jWord (op : BitVec 6) (target : BitVec 26) : Word := op ++ target

/-- An I-format instruction whose fields are all registers and immediate. -/
def iEnc (op : BitVec 6) (rs rt : Reg) (imm : Half) : Word := iWord op (bitsOfReg rs) (bitsOfReg rt) imm

/-- A SPECIAL instruction with three registers. -/
def rEnc (rs rt rd : Reg) (funct : BitVec 6) : Word := rWord 0x00#6 (bitsOfReg rs) (bitsOfReg rt) (bitsOfReg rd) 0#5 funct

/-- The canonical word of an instruction (R101-R107, R115). -/
def encode : Instr → Word
  | .addi rt rs imm => iEnc 0x08#6 rs rt imm
  | .addiu rt rs imm => iEnc 0x09#6 rs rt imm
  | .slti rt rs imm => iEnc 0x0A#6 rs rt imm
  | .sltiu rt rs imm => iEnc 0x0B#6 rs rt imm
  | .andi rt rs imm => iEnc 0x0C#6 rs rt imm
  | .ori rt rs imm => iEnc 0x0D#6 rs rt imm
  | .xori rt rs imm => iEnc 0x0E#6 rs rt imm
  | .lui rt imm => iEnc 0x0F#6 0 rt imm
  | .sll rd rt shamt => rWord 0x00#6 0#5 (bitsOfReg rt) (bitsOfReg rd) (BitVec.ofNat 5 shamt) 0x00#6
  | .srl rd rt shamt => rWord 0x00#6 0#5 (bitsOfReg rt) (bitsOfReg rd) (BitVec.ofNat 5 shamt) 0x02#6
  | .sra rd rt shamt => rWord 0x00#6 0#5 (bitsOfReg rt) (bitsOfReg rd) (BitVec.ofNat 5 shamt) 0x03#6
  | .sllv rd rt rs => rEnc rs rt rd 0x04#6
  | .srlv rd rt rs => rEnc rs rt rd 0x06#6
  | .srav rd rt rs => rEnc rs rt rd 0x07#6
  | .jr rs => rEnc rs 0 0 0x08#6
  | .jalr rd rs => rEnc rs 0 rd 0x09#6
  | .syscall => rEnc 0 0 0 0x0C#6
  | .brk => rEnc 0 0 0 0x0D#6
  | .mfhi rd => rEnc 0 0 rd 0x10#6
  | .mthi rs => rEnc rs 0 0 0x11#6
  | .mflo rd => rEnc 0 0 rd 0x12#6
  | .mtlo rs => rEnc rs 0 0 0x13#6
  | .mult rs rt => rEnc rs rt 0 0x18#6
  | .multu rs rt => rEnc rs rt 0 0x19#6
  | .div rs rt => rEnc rs rt 0 0x1A#6
  | .divu rs rt => rEnc rs rt 0 0x1B#6
  | .add rd rs rt => rEnc rs rt rd 0x20#6
  | .addu rd rs rt => rEnc rs rt rd 0x21#6
  | .sub rd rs rt => rEnc rs rt rd 0x22#6
  | .subu rd rs rt => rEnc rs rt rd 0x23#6
  | .and rd rs rt => rEnc rs rt rd 0x24#6
  | .or rd rs rt => rEnc rs rt rd 0x25#6
  | .xor rd rs rt => rEnc rs rt rd 0x26#6
  | .nor rd rs rt => rEnc rs rt rd 0x27#6
  | .slt rd rs rt => rEnc rs rt rd 0x2A#6
  | .sltu rd rs rt => rEnc rs rt rd 0x2B#6
  | .j target => jWord 0x02#6 target
  | .jal target => jWord 0x03#6 target
  | .beq rs rt off => iEnc 0x04#6 rs rt off
  | .bne rs rt off => iEnc 0x05#6 rs rt off
  | .blez rs off => iEnc 0x06#6 rs 0 off
  | .bgtz rs off => iEnc 0x07#6 rs 0 off
  | .bltz rs off => iWord 0x01#6 (bitsOfReg rs) 0x00#5 off
  | .bgez rs off => iWord 0x01#6 (bitsOfReg rs) 0x01#5 off
  | .bltzal rs off => iWord 0x01#6 (bitsOfReg rs) 0x10#5 off
  | .bgezal rs off => iWord 0x01#6 (bitsOfReg rs) 0x11#5 off
  | .mfc0 rt rd => rWord 0x10#6 0x00#5 (bitsOfReg rt) (bitsOfReg rd) 0#5 0#6
  | .mtc0 rt rd => rWord 0x10#6 0x04#5 (bitsOfReg rt) (bitsOfReg rd) 0#5 0#6
  | .rfe => rWord 0x10#6 0x10#5 0#5 0#5 0#5 0x10#6
  | .lb rt off base => iEnc 0x20#6 base rt off
  | .lh rt off base => iEnc 0x21#6 base rt off
  | .lwl rt off base => iEnc 0x22#6 base rt off
  | .lw rt off base => iEnc 0x23#6 base rt off
  | .lbu rt off base => iEnc 0x24#6 base rt off
  | .lhu rt off base => iEnc 0x25#6 base rt off
  | .lwr rt off base => iEnc 0x26#6 base rt off
  | .sb rt off base => iEnc 0x28#6 base rt off
  | .sh rt off base => iEnc 0x29#6 base rt off
  | .swl rt off base => iEnc 0x2A#6 base rt off
  | .sw rt off base => iEnc 0x2B#6 base rt off
  | .swr rt off base => iEnc 0x2E#6 base rt off

/-- The bytes of an instruction, as memory stores them (R84, R100). -/
def encodeBytes (i : Instr) : List Byte := bytesOfWord (encode i)

end Sys2Proof
end

