-- ==== Sys2Proof/Config.lean ====
section
/-! DEFINITION. What no source fixes (R9): the free values, constants without a body, so that no proof can see what
they are; and the two fixed addresses at which the machine starts and traps (R8). -/

namespace Sys2Proof.Config

/-- The values of `draw COP0_SCRATCH` (R9, R40, D6): the n-th value drawn. Log entry 4. -/
opaque cop0Scratch : Nat → Word

/-- The values of `draw REFETCH` (R137, D28): the n-th value drawn. Log entry 5. -/
opaque refetchDraw : Nat → Word

/-- GPUREAD_INIT, the reset value of the GPU's readback register (R9, R53, D12). Log entry 1. -/
opaque gpureadInit : Word

/-- The reset vector (R8, R50). -/
def resetVector : Word := 0xBFC00000#32

end Sys2Proof.Config
end

