-- ==== Sys2Proof/Machine/State.lean ====
section
/-! DEFINITION. The state of the block, all of it (R30-R53), as plain data; the reasons a step stops; and the state right
after reset. -/

namespace Sys2Proof.Machine

/-- The load-delay slot's record: `reg` receives `value` when `remaining` reaches 0 (R38, R131). -/
structure LoadSlot where
  reg : Reg
  value : Word
  remaining : Nat
  deriving DecidableEq, Repr

/-- The COP0 registers with storage: 8 BadA, 12 SR, 13 Cause, 14 EPC (R39). SR and Cause are words that MTC0 and MFC0
move whole, so they stay bit vectors (R41, R43). -/
structure Cop0 where
  badA : Word
  sr : Word
  cause : Word
  epc : Word
  deriving DecidableEq, Repr

/-- The states of the GP0 port (R21, R48). -/
inductive Gp0State where
  | awaitingCommand
  | receivingParameters
  | receivingData
  | transferringData
  deriving DecidableEq, Repr

/-- The handler of the pending GP0 command: none, 0x68, 0xA0 or 0xC0 (R48). -/
inductive CmdKind where
  | none
  | rectangle
  | cpuToVram
  | vramToCpu
  deriving DecidableEq, Repr

/-- The pending-command record (R48). -/
structure GpuCmd where
  kind : CmdKind
  params : List Word
  remainingWords : Nat
  deriving DecidableEq, Repr

/-- The transfer cursor (R48). -/
structure Cursor where
  x : Nat
  y : Nat
  xStart : Nat
  xMax : Nat
  deriving DecidableEq, Repr

/-- VRAM: pixels by their index `y * 1024 + x` (R47), in the canonical form of Machine/Memory.lean. -/
abbrev Vram := List (Nat × Half)

/-- The GPU (R47-R49). -/
structure Gpu where
  vram : Vram
  gp0State : Gp0State
  cmd : GpuCmd
  cursor : Cursor
  gpuread : Word
  deriving DecidableEq, Repr

/-- The bus's three byte arrays, RAM, scratchpad and BIOS, as one list of bytes by PHYSICAL address (R46, R71), in the
canonical form of Machine/Memory.lean: what is not listed reads 0 (R52). -/
abbrev Memory := List Host.Cell

/-- The state of the block (R2, R30-R49). `draws` is the model's own field: how many free values have been drawn (R16). -/
structure State where
  regs : Vector Word 32
  hi : Word
  lo : Word
  pc : Word
  nextPc : Word
  instruction : Word
  ld : Option LoadSlot
  cop0 : Cop0
  mem : Memory
  gpu : Gpu
  draws : Nat
  deriving DecidableEq, Repr

/-- Faults: none. Nothing stops this machine (R320: every exception is an architectural trap, a next state; R340, R368: no
halt), so no step ends in one. -/
inductive Fault where
  deriving DecidableEq, Repr

/-- Refusals: accesses and forms to which the spec gives no meaning (R16). -/
inductive Refusal where
  /-- Raised by an arm of exec whose instruction has no meaning yet. Safe. -/
  | notModelled (mnemonic : String)
  /-- Raised by an 8- or 16-bit access that overlaps a GPU port word (R82, D8): LB, LBU, LH, LHU, SB, SH; and by the host's
  `set_pc` and EXE injection, never by a step, where the prefetched word is unaligned and overlaps one (log entry 10). Safe. -/
  | narrowGpuPort
  /-- Raised by a bus access whose bytes lie in two regions (R73, D20). No instruction issues one; the prefetch of the host's
  `set_pc` and EXE injection can. Safe. -/
  | spansRegions
  /-- Raised by the host's BIOS load, never by a step: the image is not 524,288 bytes (R362, D22). Safe. -/
  | badBiosImage
  /-- Raised by the host's EXE injection, never by a step: a short image, or one that does not fit in RAM (R365, D33). Safe. -/
  | badExeImage
  deriving DecidableEq, Repr

/-- What a meaning answers. -/
abbrev Result := Host.Outcome State Fault Refusal

/-- COP0 after reset (R51). -/
def Cop0.reset : Cop0 := { badA := 0#32, sr := 0#32, cause := 0#32, epc := 0#32 }

/-- The GPU after reset (R53), with GPUREAD_INIT as an argument. -/
def Gpu.reset (gpureadInit : Word) : Gpu :=
  { vram := [], gp0State := .awaitingCommand, cmd := { kind := .none, params := [], remainingWords := 0 },
    cursor := { x := 0, y := 0, xStart := 0, xMax := 0 }, gpuread := gpureadInit }

/-- The machine right after reset (R50-R53): pc at the reset vector, every register 0, RAM and scratchpad 0. The BIOS image
is the model's argument BIOS_IMAGE (R9); this state stands for the image of zero bytes (log entry 2), whose first word is the
prefetched `instruction`; `State.hostReset` (Machine/HostOps.lean) resets the block with any image. -/
def State.reset : State :=
  { regs := Vector.replicate 32 0#32, hi := 0#32, lo := 0#32, pc := Config.resetVector, nextPc := Config.resetVector + 4#32,
    instruction := 0#32, ld := none, cop0 := Cop0.reset, mem := [], gpu := Gpu.reset Config.gpureadInit, draws := 0 }

end Sys2Proof.Machine
end

