-- ==== Sys2Proof/Machine/Memory.lean ====
section
/-! DEFINITION. Sparse arrays in one canonical form (addresses strictly rising, no entry equal to 0, which is what an
unlisted address reads as), and little-endian access to the byte arrays (R74, R84). -/

namespace Sys2Proof.Machine

/-- The value at `a`: 0 where nothing is listed (R52, R53; log entry 8). -/
def Cells.read {w : Nat} : List (Nat × BitVec w) → Nat → BitVec w
  | [], _ => 0#w
  | (k, v) :: rest, a => if a = k then v else Cells.read rest a

/-- Store `v` at `a`, keeping the canonical form: storing 0 removes the entry. -/
def Cells.write {w : Nat} : List (Nat × BitVec w) → Nat → BitVec w → List (Nat × BitVec w)
  | [], a, v => if v = 0#w then [] else [(a, v)]
  | (k, u) :: rest, a, v =>
    if a < k then (if v = 0#w then (k, u) :: rest else (a, v) :: (k, u) :: rest)
    else if a = k then (if v = 0#w then rest else (a, v) :: rest)
    else (k, u) :: Cells.write rest a v

/-- The canonical form: addresses strictly rising, and no entry equal to 0. -/
abbrev Cells.WF {w : Nat} (m : List (Nat × BitVec w)) : Prop :=
  m.Pairwise (fun c d => c.1 < d.1) ∧ ∀ c ∈ m, c.2 ≠ 0#w

/-- The memory is in canonical form. -/
abbrev Memory.wf (m : Memory) : Prop := Cells.WF m

/-- VRAM is in canonical form. -/
abbrev Vram.wf (v : Vram) : Prop := Cells.WF v

/-- The widths of a bus access: `n` ∈ {1, 2, 4} bytes (R14, R72). -/
inductive Width where
  | byte
  | half
  | word
  deriving DecidableEq, Repr

/-- The number of bytes of a width. -/
def Width.bytes : Width → Nat
  | .byte => 1
  | .half => 2
  | .word => 4

/-- Little-endian read of the byte arrays at physical address `p`, in the low bits of a word (R74). -/
def Memory.readLe (m : Memory) (n : Width) (p : Nat) : Word :=
  match n with
  | .byte => (Cells.read m p).setWidth 32
  | .half => (Cells.read m (p + 1) ++ Cells.read m p).setWidth 32
  | .word => wordOfBytes (Cells.read m p) (Cells.read m (p + 1)) (Cells.read m (p + 2)) (Cells.read m (p + 3))

/-- Store bytes at rising addresses from `p`. -/
def Memory.writeBytes : Memory → Nat → List Byte → Memory
  | m, _, [] => m
  | m, p, b :: bs => Memory.writeBytes (Cells.write m p b) (p + 1) bs

/-- Little-endian write of the low bits of `v` at physical address `p` (R74). -/
def Memory.writeLe (m : Memory) (n : Width) (p : Nat) (v : Word) : Memory :=
  Memory.writeBytes m p ((bytesOfWord v).take n.bytes)

end Sys2Proof.Machine
end

