-- ==== Sys2Proof/Machine/Gpu.lean ====
section
/-! DEFINITION. The GPU command engine: what a GP0 packet does (R290-R305). GP1 is a no-op (R306) and has no function here. -/

namespace Sys2Proof.Machine.Gpu

/-- The VRAM index of column `x` and row `y`, both wrapping (R299, D10). -/
def vramIndex (x y : Nat) : Nat := (y % 512) * 1024 + x % 1024

/-- `vram_at(x, y)` (R299). -/
def pixelAt (g : Gpu) (x y : Nat) : Half := Cells.read g.vram (vramIndex x y)

/-- `vram_at(x, y) <- v` (R299). -/
def setPixel (g : Gpu) (x y : Nat) (v : Half) : Gpu := { g with vram := Cells.write g.vram (vramIndex x y) v }

/-- The low half of a packet: the x of a position, the width of a size, the first pixel of a pair. -/
def loHalf (w : Word) : Half := w.extractLsb' 0 16

/-- The high half of a packet: the y of a position, the height of a size, the second pixel of a pair. -/
def hiHalf (w : Word) : Half := w.extractLsb' 16 16

/-- The `i`-th parameter of the pending command; one that is absent, which no run reaches, reads 0 (log entry 14). -/
def param (g : Gpu) (i : Nat) : Word := g.cmd.params.getD i 0#32

/-- The pixel of a colour 0x00BBGGRR: each channel `c / 8`, packed `(g << 5) | (b << 10) | r` (R297, R298, C7). -/
def packColour (col : Word) : Half :=
  let r5 : Half := ((col.extractLsb' 0 8) >>> 3).setWidth 16
  let g5 : Half := ((col.extractLsb' 8 8) >>> 3).setWidth 16
  let b5 : Half := ((col.extractLsb' 16 8) >>> 3).setWidth 16
  (g5 <<< 5) ||| (b5 <<< 10) ||| r5

/-- `draw_pixel()` (R297). -/
def drawPixel (g : Gpu) : Gpu :=
  let pos := g.param 1
  { g.setPixel (loHalf pos).toNat (hiHalf pos).toNat (packColour (g.param 0)) with gp0State := .awaitingCommand }

/-- The width of a transfer, 1..1024, the 16-bit field decoded with wrap (R299). -/
def decodeWidth (raw : Half) : Nat := ((raw - 1#16) &&& 0x3FF#16).toNat + 1

/-- The height of a transfer, 1..512, the 16-bit field decoded with wrap (R299). -/
def decodeHeight (raw : Half) : Nat := ((raw - 1#16) &&& 0x1FF#16).toNat + 1

/-- `start_transfer()` for 0xA0 and 0xC0 (R299). -/
def startTransfer (g : Gpu) : Gpu :=
  let x0 := (loHalf (g.param 0) &&& 0x3FF#16).toNat
  let y0 := (hiHalf (g.param 0) &&& 0x1FF#16).toNat
  let w := decodeWidth (loHalf (g.param 1))
  let h := decodeHeight (hiHalf (g.param 1))
  let words := w * h / 2
  { g with
    cursor := { x := x0, y := y0, xStart := x0, xMax := x0 + w }
    cmd := { g.cmd with remainingWords := words }
    gp0State := if words = 0 then .awaitingCommand
                else if g.cmd.kind = .cpuToVram then .receivingData else .transferringData }

/-- `advance()` (R302). -/
def advanceCursor (c : Cursor) : Cursor :=
  if c.x + 1 = c.xMax then { c with x := c.xStart, y := c.y + 1 } else { c with x := c.x + 1 }

/-- Write one pixel at the cursor and advance (R300, R302). -/
def pushPixel (g : Gpu) (v : Half) : Gpu :=
  { g.setPixel g.cursor.x g.cursor.y v with cursor := advanceCursor g.cursor }

/-- Count one word of the data phase; the last one ends it (R300, R301). -/
def countWord (g : Gpu) : Gpu :=
  { g with
    cmd := { g.cmd with remainingWords := g.cmd.remainingWords - 1 }
    gp0State := if g.cmd.remainingWords - 1 = 0 then .awaitingCommand else g.gp0State }

/-- Start a command (R292-R294). -/
def startCommand (g : Gpu) (kind : CmdKind) (params : List Word) (words : Nat) : Gpu :=
  { g with cmd := { kind := kind, params := params, remainingWords := words }, gp0State := .receivingParameters }

/-- A packet in AwaitingCommand: the top byte selects the command (R291-R295). -/
def commandWord (g : Gpu) (w : Word) : Gpu :=
  match w.extractLsb' 24 8 with
  | 0x68#8 => g.startCommand .rectangle [w &&& 0x00FFFFFF#32] 1
  | 0xA0#8 => g.startCommand .cpuToVram [] 2
  | 0xC0#8 => g.startCommand .vramToCpu [] 2
  | _ => g

/-- A packet in ReceivingParameters: a parameter, and with the last one the handler (R296). -/
def parameterWord (g : Gpu) (w : Word) : Gpu :=
  let g' : Gpu := { g with cmd := { g.cmd with params := g.cmd.params ++ [w], remainingWords := g.cmd.remainingWords - 1 } }
  if g'.cmd.remainingWords = 0 then (if g'.cmd.kind = .rectangle then g'.drawPixel else g'.startTransfer) else g'

/-- A packet in ReceivingData: two pixels, low then high (R300). -/
def dataWord (g : Gpu) (w : Word) : Gpu := ((g.pushPixel (loHalf w)).pushPixel (hiHalf w)).countWord

/-- A packet in TransferringData: one pair into `gpuread`; the packet's value is ignored (R301, D9). -/
def transferWord (g : Gpu) : Gpu :=
  let p0 := g.pixelAt g.cursor.x g.cursor.y
  let c1 := advanceCursor g.cursor
  let p1 := g.pixelAt c1.x c1.y
  { g with gpuread := p1 ++ p0, cursor := advanceCursor c1 }.countWord

/-- `gp0_write(w)`: one packet, processed completely (R290). -/
def gp0Write (g : Gpu) (w : Word) : Gpu :=
  match g.gp0State with
  | .awaitingCommand => g.commandWord w
  | .receivingParameters => g.parameterWord w
  | .receivingData => g.dataWord w
  | .transferringData => g.transferWord

end Sys2Proof.Machine.Gpu
end

