-- ==== Sys2Proof/Machine/Bus.lean ====
section
/-! DEFINITION. The bus: the address fold, the region map and the one access primitive (R70-R83). -/

namespace Sys2Proof.Machine

/-- The physical address: `vaddr & 0x1FFFFFFF` (R70). -/
def phys (a : Word) : Nat := (a &&& 0x1FFFFFFF#32).toNat

/-- The regions of the physical address space (R71). -/
inductive Region where
  | ram
  | scratchpad
  | io
  | bios
  | unmapped
  deriving DecidableEq, Repr

/-- First byte of the scratchpad (R71). -/
abbrev scratchpadBase : Nat := 0x1F800000
/-- First byte of the BIOS ROM (R71). -/
abbrev biosBase : Nat := 0x1FC00000
/-- Bytes of RAM (R8). -/
abbrev ramSize : Nat := 0x200000
/-- Bytes of the BIOS ROM (R8, R362). -/
abbrev biosSize : Nat := 0x80000
/-- The GP0 / GPUREAD port (R78, R79). -/
abbrev gp0Port : Nat := 0x1F801810
/-- The GP1 / GPUSTAT port (R80, R81). -/
abbrev gp1Port : Nat := 0x1F801814
/-- The constant GPUSTAT reads as (R80). -/
abbrev gpuStat : Word := 0x1FF00000#32

/-- The region of a physical address, by the table of R71 (C8: the full ranges, not the high halfword). -/
def regionOf (p : Nat) : Region :=
  if p < ramSize then .ram
  else if scratchpadBase ≤ p ∧ p < scratchpadBase + 0x400 then .scratchpad
  else if 0x1F801000 ≤ p ∧ p < 0x1F802000 then .io
  else if biosBase ≤ p ∧ p < biosBase + biosSize then .bios
  else .unmapped

/-- The access touches a GPU port word (R82). -/
def touchesGpuPort (n : Width) (p : Nat) : Bool := decide (gp0Port < p + n.bytes ∧ p < gp1Port + 4)

/-- A read of the I/O page (R79, R80, R82, R83). -/
def ioRead (g : Gpu) (n : Width) (p : Nat) : Except Refusal Word :=
  if n = .word ∧ p = gp0Port then .ok g.gpuread
  else if n = .word ∧ p = gp1Port then .ok gpuStat
  else if touchesGpuPort n p then .error .narrowGpuPort
  else .ok 0#32

/-- A write of the I/O page: what the GPU becomes (R78, R81, R82, R83). -/
def ioWrite (g : Gpu) (n : Width) (p : Nat) (v : Word) : Except Refusal Gpu :=
  if n = .word ∧ p = gp0Port then .ok (g.gp0Write v)
  else if n = .word ∧ p = gp1Port then .ok g
  else if touchesGpuPort n p then .error .narrowGpuPort
  else .ok g

/-- The bytes of the access lie in two regions (R73). DESIGN CHOICE: an access that runs past physical 0x1FFFFFFF, the end of
R71's table, ends in RAM, its last byte's own address folded, and so lies in two regions (log entry 24). -/
def spansRegions (n : Width) (a : Word) : Bool :=
  regionOf (phys a) != regionOf (phys (a + BitVec.ofNat 32 (n.bytes - 1)))

/-- `MemRead(a, n)`: the bus read primitive, its `8n` bits in the low bits of a word (R14, R72). -/
def busRead (s : State) (n : Width) (a : Word) : Except Refusal Word :=
  if spansRegions n a then .error .spansRegions
  else match regionOf (phys a) with
    | .ram => .ok (s.mem.readLe n (phys a))
    | .scratchpad => .ok (s.mem.readLe n (phys a))
    | .bios => .ok (s.mem.readLe n (phys a))
    | .unmapped => .ok 0#32
    | .io => ioRead s.gpu n (phys a)

/-- `MemWrite(a, n, v)`: the bus write primitive (R14, R72): RAM and scratchpad store, BIOS and unmapped space drop (R76,
R77), the I/O page is the GPU's. -/
def busWrite (s : State) (n : Width) (a v : Word) : Except Refusal State :=
  if spansRegions n a then .error .spansRegions
  else match regionOf (phys a) with
    | .ram => .ok { s with mem := s.mem.writeLe n (phys a) v }
    | .scratchpad => .ok { s with mem := s.mem.writeLe n (phys a) v }
    | .bios => .ok s
    | .unmapped => .ok s
    | .io => match ioWrite s.gpu n (phys a) v with
      | .ok g => .ok { s with gpu := g }
      | .error r => .error r

/-- Turn a bus access's answer into a step's: a refused access refuses (R16). -/
def ofAccess {α : Type} (x : Except Refusal α) (k : α → Result) : Result :=
  match x with
  | .ok v => k v
  | .error r => .refused r

end Sys2Proof.Machine
end

