-- ==== Sys2Proof/Machine/Flags.lean ====
section
/-! DEFINITION. The block has no flags (R35). What stands in their place: the signed-overflow conditions that raise Ovf
(R151, R152), the comparisons that write 0 or 1 (R35), and the branch conditions (R215-R221). -/

namespace Sys2Proof.Machine

/-- `ovf_add(a, b)`: `a` and `b` have one sign and the sum has the other (R151). -/
def ovfAdd (a b : Word) : Bool := (~~~(a ^^^ b) &&& ((a + b) ^^^ a)) &&& 0x80000000#32 != 0#32

/-- `ovf_sub(a, b)`: `a` and `b` have different signs and the difference's sign is not `a`'s (R152). -/
def ovfSub (a b : Word) : Bool := ((a ^^^ b) &&& ((a - b) ^^^ a)) &&& 0x80000000#32 != 0#32

/-- The word 0 or 1 a comparison writes (R35). -/
def boolWord (c : Bool) : Word := if c then 1#32 else 0#32

/-- `a <s b` (R11). -/
def ltSigned (a b : Word) : Bool := decide (a.toInt < b.toInt)

/-- `a <u b` (R11). -/
def ltUnsigned (a b : Word) : Bool := decide (a.toNat < b.toNat)

/-- The BCOND condition: XOR with `rt[0]` in bit 31, then less than zero, signed (R221). -/
def bcondTaken (v : Word) (sense : Bool) : Bool := ltSigned (v ^^^ (boolWord sense <<< 31)) 0#32

end Sys2Proof.Machine
end

