-- ==== Sys2Proof/Machine/Ops.lean ====
section
/-! DEFINITION. The named operations of the CPU: registers, COP0, the trap entry and its undoing, the load-delay slot, and
the phases of a step around phase 5. -/

namespace Sys2Proof.Machine

/-! ### General registers (R30, R31) -/

/-- `x[r]`: register 0 always reads zero (R31). -/
def State.x (s : State) (r : Reg) : Word := if r = 0 then 0#32 else s.regs[r.val]

/-- `x[r] <- v`: a write to register 0 has no effect (R31). -/
def State.setX (s : State) (r : Reg) (v : Word) : State := if r = 0 then s else { s with regs := s.regs.set r.val v }

/-- The link register of JAL, BLTZAL and BGEZAL (R32, R212). -/
def linkReg : Reg := 31

/-! ### Exceptions (R320-R326) and RFE (R244) -/

/-- The five exceptions (R320). -/
inductive ExcCode where
  | adEL
  | adES
  | sys
  | bp
  | ovf
  deriving DecidableEq, Repr

/-- The exception's code (R320). -/
def ExcCode.code : ExcCode → Word
  | .adEL => 4#32
  | .adES => 5#32
  | .sys => 8#32
  | .bp => 9#32
  | .ovf => 12#32

/-- The exception vector (R326). -/
def exceptionVector : Word := 0x80000080#32

/-- Push of the IE/KU stack (R323). -/
def pushStatus (sr : Word) : Word := (sr &&& 0xFFFFFFC0#32) ||| ((sr &&& 0x0F#32) <<< 2)

/-- Pop of the IE/KU stack, what RFE does (R244). -/
def popStatus (sr : Word) : Word := (sr &&& 0xFFFFFFF0#32) ||| ((sr &&& 0x3C#32) >>> 2)

/-- The Cause a trap leaves (R324). -/
def causeAfter (cause : Word) (e : ExcCode) : Word := (cause &&& 0x0000FF00#32) ||| (e.code <<< 2)

/-- Trap entry: `raise E(bad_vaddr)` (R15, R321). EPC is `pc - 4` with `pc` as it stands (R322), and only AdEL writes BadA
(R325, D21). -/
def takeException (e : ExcCode) (badVaddr : Word) (s : State) : State :=
  { s with
    cop0 := { badA := if e = .adEL then badVaddr else s.cop0.badA
              sr := pushStatus s.cop0.sr
              cause := causeAfter s.cop0.cause e
              epc := s.pc - 4#32 }
    pc := exceptionVector
    nextPc := exceptionVector + 4#32 }

/-- The return from an exception that the hardware does: RFE's pop of the status stack (R244, R332). The jump back is
software's. -/
def restoreStatus (s : State) : State := { s with cop0 := { s.cop0 with sr := popStatus s.cop0.sr } }

/-- SR.IsC, bit 16: isolate the cache (R41). -/
def State.isolated (s : State) : Bool := s.cop0.sr.getLsbD 16

/-! ### COP0 registers by index (R39, R40) -/

/-- `cop0[rd]`: none for an index without storage (R39, R40). -/
def Cop0.get? (c : Cop0) (rd : Reg) : Option Word :=
  if rd = 8 then some c.badA else if rd = 12 then some c.sr else if rd = 13 then some c.cause
  else if rd = 14 then some c.epc else none

/-- `cop0[rd] <- v`; a write to an index without storage is discarded (R39, R40). -/
def Cop0.set (c : Cop0) (rd : Reg) (v : Word) : Cop0 :=
  if rd = 8 then { c with badA := v } else if rd = 12 then { c with sr := v }
  else if rd = 13 then { c with cause := v } else if rd = 14 then { c with epc := v } else c

/-- What MFC0 reads, and the state after the read: an index without storage gives a fresh free value (R40, R242, D6). -/
def readCop0 (s : State) (rd : Reg) : Word × State :=
  match s.cop0.get? rd with
  | some v => (v, s)
  | none => (Config.cop0Scratch s.draws, { s with draws := s.draws + 1 })

/-! ### The load-delay slot (R131, R256, R257) -/

/-- The pending value into its register, if a slot is pending. -/
def flushLoad (s : State) : State :=
  match s.ld with
  | none => s
  | some slot => s.setX slot.reg slot.value

/-- `load_delay_install(r, v)`: flush the older load, install the new one (R257, D2, D3). -/
def installLoad (r : Reg) (v : Word) (s : State) : State :=
  { flushLoad s with ld := some { reg := r, value := v, remaining := 1 } }

/-- Phase 1, load-delay retire (R131). -/
def retireLoad (s : State) : State :=
  match s.ld with
  | none => s
  | some slot =>
    if slot.remaining = 0 then { s.setX slot.reg slot.value with ld := none }
    else { s with ld := some { slot with remaining := slot.remaining - 1 } }

/-! ### The other phases around phase 5 (R130) -/

/-- `pc[1:0] ≠ 0` (R132). -/
def pcMisaligned (s : State) : Bool := s.pc &&& 3#32 != 0#32

/-- Phase 2, the fetch-alignment check: AdEL, and the step goes on at the vector (R132, D5). -/
def checkFetch (s : State) : State := if pcMisaligned s then takeException .adEL s.pc s else s

/-- Phase 3, fetch: the word at `pc`, through the bus (R133). -/
def fetch (s : State) : Except Refusal Word := busRead s .word s.pc

/-- Phases 3 and 4 on the state: the fetched word is held in `instruction`, and the counters advance (R133, R134). -/
def advance (w : Word) (s : State) : State := { s with instruction := w, pc := s.nextPc, nextPc := s.nextPc + 4#32 }

/-- Phase 5 on an illegal word: no effect (R108, R136). -/
def execIllegal (s : State) : Result := .next s

/-- The word phase 6 reads at `pc`; none where R137 gives a draw: a misaligned `pc` whose bytes touch the I/O page or lie in
two regions (D28). -/
def refetchWord (s : State) : Option Word :=
  if pcMisaligned s ∧ regionOf (phys s.pc) = .io then none
  else match busRead s .word s.pc with
    | .ok w => some w
    | .error _ => none

/-- Phase 6, refetch (R137). -/
def refetch (s : State) : State :=
  match refetchWord s with
  | some w => { s with instruction := w }
  | none => { s with instruction := Config.refetchDraw s.draws, draws := s.draws + 1 }

/-- Phase 7: `x[0] <- 0` (R138). -/
def clearX0 (s : State) : State := { s with regs := s.regs.set 0 0#32 }

/-- Phases 6 and 7 after phase 5. -/
def finishStep (r : Result) : Result :=
  match r with
  | .next s => .next (clearX0 (refetch s))
  | .fault f => .fault f
  | .refused q => .refused q

end Sys2Proof.Machine
end

