-- ==== Sys2Proof/Machine/Operands.lean ====
section
/-! DEFINITION. The operand forms of R103, each built from the instruction's fields, and the effective address (R255). -/

namespace Sys2Proof.Machine

/-- `simm`: the immediate sign-extended (R12, R103). -/
def simm (imm : Half) : Word := imm.signExtend 32

/-- `zimm`: the immediate zero-extended (R12, R103). -/
def zimm (imm : Half) : Word := imm.setWidth 32

/-- `limm`: the immediate in the high half (R103). -/
def limm (imm : Half) : Word := imm.setWidth 32 <<< 16

/-- `boff`: the sign-extended immediate times four (R103, D13). -/
def boff (imm : Half) : Word := imm.signExtend 32 <<< 2

/-- `jtarget`: the region of the post-advance `pc` and the word target (R103, R213). -/
def jtarget (pc : Word) (target : BitVec 26) : Word := (pc &&& 0xF0000000#32) ||| (target.setWidth 32 <<< 2)

/-- `vshift`: the low five bits of a register (R103). -/
def vshift (v : Word) : Nat := (v &&& 31#32).toNat

/-- `ea`: the effective address of a load or store (R103, R255). -/
def ea (s : State) (base : Reg) (off : Half) : Word := s.x base + simm off

/-- The target of a conditional branch, relative to the post-advance `pc`, the delay slot (R211, C1). -/
def branchTarget (s : State) (off : Half) : Word := s.pc + boff off

/-- The aligned word that contains an address: `a & ~3` (R263). -/
def alignedWord (a : Word) : Word := a &&& ~~~3#32

/-- The address of the access breaks the width's alignment (R86). -/
def misaligned (n : Width) (a : Word) : Bool :=
  match n with
  | .byte => false
  | .half => a &&& 1#32 != 0#32
  | .word => a &&& 3#32 != 0#32

end Sys2Proof.Machine
end

