-- ==== Sys2Proof/Machine/Control.lean ====
section
/-! DEFINITION. Jumps and branches (R210-R225): they write `next_pc` only, and the delay slot runs (R210). In every meaning
`pc` is the delay slot's address and `next_pc` the address after it (R17, R134), and operands are read before any write
(R140). -/

namespace Sys2Proof.Machine

/-- `next_pc <- target` (R210). -/
def State.jumpTo (s : State) (target : Word) : State := { s with nextPc := target }

/-- Link register `r` to the post-advance `next_pc` (R212). -/
def State.linkTo (s : State) (r : Reg) (link : Word) : State := s.setX r link

/-- A conditional branch (R210, R211). -/
def branchIf (taken : Bool) (off : Half) (s : State) : State := if taken then s.jumpTo (branchTarget s off) else s

/-- J (R213). -/
def execJ (target : BitVec 26) (s : State) : Result := .next (s.jumpTo (jtarget s.pc target))

/-- JAL (R214). -/
def execJal (target : BitVec 26) (s : State) : Result := .next ((s.jumpTo (jtarget s.pc target)).linkTo linkReg s.nextPc)

/-- BEQ (R215, D14). -/
def execBeq (rs rt : Reg) (off : Half) (s : State) : Result := .next (branchIf (s.x rs == s.x rt) off s)

/-- BNE (R216, D14). -/
def execBne (rs rt : Reg) (off : Half) (s : State) : Result := .next (branchIf (s.x rs != s.x rt) off s)

/-- BLEZ (R217, D14). -/
def execBlez (rs : Reg) (off : Half) (s : State) : Result := .next (branchIf (ltSigned (s.x rs) 1#32) off s)

/-- BGTZ (R218, D14). -/
def execBgtz (rs : Reg) (off : Half) (s : State) : Result := .next (branchIf (ltSigned 0#32 (s.x rs)) off s)

/-- JR: any target, aligned or not (R219). -/
def execJr (rs : Reg) (s : State) : Result := .next (s.jumpTo (s.x rs))

/-- JALR: to the old `x[rs]` (R220). -/
def execJalr (rd rs : Reg) (s : State) : Result := .next ((s.jumpTo (s.x rs)).linkTo rd s.nextPc)

/-- BLTZ (R221, R222). -/
def execBltz (rs : Reg) (off : Half) (s : State) : Result := .next (branchIf (bcondTaken (s.x rs) false) off s)

/-- BGEZ (R221, R223). -/
def execBgez (rs : Reg) (off : Half) (s : State) : Result := .next (branchIf (bcondTaken (s.x rs) true) off s)

/-- BLTZAL: links whether or not taken, and tests the old `x[rs]` (R221, R224). -/
def execBltzal (rs : Reg) (off : Half) (s : State) : Result :=
  .next ((branchIf (bcondTaken (s.x rs) false) off s).linkTo linkReg s.nextPc)

/-- BGEZAL: links whether or not taken, and tests the old `x[rs]` (R221, R225). -/
def execBgezal (rs : Reg) (off : Half) (s : State) : Result :=
  .next ((branchIf (bcondTaken (s.x rs) true) off s).linkTo linkReg s.nextPc)

end Sys2Proof.Machine
end

