-- ==== Sys2Proof/Machine/ImmAlu.lean ====
section
/-! DEFINITION. Immediate arithmetic, logic and comparison: ADDI, ADDIU, SLTI, SLTIU, ANDI, ORI, XORI, LUI (R153-R160). -/

namespace Sys2Proof.Machine

/-- Write a result, or raise Ovf and write nothing (R150). -/
def writeOrOverflow (overflow : Bool) (rd : Reg) (v : Word) (s : State) : Result :=
  if overflow then .next (takeException .ovf 0#32 s) else .next (s.setX rd v)

/-- ADDI (R153). -/
def execAddi (rt rs : Reg) (imm : Half) (s : State) : Result :=
  writeOrOverflow (ovfAdd (s.x rs) (simm imm)) rt (s.x rs + simm imm) s

/-- ADDIU (R154). -/
def execAddiu (rt rs : Reg) (imm : Half) (s : State) : Result := .next (s.setX rt (s.x rs + simm imm))

/-- SLTI (R155). -/
def execSlti (rt rs : Reg) (imm : Half) (s : State) : Result := .next (s.setX rt (boolWord (ltSigned (s.x rs) (simm imm))))

/-- SLTIU: the immediate is sign-extended, then compared unsigned (R156). -/
def execSltiu (rt rs : Reg) (imm : Half) (s : State) : Result :=
  .next (s.setX rt (boolWord (ltUnsigned (s.x rs) (simm imm))))

/-- ANDI (R157). -/
def execAndi (rt rs : Reg) (imm : Half) (s : State) : Result := .next (s.setX rt (s.x rs &&& zimm imm))

/-- ORI (R158). -/
def execOri (rt rs : Reg) (imm : Half) (s : State) : Result := .next (s.setX rt (s.x rs ||| zimm imm))

/-- XORI (R159). -/
def execXori (rt rs : Reg) (imm : Half) (s : State) : Result := .next (s.setX rt (s.x rs ^^^ zimm imm))

/-- LUI: no load, it writes at once (R160). -/
def execLui (rt : Reg) (imm : Half) (s : State) : Result := .next (s.setX rt (limm imm))

end Sys2Proof.Machine
end

