-- ==== Sys2Proof/Machine/LoadStore.lean ====
section
/-! DEFINITION. Loads, through the load-delay slot, and stores (R255-R270). -/

namespace Sys2Proof.Machine

/-- A load at address `a`: the alignment check, the read, the slot (R256, R270). -/
def load (n : Width) (extend : Word → Word) (rt : Reg) (a : Word) (s : State) : Result :=
  if misaligned n a then .next (takeException .adEL a s)
  else ofAccess (busRead s n a) (fun v => .next (installLoad rt (extend v) s))

/-- A store at address `a`: the alignment check, the write (R270). A bad address is passed to the trap, which keeps BadA for
AdES (R325, D21). -/
def store (n : Width) (v : Word) (a : Word) (s : State) : Result :=
  if misaligned n a then .next (takeException .adES a s) else ofAccess (busWrite s n a v) .next

/-- `sext_32` of an 8-bit value held in a word (R12, R258). -/
def sextByte (v : Word) : Word := (v.setWidth 8).signExtend 32

/-- `sext_32` of a 16-bit value held in a word (R12, R260). -/
def sextHalf (v : Word) : Word := (v.setWidth 16).signExtend 32

/-- The low two bits of an address, the case of the merge tables (R263). -/
def lane (a : Word) : Nat := (a &&& 3#32).toNat

/-- LWL's merge of the memory word into the old register (R263). -/
def mergeLwl (k : Nat) (old w : Word) : Word :=
  match k with
  | 0 => (old &&& 0x00FFFFFF#32) ||| (w <<< 24)
  | 1 => (old &&& 0x0000FFFF#32) ||| (w <<< 16)
  | 2 => (old &&& 0x000000FF#32) ||| (w <<< 8)
  | _ => w

/-- LWR's merge of the memory word into the old register (R264). -/
def mergeLwr (k : Nat) (old w : Word) : Word :=
  match k with
  | 0 => w
  | 1 => (old &&& 0xFF000000#32) ||| (w >>> 8)
  | 2 => (old &&& 0xFFFF0000#32) ||| (w >>> 16)
  | _ => (old &&& 0xFFFFFF00#32) ||| (w >>> 24)

/-- SWL's merge of the register into the memory word (R268). -/
def mergeSwl (k : Nat) (m r : Word) : Word :=
  match k with
  | 0 => (m &&& 0xFFFFFF00#32) ||| (r >>> 24)
  | 1 => (m &&& 0xFFFF0000#32) ||| (r >>> 16)
  | 2 => (m &&& 0xFF000000#32) ||| (r >>> 8)
  | _ => r

/-- SWR's merge of the register into the memory word (R269). -/
def mergeSwr (k : Nat) (m r : Word) : Word :=
  match k with
  | 0 => r
  | 1 => (m &&& 0x000000FF#32) ||| (r <<< 8)
  | 2 => (m &&& 0x0000FFFF#32) ||| (r <<< 16)
  | _ => (m &&& 0x00FFFFFF#32) ||| (r <<< 24)

/-- A load of the aligned word around `a`, merged into `x[rt]` as the register file holds it (R263, R264, D30). -/
def loadMerged (merge : Nat → Word → Word → Word) (rt : Reg) (a : Word) (s : State) : Result :=
  ofAccess (busRead s .word (alignedWord a)) (fun w => .next (installLoad rt (merge (lane a) (s.x rt) w) s))

/-- A read-modify-write of the aligned word around `a` (R268, R269). -/
def storeMerged (merge : Nat → Word → Word → Word) (r : Word) (a : Word) (s : State) : Result :=
  ofAccess (busRead s .word (alignedWord a)) (fun m => ofAccess (busWrite s .word (alignedWord a) (merge (lane a) m r)) .next)

/-- LB (R258). -/
def execLb (rt : Reg) (off : Half) (base : Reg) (s : State) : Result := load .byte sextByte rt (ea s base off) s

/-- LBU (R259). -/
def execLbu (rt : Reg) (off : Half) (base : Reg) (s : State) : Result := load .byte id rt (ea s base off) s

/-- LH (R260). -/
def execLh (rt : Reg) (off : Half) (base : Reg) (s : State) : Result := load .half sextHalf rt (ea s base off) s

/-- LHU (R261). -/
def execLhu (rt : Reg) (off : Half) (base : Reg) (s : State) : Result := load .half id rt (ea s base off) s

/-- LW (R262). -/
def execLw (rt : Reg) (off : Half) (base : Reg) (s : State) : Result := load .word id rt (ea s base off) s

/-- LWL (R263). -/
def execLwl (rt : Reg) (off : Half) (base : Reg) (s : State) : Result := loadMerged mergeLwl rt (ea s base off) s

/-- LWR (R264). -/
def execLwr (rt : Reg) (off : Half) (base : Reg) (s : State) : Result := loadMerged mergeLwr rt (ea s base off) s

/-- SB (R265). -/
def execSb (rt : Reg) (off : Half) (base : Reg) (s : State) : Result := store .byte (s.x rt) (ea s base off) s

/-- SH (R266). -/
def execSh (rt : Reg) (off : Half) (base : Reg) (s : State) : Result := store .half (s.x rt) (ea s base off) s

/-- SW: the alignment check comes first, then SR.IsC suppresses the write (R267, D24, C5). -/
def execSw (rt : Reg) (off : Half) (base : Reg) (s : State) : Result :=
  if s.isolated ∧ misaligned .word (ea s base off) = false then .next s else store .word (s.x rt) (ea s base off) s

/-- SWL (R268). -/
def execSwl (rt : Reg) (off : Half) (base : Reg) (s : State) : Result := storeMerged mergeSwl (s.x rt) (ea s base off) s

/-- SWR (R269). -/
def execSwr (rt : Reg) (off : Half) (base : Reg) (s : State) : Result := storeMerged mergeSwr (s.x rt) (ea s base off) s

end Sys2Proof.Machine
end

