-- ==== Sys2Proof/Machine/MulDiv.lean ====
section
/-! DEFINITION. HI/LO moves, multiply and divide (R187-R195): results are in `hi` and `lo` at the end of the step. -/

namespace Sys2Proof.Machine

/-- `lo <- p[31:0]; hi <- p[63:32]` (R191). -/
def State.setProduct (s : State) (p : BitVec 64) : State := { s with lo := p.extractLsb' 0 32, hi := p.extractLsb' 32 32 }

/-- Quotient and remainder of DIV, the edge cases exactly (R193). -/
def signedQuotRem (n d : Word) : Word × Word :=
  if d = 0#32 then (if ltSigned n 0#32 then 1#32 else 0xFFFFFFFF#32, n)
  else if n = 0x80000000#32 ∧ d = 0xFFFFFFFF#32 then (0x80000000#32, 0#32)
  else
    let q := Int.tdiv n.toInt d.toInt
    (BitVec.ofInt 32 q, BitVec.ofInt 32 (n.toInt - q * d.toInt))

/-- Quotient and remainder of DIVU (R194). -/
def unsignedQuotRem (n d : Word) : Word × Word :=
  if d = 0#32 then (0xFFFFFFFF#32, n)
  else (BitVec.ofNat 32 (n.toNat / d.toNat), BitVec.ofNat 32 (n.toNat % d.toNat))

/-- `lo` takes the quotient, `hi` the remainder (R193, R194). -/
def State.setQuotRem (s : State) (qr : Word × Word) : State := { s with lo := qr.1, hi := qr.2 }

/-- MFHI (R187). -/
def execMfhi (rd : Reg) (s : State) : Result := .next (s.setX rd s.hi)

/-- MTHI (R188). -/
def execMthi (rs : Reg) (s : State) : Result := .next { s with hi := s.x rs }

/-- MFLO (R189). -/
def execMflo (rd : Reg) (s : State) : Result := .next (s.setX rd s.lo)

/-- MTLO (R190). -/
def execMtlo (rs : Reg) (s : State) : Result := .next { s with lo := s.x rs }

/-- MULT: the exact signed product (R191). -/
def execMult (rs rt : Reg) (s : State) : Result := .next (s.setProduct (BitVec.ofInt 64 ((s.x rs).toInt * (s.x rt).toInt)))

/-- MULTU: the exact unsigned product (R192). -/
def execMultu (rs rt : Reg) (s : State) : Result := .next (s.setProduct (BitVec.ofNat 64 ((s.x rs).toNat * (s.x rt).toNat)))

/-- DIV (R193). -/
def execDiv (rs rt : Reg) (s : State) : Result := .next (s.setQuotRem (signedQuotRem (s.x rs) (s.x rt)))

/-- DIVU (R194). -/
def execDivu (rs rt : Reg) (s : State) : Result := .next (s.setQuotRem (unsignedQuotRem (s.x rs) (s.x rt)))

end Sys2Proof.Machine
end

