-- ==== Sys2Proof/Machine/SpecialAlu.lean ====
section
/-! DEFINITION. SPECIAL shifts and register arithmetic, logic and comparison (R171-R186). -/

namespace Sys2Proof.Machine

/-- SLL (R171). -/
def execSll (rd rt : Reg) (shamt : Nat) (s : State) : Result := .next (s.setX rd (s.x rt <<< shamt))

/-- SRL (R172). -/
def execSrl (rd rt : Reg) (shamt : Nat) (s : State) : Result := .next (s.setX rd (s.x rt >>> shamt))

/-- SRA (R173). -/
def execSra (rd rt : Reg) (shamt : Nat) (s : State) : Result := .next (s.setX rd ((s.x rt).sshiftRight shamt))

/-- SLLV (R174). -/
def execSllv (rd rt rs : Reg) (s : State) : Result := .next (s.setX rd (s.x rt <<< vshift (s.x rs)))

/-- SRLV (R175). -/
def execSrlv (rd rt rs : Reg) (s : State) : Result := .next (s.setX rd (s.x rt >>> vshift (s.x rs)))

/-- SRAV (R176). -/
def execSrav (rd rt rs : Reg) (s : State) : Result := .next (s.setX rd ((s.x rt).sshiftRight (vshift (s.x rs))))

/-- ADD (R177). -/
def execAdd (rd rs rt : Reg) (s : State) : Result := writeOrOverflow (ovfAdd (s.x rs) (s.x rt)) rd (s.x rs + s.x rt) s

/-- ADDU (R178). -/
def execAddu (rd rs rt : Reg) (s : State) : Result := .next (s.setX rd (s.x rs + s.x rt))

/-- SUB (R179). -/
def execSub (rd rs rt : Reg) (s : State) : Result := writeOrOverflow (ovfSub (s.x rs) (s.x rt)) rd (s.x rs - s.x rt) s

/-- SUBU (R180). -/
def execSubu (rd rs rt : Reg) (s : State) : Result := .next (s.setX rd (s.x rs - s.x rt))

/-- AND (R181). -/
def execAnd (rd rs rt : Reg) (s : State) : Result := .next (s.setX rd (s.x rs &&& s.x rt))

/-- OR (R182). -/
def execOr (rd rs rt : Reg) (s : State) : Result := .next (s.setX rd (s.x rs ||| s.x rt))

/-- XOR (R183). -/
def execXor (rd rs rt : Reg) (s : State) : Result := .next (s.setX rd (s.x rs ^^^ s.x rt))

/-- NOR (R184). -/
def execNor (rd rs rt : Reg) (s : State) : Result := .next (s.setX rd (~~~(s.x rs ||| s.x rt)))

/-- SLT (R185). -/
def execSlt (rd rs rt : Reg) (s : State) : Result := .next (s.setX rd (boolWord (ltSigned (s.x rs) (s.x rt))))

/-- SLTU (R186). -/
def execSltu (rd rs rt : Reg) (s : State) : Result := .next (s.setX rd (boolWord (ltUnsigned (s.x rs) (s.x rt))))

end Sys2Proof.Machine
end

