-- ==== Sys2Proof/Machine/System.lean ====
section
/-! DEFINITION. SYSCALL, BREAK, MFC0, MTC0, RFE (R240-R244). No instruction checks a privilege (R335). -/

namespace Sys2Proof.Machine

/-- SYSCALL (R240). -/
def execSyscall (s : State) : Result := .next (takeException .sys 0#32 s)

/-- BREAK (R241). -/
def execBrk (s : State) : Result := .next (takeException .bp 0#32 s)

/-- MFC0: the write is immediate, not through the load-delay slot (R242, D19). -/
def execMfc0 (rt rd : Reg) (s : State) : Result := .next ((readCop0 s rd).2.setX rt (readCop0 s rd).1)

/-- MTC0 (R243). -/
def execMtc0 (rt rd : Reg) (s : State) : Result := .next { s with cop0 := s.cop0.set rd (s.x rt) }

/-- RFE (R244). -/
def execRfe (s : State) : Result := .next (restoreStatus s)

end Sys2Proof.Machine
end

