-- ==== Sys2Proof/Machine/Dispatch.lean ====
section
/-! DEFINITION. Phase 5: the dispatch to the one meaning of each instruction (R135). -/

namespace Sys2Proof.Machine

/-- The effect of an instruction on the state after phase 4 (R17, R135). -/
def exec (i : Instr) (s : State) : Host.Outcome State Fault Refusal :=
    match i with
    -- immediate arithmetic, logic and comparison (R153-R160)
    | .addi rt rs imm => Sys2Proof.Machine.execAddi rt rs imm s
    | .addiu rt rs imm => Sys2Proof.Machine.execAddiu rt rs imm s
    | .slti rt rs imm => Sys2Proof.Machine.execSlti rt rs imm s
    | .sltiu rt rs imm => Sys2Proof.Machine.execSltiu rt rs imm s
    | .andi rt rs imm => Sys2Proof.Machine.execAndi rt rs imm s
    | .ori rt rs imm => Sys2Proof.Machine.execOri rt rs imm s
    | .xori rt rs imm => Sys2Proof.Machine.execXori rt rs imm s
    | .lui rt imm => Sys2Proof.Machine.execLui rt imm s
    -- shifts (R171-R176)
    | .sll rd rt shamt => Sys2Proof.Machine.execSll rd rt shamt s
    | .srl rd rt shamt => Sys2Proof.Machine.execSrl rd rt shamt s
    | .sra rd rt shamt => Sys2Proof.Machine.execSra rd rt shamt s
    | .sllv rd rt rs => Sys2Proof.Machine.execSllv rd rt rs s
    | .srlv rd rt rs => Sys2Proof.Machine.execSrlv rd rt rs s
    | .srav rd rt rs => Sys2Proof.Machine.execSrav rd rt rs s
    -- register jumps (R219, R220)
    | .jr rs => Sys2Proof.Machine.execJr rs s
    | .jalr rd rs => Sys2Proof.Machine.execJalr rd rs s
    -- traps (R240, R241)
    | .syscall => Sys2Proof.Machine.execSyscall s
    | .brk => Sys2Proof.Machine.execBrk s
    -- HI/LO moves, multiply and divide (R187-R194)
    | .mfhi rd => Sys2Proof.Machine.execMfhi rd s
    | .mthi rs => Sys2Proof.Machine.execMthi rs s
    | .mflo rd => Sys2Proof.Machine.execMflo rd s
    | .mtlo rs => Sys2Proof.Machine.execMtlo rs s
    | .mult rs rt => Sys2Proof.Machine.execMult rs rt s
    | .multu rs rt => Sys2Proof.Machine.execMultu rs rt s
    | .div rs rt => Sys2Proof.Machine.execDiv rs rt s
    | .divu rs rt => Sys2Proof.Machine.execDivu rs rt s
    -- register arithmetic, logic and comparison (R177-R186)
    | .add rd rs rt => Sys2Proof.Machine.execAdd rd rs rt s
    | .addu rd rs rt => Sys2Proof.Machine.execAddu rd rs rt s
    | .sub rd rs rt => Sys2Proof.Machine.execSub rd rs rt s
    | .subu rd rs rt => Sys2Proof.Machine.execSubu rd rs rt s
    | .and rd rs rt => Sys2Proof.Machine.execAnd rd rs rt s
    | .or rd rs rt => Sys2Proof.Machine.execOr rd rs rt s
    | .xor rd rs rt => Sys2Proof.Machine.execXor rd rs rt s
    | .nor rd rs rt => Sys2Proof.Machine.execNor rd rs rt s
    | .slt rd rs rt => Sys2Proof.Machine.execSlt rd rs rt s
    | .sltu rd rs rt => Sys2Proof.Machine.execSltu rd rs rt s
    -- jumps and branches (R213-R218, R222-R225)
    | .j target => Sys2Proof.Machine.execJ target s
    | .jal target => Sys2Proof.Machine.execJal target s
    | .beq rs rt off => Sys2Proof.Machine.execBeq rs rt off s
    | .bne rs rt off => Sys2Proof.Machine.execBne rs rt off s
    | .blez rs off => Sys2Proof.Machine.execBlez rs off s
    | .bgtz rs off => Sys2Proof.Machine.execBgtz rs off s
    | .bltz rs off => Sys2Proof.Machine.execBltz rs off s
    | .bgez rs off => Sys2Proof.Machine.execBgez rs off s
    | .bltzal rs off => Sys2Proof.Machine.execBltzal rs off s
    | .bgezal rs off => Sys2Proof.Machine.execBgezal rs off s
    -- COP0 (R242-R244)
    | .mfc0 rt rd => Sys2Proof.Machine.execMfc0 rt rd s
    | .mtc0 rt rd => Sys2Proof.Machine.execMtc0 rt rd s
    | .rfe => Sys2Proof.Machine.execRfe s
    -- loads and stores (R258-R269)
    | .lb rt off base => Sys2Proof.Machine.execLb rt off base s
    | .lh rt off base => Sys2Proof.Machine.execLh rt off base s
    | .lwl rt off base => Sys2Proof.Machine.execLwl rt off base s
    | .lw rt off base => Sys2Proof.Machine.execLw rt off base s
    | .lbu rt off base => Sys2Proof.Machine.execLbu rt off base s
    | .lhu rt off base => Sys2Proof.Machine.execLhu rt off base s
    | .lwr rt off base => Sys2Proof.Machine.execLwr rt off base s
    | .sb rt off base => Sys2Proof.Machine.execSb rt off base s
    | .sh rt off base => Sys2Proof.Machine.execSh rt off base s
    | .swl rt off base => Sys2Proof.Machine.execSwl rt off base s
    | .sw rt off base => Sys2Proof.Machine.execSw rt off base s
    | .swr rt off base => Sys2Proof.Machine.execSwr rt off base s

end Sys2Proof.Machine
end

