-- ==== Sys2Proof/Machine/Step.lean ====
section
/-! DEFINITION. The step, its seven phases in order (R130), and the placing of an instruction where the step fetches. -/

namespace Sys2Proof.Machine

/-- Phase 5: the instruction a word decodes to; an illegal word has no effect (R135, R136). -/
def execWord (w : Word) (s : State) : Host.Outcome State Fault Refusal :=
  match decode w with
  | .ok i => exec i s
  | .error _ => execIllegal s

/-- `step()` (R130): retire, check, fetch, advance, execute, refetch, clear x[0]. -/
def step (s : State) : Host.Outcome State Fault Refusal :=
  ofAccess (fetch (checkFetch (retireLoad s)))
    (fun w => finishStep (execWord w (advance w (checkFetch (retireLoad s)))))

/-- Where the next step fetches: `pc`, or the exception vector if `pc` is misaligned (R132, R133). -/
def State.fetchAddr (s : State) : Word := if pcMisaligned s then exceptionVector else s.pc

/-- The address lies in one of the byte arrays, so that a word can be placed there. -/
def placeable (a : Word) : Bool :=
  match regionOf (phys a) with
  | .ram => true
  | .scratchpad => true
  | .bios => true
  | .io => false
  | .unmapped => false

/-- The instruction whose low `nbits` bits are `w`, stored where the next step fetches, as the host's loader or BIOS image
would have left it (log entry 3). Where that address holds no memory (I/O page, unmapped) the pc moves to the reset vector. -/
def State.withFetchWord (s : State) (nbits w : Nat) : State :=
  let bytes := bytesOfWord (BitVec.ofNat 32 (w % 2 ^ nbits))
  if placeable s.fetchAddr then { s with mem := s.mem.writeBytes (phys s.fetchAddr) bytes }
  else { s with pc := Config.resetVector, mem := s.mem.writeBytes (phys Config.resetVector) bytes }

end Sys2Proof.Machine
end

