-- ==== Sys2Proof/Machine/HostOps.lean ====
section
/-! DEFINITION. The operations the host performs on the block between steps: reset, BIOS load, EXE injection, setting the
program counter, and the tracing observation (R360-R367); and the run the host makes of them, with the arguments of R9, until
END_OF_RUN says to stop (R368). None of them runs inside a step (R364). -/

namespace Sys2Proof.Machine

/-- A cell of the BIOS ROM (R71). -/
def isBiosCell (c : Host.Cell) : Bool := decide (biosBase ≤ c.1 ∧ c.1 < biosBase + biosSize)

/-- Reset of the block, bus and GPU first, then the CPU with its prefetch (R360): everything takes its reset value and only
the BIOS keeps its content (R361). GPUREAD_INIT is an argument (R9). The count of draws, the model's own, goes on. -/
def State.hostReset (gpureadInit : Word) (s : State) : State :=
  refetch { State.reset with mem := s.mem.filter isBiosCell, gpu := Gpu.reset gpureadInit, draws := s.draws }

/-- The BIOS load: exactly 524,288 bytes, loaded verbatim (R362, D22). -/
def loadBios (image : List Byte) (s : State) : Result :=
  if image.length = biosSize then .next { s with mem := s.mem.writeBytes biosBase image } else .refused .badBiosImage

/-- The prefetch of `set_pc` and of the EXE injection: `instruction <- MemRead(pc, 4)`, the bus read itself, refused where the
bus refuses it (R73, R83, R365, R367). What D28 decides is phase 6 alone. -/
def prefetch (s : State) : Result := ofAccess (fetch s) (fun w => .next { s with instruction := w })

/-- `set_pc(p)` (R367, D29). -/
def setPc (p : Word) (s : State) : Result := prefetch { s with pc := p, nextPc := p + 4#32 }

/-- A little-endian 32-bit field of an EXE image (R365). -/
def exeField (file : List Byte) (i : Nat) : Word :=
  wordOfBytes (file.getD i 0#8) (file.getD (i + 1) 0#8) (file.getD (i + 2) 0#8) (file.getD (i + 3) 0#8)

/-- The injection is due: `pc` = 0x80030000 between steps (R365). -/
def exeInjectionDue (s : State) : Bool := s.pc = 0x80030000#32

/-- EXE injection: the payload into RAM, then `set_pc` of the initial PC; nothing else changes (R365, D33). DESIGN CHOICE: U13
lists a "misaligned EXE header" as refused without saying what that is, and R365 has no such condition; a misaligned initial
PC or destination is no ground of its own for refusing here (log entry 23). -/
def injectExe (file : List Byte) (s : State) : Result :=
  let size := (exeField file 0x1C).toNat
  let dest := phys (exeField file 0x18)
  if file.length < 0x800 + size ∨ ramSize < dest + size then .refused .badExeImage
  else setPc (exeField file 0x10) { s with mem := s.mem.writeBytes dest ((file.drop 0x800).take size) }

/-- The BIOS putchar observation: the character the host emits between steps, if any (R366, D34). It changes no state. -/
def tracedChar (s : State) : Option Byte :=
  if (s.pc = 0x000000A0#32 ∧ s.x 9 = 0x3C#32) ∨ (s.pc = 0x000000B0#32 ∧ s.x 9 = 0x3D#32) then some ((s.x 4).setWidth 8)
  else none

/-! ### A run (R9, R363, R364, R368) -/

/-- Go on with a next state; a fault or a refusal ends it. -/
def andThen {α β : Type} (x : Host.Outcome α Fault Refusal) (k : α → Host.Outcome β Fault Refusal) :
    Host.Outcome β Fault Refusal :=
  match x with
  | .next a => k a
  | .fault f => .fault f
  | .refused q => .refused q

/-- The block constructed from its arguments BIOS_IMAGE and GPUREAD_INIT: the load, then the reset (R9, R360, R362). -/
def construct (biosImage : List Byte) (gpureadInit : Word) : Result :=
  andThen (loadBios biosImage State.reset) (fun s => .next (s.hostReset gpureadInit))

/-- What the host carries through a run: the block, the EXE file still to be injected, if any, and the characters emitted so
far, oldest first, which nothing reads (R365, R366). -/
structure Session where
  block : State
  exe : Option (List Byte)
  output : List Byte
  deriving DecidableEq, Repr

/-- The injection where it is due, at most once in a run: the file is gone afterwards (R365, D33). -/
def injectIfDue (r : Session) : Host.Outcome Session Fault Refusal :=
  match r.exe with
  | none => .next r
  | some file =>
    if exeInjectionDue r.block then
      andThen (injectExe file r.block) (fun s => .next { r with block := s, exe := none })
    else .next r

/-- The observation of a state between steps: its character is appended (R366). -/
def observe (r : Session) : Session :=
  match tracedChar r.block with
  | none => r
  | some c => { r with output := r.output ++ [c] }

/-- One turn of the host's loop: the injection if it is due, the observation, then `step()` (R364). The state before an injection
has `pc` = 0x80030000 and so no character of its own. -/
def hostTurn (r : Session) : Host.Outcome Session Fault Refusal :=
  andThen (injectIfDue r) (fun q => andThen (step q.block) (fun s => .next { observe q with block := s }))

/-- At most `n` turns of a run, until END_OF_RUN holds of the block between steps (R9, R368, D27). DESIGN CHOICE: the predicate
is asked before each turn (log entry 19). -/
def hostRun (endOfRun : State → Bool) : Nat → Session → Host.Outcome Session Fault Refusal
  | 0, r => .next r
  | n + 1, r => if endOfRun r.block then .next r else andThen (hostTurn r) (hostRun endOfRun n)

end Sys2Proof.Machine
end

