-- ==== Sys2Proof/Safety.lean ====
section
/-! DEFINITION. What claims about runs are stated in: the invariant of the state (R31, R38, R46, R47, R54, R303), the byte
and pixel a claim reads, and the accesses the spec refuses (R82). -/

namespace Sys2Proof.Machine

/-- The byte at a physical address of the byte arrays: the model's read of one byte (R46, R74). -/
def State.byteAt (s : State) (p : Nat) : Byte := Cells.read s.mem p

/-- The halfword of VRAM at an index (R47). -/
def State.pixelAt (s : State) (i : Nat) : Half := Cells.read s.gpu.vram i

/-- A region with bytes of its own (R46). -/
def Region.isArray (r : Region) : Prop := r = .ram ∨ r = .scratchpad ∨ r = .bios

/-- Every listed byte lies in RAM, the scratchpad or the BIOS (R46, R71). -/
def Memory.inArrays (m : Memory) : Prop := ∀ c ∈ m, (regionOf c.1).isArray

/-- Every listed pixel lies in VRAM (R47). -/
def Vram.inBounds (v : Vram) : Prop := ∀ c ∈ v, c.1 < 1024 * 512

/-- The cursor of a running transfer: its row of at most 1024 columns (R299, R302). -/
def Cursor.inRow (c : Cursor) : Prop := c.xStart < 1024 ∧ c.xStart ≤ c.x ∧ c.x < c.xMax ∧ c.xMax ≤ c.xStart + 1024

/-- The GP0 port's invariant (R303): how many words each state still expects, and of which command. -/
def Gpu.portInv (g : Gpu) : Prop :=
  match g.gp0State with
  | .awaitingCommand => g.cmd.remainingWords = 0
  | .receivingParameters =>
    (g.cmd.kind = .rectangle ∧ g.cmd.params.length = 1 ∧ g.cmd.remainingWords = 1) ∨
    ((g.cmd.kind = .cpuToVram ∨ g.cmd.kind = .vramToCpu) ∧ 1 ≤ g.cmd.remainingWords ∧
      g.cmd.params.length + g.cmd.remainingWords = 2)
  | .receivingData => g.cmd.kind = .cpuToVram ∧ 1 ≤ g.cmd.remainingWords ∧ g.cursor.inRow
  | .transferringData => g.cmd.kind = .vramToCpu ∧ 1 ≤ g.cmd.remainingWords ∧ g.cursor.inRow

/-- The invariant of the state between steps. -/
structure State.Inv (s : State) : Prop where
  /-- Memory is in canonical form. -/
  memWf : Memory.wf s.mem
  /-- Bytes are listed only where the spec has byte arrays. -/
  memInArrays : Memory.inArrays s.mem
  /-- VRAM is in canonical form. -/
  vramWf : Vram.wf s.gpu.vram
  /-- Pixels are listed only inside VRAM. -/
  vramInBounds : Vram.inBounds s.gpu.vram
  /-- `gpr[0]` is zero (R54, R138). -/
  x0 : s.regs[0] = 0#32
  /-- A pending load waits for at most one more instruction (R38). -/
  loadSlot : ∀ slot, s.ld = some slot → slot.remaining ≤ 1
  /-- The GP0 port's invariant (R303). -/
  port : s.gpu.portInv

/-- The narrow loads and stores, with the width and the address of their access (R82, R88). -/
def narrowAccess (s : State) : Instr → Option (Width × Word)
  | .lb _ off base | .lbu _ off base | .sb _ off base => some (.byte, ea s base off)
  | .lh _ off base | .lhu _ off base | .sh _ off base => some (.half, ea s base off)
  | _ => none

/-- The instruction is a narrow access, aligned, that overlaps a GPU port word: the one form a step refuses (R82, D8). -/
def refusedNarrow (i : Instr) (s : State) : Prop :=
  ∃ n a, narrowAccess s i = some (n, a) ∧ misaligned n a = false ∧ touchesGpuPort n (phys a) = true

end Sys2Proof.Machine
end

