-- ==== Sys2Proof/WellFormed.lean ====
section
/-! DEFINITION. Which terms of Instr stand for an encodable instruction. Register indices, immediates and jump targets are
bounded by their types; the one check left is the constant shift amount, a number 0..31 (R103). -/

namespace Sys2Proof

/-- The shift amount of a constant shift fits its five bits (R101, R103). -/
def shamtFits (shamt : Nat) : Bool := decide (shamt < 32)

/-- The instruction has an encoding (R101-R103). -/
def Instr.wf : Instr → Bool
  | .sll _ _ shamt | .srl _ _ shamt | .sra _ _ shamt => shamtFits shamt
  | .addi .. | .addiu .. | .slti .. | .sltiu .. | .andi .. | .ori .. | .xori .. | .lui .. => true
  | .sllv .. | .srlv .. | .srav .. | .jr .. | .jalr .. | .syscall | .brk => true
  | .mfhi .. | .mthi .. | .mflo .. | .mtlo .. | .mult .. | .multu .. | .div .. | .divu .. => true
  | .add .. | .addu .. | .sub .. | .subu .. | .and .. | .or .. | .xor .. | .nor .. | .slt .. | .sltu .. => true
  | .j .. | .jal .. | .beq .. | .bne .. | .blez .. | .bgtz .. => true
  | .bltz .. | .bgez .. | .bltzal .. | .bgezal .. | .mfc0 .. | .mtc0 .. | .rfe => true
  | .lb .. | .lh .. | .lwl .. | .lw .. | .lbu .. | .lhu .. | .lwr .. => true
  | .sb .. | .sh .. | .swl .. | .sw .. | .swr .. => true

end Sys2Proof
end

