-- ==== Sys2Proof/Certificates/Slice0/Obligations.lean ====
section
/-! DEFINITION. The statements for the provers. First the words they are written in: what it is for a step's answer to have
one shape (a register written, a trap taken, a load installed, bytes stored) and to leave everything else alone; then the
statements, `def Obligations.<Name> : Prop`. -/

namespace Sys2Proof.Claims

open Sys2Proof.Machine

/-! ### Shapes of an answer, each with its frame -/

/-- The answer is a next state, and it is as described. -/
def Answers (o : Result) (P : State → Prop) : Prop := ∃ t, o = .next t ∧ P t

/-- Memory byte by byte, the GPU, the instruction register and the count of draws are unchanged. -/
structure SameOutside (s t : State) : Prop where
  bytes : ∀ p, t.byteAt p = s.byteAt p
  gpu : t.gpu = s.gpu
  instruction : t.instruction = s.instruction
  draws : t.draws = s.draws

/-- `hi`, `lo`, the load-delay slot and COP0 are unchanged. -/
structure SameCpu (s t : State) : Prop where
  hi : t.hi = s.hi
  lo : t.lo = s.lo
  ld : t.ld = s.ld
  cop0 : t.cop0 = s.cop0

/-- Register `r` holds `v` (register 0 still reads zero), every other register is unchanged. -/
structure RegBecomes (s : State) (r : Reg) (v : Word) (t : State) : Prop where
  value : t.x r = if r = 0 then 0#32 else v
  others : ∀ q, q ≠ r → t.x q = s.x q

/-- A register write and nothing else. -/
structure WritesReg (s : State) (r : Reg) (v : Word) (t : State) : Prop where
  reg : RegBecomes s r v t
  pc : t.pc = s.pc
  nextPc : t.nextPc = s.nextPc
  cpu : SameCpu s t
  rest : SameOutside s t

/-- `hi` and `lo` become as described, and nothing else changes. -/
structure WritesHiLo (s : State) (P : Word → Word → Prop) (t : State) : Prop where
  values : P t.hi t.lo
  regs : ∀ q, t.x q = s.x q
  pc : t.pc = s.pc
  nextPc : t.nextPc = s.nextPc
  ld : t.ld = s.ld
  cop0 : t.cop0 = s.cop0
  rest : SameOutside s t

/-- `next_pc` becomes the target, and nothing else changes. -/
structure JumpsTo (s : State) (target : Word) (t : State) : Prop where
  nextPc : t.nextPc = target
  regs : ∀ q, t.x q = s.x q
  pc : t.pc = s.pc
  cpu : SameCpu s t
  rest : SameOutside s t

/-- `next_pc` becomes the target, the link register the old `next_pc`, and nothing else changes. -/
structure JumpsAndLinks (s : State) (target : Word) (r : Reg) (t : State) : Prop where
  nextPc : t.nextPc = target
  reg : RegBecomes s r s.nextPc t
  pc : t.pc = s.pc
  cpu : SameCpu s t
  rest : SameOutside s t

/-- The trap entry of R321, and nothing else: BadA takes the address for AdEL only. -/
structure Traps (s : State) (e : ExcCode) (badVaddr : Word) (t : State) : Prop where
  epc : t.cop0.epc = s.pc - 4#32
  sr : t.cop0.sr = (s.cop0.sr &&& 0xFFFFFFC0#32) ||| ((s.cop0.sr &&& 0x0F#32) <<< 2)
  cause : t.cop0.cause = (s.cop0.cause &&& 0x0000FF00#32) ||| (e.code <<< 2)
  badA : t.cop0.badA = if e = .adEL then badVaddr else s.cop0.badA
  pc : t.pc = 0x80000080#32
  nextPc : t.nextPc = 0x80000084#32
  regs : ∀ q, t.x q = s.x q
  hi : t.hi = s.hi
  lo : t.lo = s.lo
  ld : t.ld = s.ld
  rest : SameOutside s t

/-- What register `q` holds once a pending load, if any, is flushed into its register. -/
def afterFlush (s : State) (q : Reg) : Word :=
  match s.ld with
  | none => s.x q
  | some slot => if q = slot.reg ∧ q ≠ 0 then slot.value else s.x q

/-- A load installed in the slot with one instruction to wait, the older pending load flushed, and nothing else. -/
structure InstallsLoad (s : State) (r : Reg) (v : Word) (t : State) : Prop where
  slot : t.ld = some { reg := r, value := v, remaining := 1 }
  regs : ∀ q, t.x q = afterFlush s q
  hi : t.hi = s.hi
  lo : t.lo = s.lo
  pc : t.pc = s.pc
  nextPc : t.nextPc = s.nextPc
  cop0 : t.cop0 = s.cop0
  rest : SameOutside s t

/-- A physical address of RAM or the scratchpad, where a store stores (R71). -/
def writable (p : Nat) : Prop := p < 0x200000 ∨ (0x1F800000 ≤ p ∧ p < 0x1F800400)

/-- The access overlaps neither GPU port word (R82). -/
def clearOfPorts (n : Width) (a : Word) : Prop := phys a + n.bytes ≤ 0x1F801810 ∨ 0x1F801818 ≤ phys a

/-- A store of the low bytes of `v` at `a`: in RAM and the scratchpad exactly those bytes change; elsewhere no byte does;
only a word at the GP0 port reaches the GPU. -/
structure StoresBytes (s : State) (n : Width) (a v : Word) (t : State) : Prop where
  stored : writable (phys a) → ∀ i, i < n.bytes → t.byteAt (phys a + i) = v.extractLsb' (8 * i) 8
  outside : ∀ p, p < phys a ∨ phys a + n.bytes ≤ p → t.byteAt p = s.byteAt p
  dropped : ¬ writable (phys a) → ∀ p, t.byteAt p = s.byteAt p
  packet : n = .word ∧ phys a = 0x1F801810 → t.gpu = s.gpu.gp0Write v
  noPacket : ¬ (n = .word ∧ phys a = 0x1F801810) → t.gpu = s.gpu
  regs : ∀ q, t.x q = s.x q
  pc : t.pc = s.pc
  nextPc : t.nextPc = s.nextPc
  cpu : SameCpu s t
  instruction : t.instruction = s.instruction
  draws : t.draws = s.draws

/-- The signed value of the result fits in 32 bits (R150). -/
abbrev fits (z : Int) : Prop := -2147483648 ≤ z ∧ z < 2147483648

/-! ### The step -/

/-- The word the step of `s` fetches in phase 3 is `w` (R133). -/
def Fetches (s : State) (w : Word) : Prop := fetch (checkFetch (retireLoad s)) = .ok w

/-- The state at the start of phase 5 of the step of `s` that fetched `w` (R130, R134). -/
def atPhase5 (s : State) (w : Word) : State := advance w (checkFetch (retireLoad s))

/-- The exception an instruction raises on a state, by the table of R320. -/
def raises (i : Instr) (s : State) : Option ExcCode :=
  match i with
  | .syscall => some .sys
  | .brk => some .bp
  | .addi _ rs imm => if fits ((s.x rs).toInt + (imm.signExtend 32).toInt) then none else some .ovf
  | .add _ rs rt => if fits ((s.x rs).toInt + (s.x rt).toInt) then none else some .ovf
  | .sub _ rs rt => if fits ((s.x rs).toInt - (s.x rt).toInt) then none else some .ovf
  | .lh _ off base | .lhu _ off base => if (ea s base off).toNat % 2 = 0 then none else some .adEL
  | .lw _ off base => if (ea s base off).toNat % 4 = 0 then none else some .adEL
  | .sh _ off base => if (ea s base off).toNat % 2 = 0 then none else some .adES
  | .sw _ off base => if (ea s base off).toNat % 4 = 0 then none else some .adES
  | _ => none

/-- The address an AdEL of the instruction reports (R325). -/
def badAddress (i : Instr) (s : State) : Word :=
  match i with
  | .lh _ off base | .lhu _ off base | .lw _ off base => ea s base off
  | _ => 0#32

/-- The jumps and branches (R213-R225). -/
def isControl : Instr → Bool
  | .j _ | .jal _ | .jr _ | .jalr _ _ | .beq _ _ _ | .bne _ _ _ | .blez _ _ | .bgtz _ _ => true
  | .bltz _ _ | .bgez _ _ | .bltzal _ _ | .bgezal _ _ => true
  | _ => false

/-- The instructions that write COP0 (R39, R246). -/
def writesCop0 : Instr → Bool
  | .mtc0 _ _ | .rfe => true
  | _ => false

/-- The stores (R265-R269). -/
def isStore : Instr → Bool
  | .sb _ _ _ | .sh _ _ _ | .sw _ _ _ | .swl _ _ _ | .swr _ _ _ => true
  | _ => false

/-- The instruction reads SR into a general register (R242). -/
def readsStatus : Instr → Bool
  | .mfc0 _ rd => rd = 12
  | _ => false

/-- A result with SR forgotten. -/
def forgetStatus (r : Result) : Result :=
  match r with
  | .next t => .next { t with cop0 := { t.cop0 with sr := 0#32 } }
  | .fault f => .fault f
  | .refused q => .refused q

/-! ### The opcode table: the mask and the match of each row of spec/opcode_table.json -/

/-- The row of an instruction: its mask and its match. -/
def tableRow : Instr → Word × Word
  | .addi .. => (0xFC000000#32, 0x20000000#32) | .addiu .. => (0xFC000000#32, 0x24000000#32)
  | .slti .. => (0xFC000000#32, 0x28000000#32) | .sltiu .. => (0xFC000000#32, 0x2C000000#32)
  | .andi .. => (0xFC000000#32, 0x30000000#32) | .ori .. => (0xFC000000#32, 0x34000000#32)
  | .xori .. => (0xFC000000#32, 0x38000000#32) | .lui .. => (0xFC000000#32, 0x3C000000#32)
  | .sll .. => (0xFC00003F#32, 0x00000000#32) | .srl .. => (0xFC00003F#32, 0x00000002#32)
  | .sra .. => (0xFC00003F#32, 0x00000003#32) | .sllv .. => (0xFC00003F#32, 0x00000004#32)
  | .srlv .. => (0xFC00003F#32, 0x00000006#32) | .srav .. => (0xFC00003F#32, 0x00000007#32)
  | .jr .. => (0xFC00003F#32, 0x00000008#32) | .jalr .. => (0xFC00003F#32, 0x00000009#32)
  | .syscall => (0xFC00003F#32, 0x0000000C#32) | .brk => (0xFC00003F#32, 0x0000000D#32)
  | .mfhi .. => (0xFC00003F#32, 0x00000010#32) | .mthi .. => (0xFC00003F#32, 0x00000011#32)
  | .mflo .. => (0xFC00003F#32, 0x00000012#32) | .mtlo .. => (0xFC00003F#32, 0x00000013#32)
  | .mult .. => (0xFC00003F#32, 0x00000018#32) | .multu .. => (0xFC00003F#32, 0x00000019#32)
  | .div .. => (0xFC00003F#32, 0x0000001A#32) | .divu .. => (0xFC00003F#32, 0x0000001B#32)
  | .add .. => (0xFC00003F#32, 0x00000020#32) | .addu .. => (0xFC00003F#32, 0x00000021#32)
  | .sub .. => (0xFC00003F#32, 0x00000022#32) | .subu .. => (0xFC00003F#32, 0x00000023#32)
  | .and .. => (0xFC00003F#32, 0x00000024#32) | .or .. => (0xFC00003F#32, 0x00000025#32)
  | .xor .. => (0xFC00003F#32, 0x00000026#32) | .nor .. => (0xFC00003F#32, 0x00000027#32)
  | .slt .. => (0xFC00003F#32, 0x0000002A#32) | .sltu .. => (0xFC00003F#32, 0x0000002B#32)
  | .j .. => (0xFC000000#32, 0x08000000#32) | .jal .. => (0xFC000000#32, 0x0C000000#32)
  | .beq .. => (0xFC000000#32, 0x10000000#32) | .bne .. => (0xFC000000#32, 0x14000000#32)
  | .blez .. => (0xFC000000#32, 0x18000000#32) | .bgtz .. => (0xFC000000#32, 0x1C000000#32)
  | .bltz .. => (0xFC110000#32, 0x04000000#32) | .bgez .. => (0xFC110000#32, 0x04010000#32)
  | .bltzal .. => (0xFC110000#32, 0x04100000#32) | .bgezal .. => (0xFC110000#32, 0x04110000#32)
  | .mfc0 .. => (0xFFE00000#32, 0x40000000#32) | .mtc0 .. => (0xFFE00000#32, 0x40800000#32)
  | .rfe => (0xFC00003F#32, 0x40000010#32)
  | .lb .. => (0xFC000000#32, 0x80000000#32) | .lh .. => (0xFC000000#32, 0x84000000#32)
  | .lwl .. => (0xFC000000#32, 0x88000000#32) | .lw .. => (0xFC000000#32, 0x8C000000#32)
  | .lbu .. => (0xFC000000#32, 0x90000000#32) | .lhu .. => (0xFC000000#32, 0x94000000#32)
  | .lwr .. => (0xFC000000#32, 0x98000000#32) | .sb .. => (0xFC000000#32, 0xA0000000#32)
  | .sh .. => (0xFC000000#32, 0xA4000000#32) | .swl .. => (0xFC000000#32, 0xA8000000#32)
  | .sw .. => (0xFC000000#32, 0xAC000000#32) | .swr .. => (0xFC000000#32, 0xB8000000#32)

/-- The word matches the instruction's row; RFE's row only when `rs` is neither 0 nor 4 (the row's note, R107). -/
def matchesRow (w : Word) (i : Instr) : Prop :=
  w &&& (tableRow i).1 = (tableRow i).2 ∧ (i = .rfe → rsBits w ≠ 0x00#5 ∧ rsBits w ≠ 0x04#5)

/-- The illegal words, by the lists of R108. -/
def illegalWord (w : Word) : Prop :=
  let op := (opOf w).toNat
  let funct := (functOf w).toNat
  (0x11 ≤ op ∧ op ≤ 0x1F) ∨ op = 0x27 ∨ op = 0x2C ∨ op = 0x2D ∨ op = 0x2F ∨ 0x30 ≤ op ∨
  (op = 0x00 ∧ (funct = 0x01 ∨ funct = 0x05 ∨ funct = 0x0A ∨ funct = 0x0B ∨ funct = 0x0E ∨ funct = 0x0F ∨
    (0x14 ≤ funct ∧ funct ≤ 0x17) ∨ (0x1C ≤ funct ∧ funct ≤ 0x1F) ∨ funct = 0x28 ∨ funct = 0x29 ∨ 0x2C ≤ funct)) ∨
  (op = 0x10 ∧ (rsBits w).toNat ≠ 0x00 ∧ (rsBits w).toNat ≠ 0x04 ∧ funct ≠ 0x10)

/-! ### GP0 transfers -/

/-- The GPU after a list of packets. -/
def feed (g : Gpu) (packets : List Word) : Gpu := packets.foldl Gpu.gp0Write g

/-- The values GPUREAD shows after each of `n` further packets. -/
def readPairs : Nat → Gpu → List Word
  | 0, _ => []
  | n + 1, g => (g.gp0Write 0#32).gpuread :: readPairs n (g.gp0Write 0#32)

/-- The width a size word asks for: its low half less one, modulo 1024, plus one (R299). -/
def sizeWidth (size : Word) : Nat := (size.toNat % 65536 + 65535) % 1024 + 1

/-- The height a size word asks for: its high half less one, modulo 512, plus one (R299). -/
def sizeHeight (size : Word) : Nat := (size.toNat / 65536 + 65535) % 512 + 1

end Sys2Proof.Claims

open Sys2Proof Sys2Proof.Machine Sys2Proof.Claims

/-! ## Encoding -/

/-- R101: every field is a fixed slice of the word. -/
def Obligations.FieldsAreFixedSlices : Prop :=
  ∀ w : Word,
    (opOf w).toNat = w.toNat / 2 ^ 26 ∧ (rsOf w).val = w.toNat / 2 ^ 21 % 32 ∧ (rtOf w).val = w.toNat / 2 ^ 16 % 32 ∧
    (rdOf w).val = w.toNat / 2 ^ 11 % 32 ∧ shamtOf w = w.toNat / 2 ^ 6 % 32 ∧ (functOf w).toNat = w.toNat % 64 ∧
    (targetOf w).toNat = w.toNat % 2 ^ 26 ∧ (immOf w).toNat = w.toNat % 2 ^ 16

/-- Words written out from the encodings (R115, 95_test_vectors.md 2.1) decode to the instruction they stand for. -/
def Obligations.ExampleWordsDecode : Prop :=
  decode 0x3C081234#32 = .ok (.lui 8 0x1234#16) ∧ decode 0x35085678#32 = .ok (.ori 8 8 0x5678#16) ∧
  decode 0x10000002#32 = .ok (.beq 0 0 2#16) ∧ decode 0x24080001#32 = .ok (.addiu 8 0 1#16) ∧
  decode 0x8C080000#32 = .ok (.lw 8 0#16 0) ∧ decode 0x01004825#32 = .ok (.or 9 8 0) ∧
  decode 0x0100001A#32 = .ok (.div 8 0) ∧ decode 0x01095020#32 = .ok (.add 10 8 9) ∧
  decode 0x0000000C#32 = .ok .syscall ∧ decode 0x42000010#32 = .ok .rfe ∧
  decode 0x40886000#32 = .ok (.mtc0 8 12) ∧ decode 0x03E00008#32 = .ok (.jr 31)

/-- Decoding the bytes of an encoded well-formed instruction gives it back, whatever bytes follow (R100, R112). -/
def Obligations.DecodeOfEncode : Prop :=
  ∀ (i : Instr) (rest : List Byte), i.wf = true → decodeBytes (encodeBytes i ++ rest) = .ok (i, rest)

/-- The decoder follows the opcode table: a word decodes to an instruction exactly of the row it matches, the instruction is
well formed, and a word that matches no row is rejected (R104-R107, R112). Four opcode numbers are the spec's decision D15. -/
def Obligations.DecoderFollowsOpcodeTable : Prop :=
  ∀ w : Word,
    (∀ i, decode w = .ok i → matchesRow w i ∧ i.wf = true) ∧
    (∀ i, matchesRow w i → ∃ j, decode w = .ok j ∧ tableRow j = tableRow i) ∧
    ((∃ e, decode w = .error e) ↔ ∀ i, ¬ matchesRow w i)

/-- R108, R136: the rejected words are exactly the illegal ones, and an illegal word has no effect: the step goes on as on
the NOP 0x00000000. That 0x22, 0x26, 0x2A, 0x2E are legal and 0x27, 0x2C, 0x2D illegal is the spec's decision D15 (log entry
15). -/
def Obligations.IllegalWordsAreNops : Prop :=
  ∀ w : Word,
    ((∃ e, decode w = .error e) ↔ illegalWord w) ∧
    (illegalWord w → ∀ s, execWord w s = .next s ∧ execWord w s = execWord 0#32 s) ∧
    (illegalWord w → ∀ s, Fetches s w → step s = .next (clearX0 (refetch (atPhase5 s w))))

/-! ## The step -/

/-- When the bytes at an aligned program counter decode to an instruction, the step is that instruction's meaning on the
state after the load-delay retire with `pc` and `next_pc` advanced, followed by the refetch and the clearing of x[0] (R130,
R133-R135). The second clause says the same of whatever the fetch reads, at the trap vector too (D5). -/
def Obligations.StepRunsTheDecodedInstruction : Prop :=
  (∀ (s : State) (i : Instr) (b0 b1 b2 b3 : Byte), s.pc.toNat % 4 = 0 → (regionOf (phys s.pc)).isArray →
    b0 = s.byteAt (phys s.pc) → b1 = s.byteAt (phys s.pc + 1) → b2 = s.byteAt (phys s.pc + 2) →
    b3 = s.byteAt (phys s.pc + 3) → decodeBytes [b0, b1, b2, b3] = .ok (i, []) →
    step s = finishStep (exec i { retireLoad s with
      instruction := wordOfBytes b0 b1 b2 b3, pc := s.nextPc, nextPc := s.nextPc + 4#32 })) ∧
  (∀ (s : State) (i : Instr) (w : Word), Fetches s w → decode w = .ok i →
    step s = finishStep (exec i (atPhase5 s w)))

/-- R138: register 0 is zero after every step. -/
def Obligations.RegisterZeroIsZeroAfterEveryStep : Prop := ∀ s t : State, step s = .next t → t.regs[0] = 0#32

/-- R31: register 0 reads zero and discards writes, by an instruction, by a load-delay retire or by a flush. -/
def Obligations.RegisterZeroDiscardsWrites : Prop :=
  ∀ (s : State) (v : Word), s.x 0 = 0#32 ∧ (∀ q, (s.setX 0 v).x q = s.x q) ∧
    (∀ slot, s.ld = some slot → slot.reg = 0 → ∀ q, (retireLoad s).x q = s.x q ∧ (flushLoad s).x q = s.x q)

/-- R131: the load-delay retire, in its three cases; a slot that is due retires before anything else in the step, which is
therefore the step of the state with the slot already retired. -/
def Obligations.LoadDelayRetire : Prop :=
  ∀ s : State,
    (s.ld = none → retireLoad s = s) ∧
    (∀ slot, s.ld = some slot → slot.remaining = 0 →
      RegBecomes s slot.reg slot.value (retireLoad s) ∧ (retireLoad s).ld = none ∧ (retireLoad s).pc = s.pc ∧
      (retireLoad s).nextPc = s.nextPc ∧ (retireLoad s).hi = s.hi ∧ (retireLoad s).lo = s.lo ∧
      (retireLoad s).cop0 = s.cop0 ∧ SameOutside s (retireLoad s) ∧ step s = step (retireLoad s)) ∧
    (∀ slot, s.ld = some slot → slot.remaining ≠ 0 →
      retireLoad s = { s with ld := some { slot with remaining := slot.remaining - 1 } })

/-- R132: a misaligned `pc` takes AdEL before the fetch, with EPC = `pc` - 4 and BadA = `pc`, and the same step goes on with
the word at 0x80000080 (that it goes on is the spec's decision D5). -/
def Obligations.MisalignedFetchTrapsAndGoesOn : Prop :=
  ∀ s : State, s.pc.toNat % 4 ≠ 0 →
    ∃ u w, Traps (retireLoad s) .adEL s.pc u ∧ busRead u .word 0x80000080#32 = .ok w ∧
      step s = finishStep (execWord w (advance w u))

/-- R320, R246: an instruction raises exactly the exception of the table, and then takes the trap; otherwise it leaves `pc`
alone, `next_pc` too unless it is a jump or branch, and COP0 too unless it is MTC0 or RFE. (AdES leaves BadA: D21.) -/
def Obligations.ExceptionsAreExactlyTheTable : Prop :=
  ∀ (i : Instr) (s : State),
    (∀ e, raises i s = some e → Answers (exec i s) (Traps s e (badAddress i s))) ∧
    (raises i s = none → ∀ t, exec i s = .next t →
      t.pc = s.pc ∧ (isControl i = false → t.nextPc = s.nextPc) ∧ (writesCop0 i = false → t.cop0 = s.cop0))

/-- R141: a step that takes no trap leaves `pc` at the `next_pc` it started with, and `next_pc` four further unless the
instruction is a jump or branch. -/
def Obligations.ProgramCounterLaw : Prop :=
  ∀ (s t : State) (w : Word), s.pc.toNat % 4 = 0 → Fetches s w →
    (∀ i, decode w = .ok i → raises i (atPhase5 s w) = none) → step s = .next t →
    t.pc = s.nextPc ∧ ((∀ i, decode w = .ok i → isControl i = false) → t.nextPc = s.nextPc + 4#32)

/-- R210: the instruction after a jump or branch runs next, and the one after it is fetched from wherever the branch left
`next_pc`, unless the delay slot traps. -/
def Obligations.DelaySlotRunsBeforeTheTarget : Prop :=
  ∀ (s t v : State) (w : Word) (i : Instr), s.pc.toNat % 4 = 0 → Fetches s w → decode w = .ok i → isControl i = true →
    exec i (atPhase5 s w) = .next v → step s = .next t →
    t.pc = s.nextPc ∧ t.nextPc = v.nextPc ∧
    (∀ (u : State) (w' : Word), t.pc.toNat % 4 = 0 → Fetches t w' →
      (∀ k, decode w' = .ok k → raises k (atPhase5 t w') = none) → step t = .next u → u.pc = v.nextPc)

/-- R82, R143: a step answers a next state, except that one whose instruction is an aligned narrow access overlapping a GPU
port word is refused by that name (the spec's decision D8); no step faults or is refused otherwise. -/
def Obligations.EveryStepCompletesButNarrowPortAccess : Prop :=
  ∀ (s : State) (w : Word), Fetches s w →
    ((∃ i, decode w = .ok i ∧ refusedNarrow i (atPhase5 s w)) → step s = .refused .narrowGpuPort) ∧
    ((¬ ∃ i, decode w = .ok i ∧ refusedNarrow i (atPhase5 s w)) → ∃ t, step s = .next t)

/-- R137: after a step the instruction register holds the word at the new `pc`, read as the bus reads it; the case of a
misaligned `pc` in the I/O page or across two regions is a free value (D28, log entry 5). -/
def Obligations.InstructionRegisterShowsTheNextWord : Prop :=
  ∀ (s t : State) (w : Word), step s = .next t → (t.pc.toNat % 4 = 0 ∨ regionOf (phys t.pc) ≠ .io) →
    busRead t .word t.pc = .ok w → t.instruction = w

/-! ## Arithmetic and logic -/

/-- R154-R160: ADDIU, SLTI, SLTIU, ANDI, ORI, XORI, LUI: encoding, result and frame. -/
def Obligations.ImmediateResults : Prop :=
  (∀ w : Word,
    (opOf w = 0x09#6 → decode w = .ok (.addiu (rtOf w) (rsOf w) (immOf w))) ∧
    (opOf w = 0x0A#6 → decode w = .ok (.slti (rtOf w) (rsOf w) (immOf w))) ∧
    (opOf w = 0x0B#6 → decode w = .ok (.sltiu (rtOf w) (rsOf w) (immOf w))) ∧
    (opOf w = 0x0C#6 → decode w = .ok (.andi (rtOf w) (rsOf w) (immOf w))) ∧
    (opOf w = 0x0D#6 → decode w = .ok (.ori (rtOf w) (rsOf w) (immOf w))) ∧
    (opOf w = 0x0E#6 → decode w = .ok (.xori (rtOf w) (rsOf w) (immOf w))) ∧
    (opOf w = 0x0F#6 → decode w = .ok (.lui (rtOf w) (immOf w)))) ∧
  ∀ (s : State) (rt rs : Reg) (imm : Half),
    Answers (exec (.addiu rt rs imm) s) (WritesReg s rt (s.x rs + imm.signExtend 32)) ∧
    Answers (exec (.slti rt rs imm) s) (WritesReg s rt (if (s.x rs).toInt < (imm.signExtend 32).toInt then 1#32 else 0#32)) ∧
    Answers (exec (.sltiu rt rs imm) s)
      (WritesReg s rt (if (s.x rs).toNat < (imm.signExtend 32).toNat then 1#32 else 0#32)) ∧
    Answers (exec (.andi rt rs imm) s) (WritesReg s rt (s.x rs &&& (0#16 ++ imm))) ∧
    Answers (exec (.ori rt rs imm) s) (WritesReg s rt (s.x rs ||| (0#16 ++ imm))) ∧
    Answers (exec (.xori rt rs imm) s) (WritesReg s rt (s.x rs ^^^ (0#16 ++ imm))) ∧
    Answers (exec (.lui rt imm) s) (WritesReg s rt (imm ++ 0#16))

/-- R153, R177, R179: ADDI, ADD, SUB write the exact result when it fits in 32 bits and otherwise trap Ovf, writing nothing. -/
def Obligations.TrappingArithmetic : Prop :=
  (∀ w : Word,
    (opOf w = 0x08#6 → decode w = .ok (.addi (rtOf w) (rsOf w) (immOf w))) ∧
    (opOf w = 0x00#6 → functOf w = 0x20#6 → decode w = .ok (.add (rdOf w) (rsOf w) (rtOf w))) ∧
    (opOf w = 0x00#6 → functOf w = 0x22#6 → decode w = .ok (.sub (rdOf w) (rsOf w) (rtOf w)))) ∧
  ∀ (s : State) (rd rs rt : Reg) (imm : Half),
    let a := (s.x rs).toInt
    let b := (s.x rt).toInt
    (fits (a + imm.toInt) → ∃ v, v.toInt = a + imm.toInt ∧ Answers (exec (.addi rt rs imm) s) (WritesReg s rt v)) ∧
    (¬ fits (a + imm.toInt) → Answers (exec (.addi rt rs imm) s) (Traps s .ovf 0#32)) ∧
    (fits (a + b) → ∃ v, v.toInt = a + b ∧ Answers (exec (.add rd rs rt) s) (WritesReg s rd v)) ∧
    (¬ fits (a + b) → Answers (exec (.add rd rs rt) s) (Traps s .ovf 0#32)) ∧
    (fits (a - b) → ∃ v, v.toInt = a - b ∧ Answers (exec (.sub rd rs rt) s) (WritesReg s rd v)) ∧
    (¬ fits (a - b) → Answers (exec (.sub rd rs rt) s) (Traps s .ovf 0#32))

/-- R151, R152: the overflow formulas hold exactly when the mathematical result is out of range. -/
def Obligations.OverflowFormulasAreTheRange : Prop :=
  ∀ a b : Word,
    ((~~~(a ^^^ b) &&& ((a + b) ^^^ a)) &&& 0x80000000#32 ≠ 0#32 ↔ ¬ fits (a.toInt + b.toInt)) ∧
    (((a ^^^ b) &&& ((a - b) ^^^ a)) &&& 0x80000000#32 ≠ 0#32 ↔ ¬ fits (a.toInt - b.toInt)) ∧
    (ovfAdd a b = true ↔ ¬ fits (a.toInt + b.toInt)) ∧ (ovfSub a b = true ↔ ¬ fits (a.toInt - b.toInt))

/-- R171-R176: the shifts: encoding, result bit by bit, and frame. That SRLV is the logical shift is the spec's inference (R175). -/
def Obligations.ShiftResults : Prop :=
  (∀ w : Word, opOf w = 0x00#6 →
    (functOf w = 0x00#6 → decode w = .ok (.sll (rdOf w) (rtOf w) (shamtOf w))) ∧
    (functOf w = 0x02#6 → decode w = .ok (.srl (rdOf w) (rtOf w) (shamtOf w))) ∧
    (functOf w = 0x03#6 → decode w = .ok (.sra (rdOf w) (rtOf w) (shamtOf w))) ∧
    (functOf w = 0x04#6 → decode w = .ok (.sllv (rdOf w) (rtOf w) (rsOf w))) ∧
    (functOf w = 0x06#6 → decode w = .ok (.srlv (rdOf w) (rtOf w) (rsOf w))) ∧
    (functOf w = 0x07#6 → decode w = .ok (.srav (rdOf w) (rtOf w) (rsOf w)))) ∧
  ∀ (s : State) (rd rt rs : Reg) (k : Nat), k < 32 →
    let left := fun (n : Nat) (v : Word) => ∀ i, i < 32 → v.getLsbD i = (decide (n ≤ i) && (s.x rt).getLsbD (i - n))
    let right := fun (n : Nat) (v : Word) =>
      ∀ i, i < 32 → v.getLsbD i = if i + n < 32 then (s.x rt).getLsbD (i + n) else false
    let arith := fun (n : Nat) (v : Word) =>
      ∀ i, i < 32 → v.getLsbD i = if i + n < 32 then (s.x rt).getLsbD (i + n) else (s.x rt).getLsbD 31
    let amount := (s.x rs).toNat % 32
    (∃ v, left k v ∧ Answers (exec (.sll rd rt k) s) (WritesReg s rd v)) ∧
    (∃ v, right k v ∧ Answers (exec (.srl rd rt k) s) (WritesReg s rd v)) ∧
    (∃ v, arith k v ∧ Answers (exec (.sra rd rt k) s) (WritesReg s rd v)) ∧
    (∃ v, left amount v ∧ Answers (exec (.sllv rd rt rs) s) (WritesReg s rd v)) ∧
    (∃ v, right amount v ∧ Answers (exec (.srlv rd rt rs) s) (WritesReg s rd v)) ∧
    (∃ v, arith amount v ∧ Answers (exec (.srav rd rt rs) s) (WritesReg s rd v))

/-- R178, R180-R186: ADDU, SUBU, AND, OR, XOR, NOR, SLT, SLTU: encoding, result and frame. That 0x27 is NOR, and 0x24, 0x25, 0x26
AND, OR, XOR, is the spec's inference from the source's row order (R184). -/
def Obligations.RegisterResults : Prop :=
  (∀ w : Word, opOf w = 0x00#6 →
    (functOf w = 0x21#6 → decode w = .ok (.addu (rdOf w) (rsOf w) (rtOf w))) ∧
    (functOf w = 0x23#6 → decode w = .ok (.subu (rdOf w) (rsOf w) (rtOf w))) ∧
    (functOf w = 0x24#6 → decode w = .ok (.and (rdOf w) (rsOf w) (rtOf w))) ∧
    (functOf w = 0x25#6 → decode w = .ok (.or (rdOf w) (rsOf w) (rtOf w))) ∧
    (functOf w = 0x26#6 → decode w = .ok (.xor (rdOf w) (rsOf w) (rtOf w))) ∧
    (functOf w = 0x27#6 → decode w = .ok (.nor (rdOf w) (rsOf w) (rtOf w))) ∧
    (functOf w = 0x2A#6 → decode w = .ok (.slt (rdOf w) (rsOf w) (rtOf w))) ∧
    (functOf w = 0x2B#6 → decode w = .ok (.sltu (rdOf w) (rsOf w) (rtOf w)))) ∧
  ∀ (s : State) (rd rs rt : Reg),
    Answers (exec (.addu rd rs rt) s) (WritesReg s rd (s.x rs + s.x rt)) ∧
    Answers (exec (.subu rd rs rt) s) (WritesReg s rd (s.x rs - s.x rt)) ∧
    Answers (exec (.and rd rs rt) s) (WritesReg s rd (s.x rs &&& s.x rt)) ∧
    Answers (exec (.or rd rs rt) s) (WritesReg s rd (s.x rs ||| s.x rt)) ∧
    Answers (exec (.xor rd rs rt) s) (WritesReg s rd (s.x rs ^^^ s.x rt)) ∧
    Answers (exec (.nor rd rs rt) s) (WritesReg s rd (~~~(s.x rs ||| s.x rt))) ∧
    Answers (exec (.slt rd rs rt) s) (WritesReg s rd (if (s.x rs).toInt < (s.x rt).toInt then 1#32 else 0#32)) ∧
    Answers (exec (.sltu rd rs rt) s) (WritesReg s rd (if (s.x rs).toNat < (s.x rt).toNat then 1#32 else 0#32))

/-- R187-R190: the HI/LO moves: encoding, result and frame. That `hi` and `lo` are read as the last write left them, however
recent, is the spec's decision D18 (R195, log entry 16). -/
def Obligations.HiLoMoves : Prop :=
  (∀ w : Word, opOf w = 0x00#6 →
    (functOf w = 0x10#6 → decode w = .ok (.mfhi (rdOf w))) ∧ (functOf w = 0x11#6 → decode w = .ok (.mthi (rsOf w))) ∧
    (functOf w = 0x12#6 → decode w = .ok (.mflo (rdOf w))) ∧ (functOf w = 0x13#6 → decode w = .ok (.mtlo (rsOf w)))) ∧
  ∀ (s : State) (r : Reg),
    Answers (exec (.mfhi r) s) (WritesReg s r s.hi) ∧ Answers (exec (.mflo r) s) (WritesReg s r s.lo) ∧
    Answers (exec (.mthi r) s) (WritesHiLo s (fun hi lo => hi = s.x r ∧ lo = s.lo)) ∧
    Answers (exec (.mtlo r) s) (WritesHiLo s (fun hi lo => hi = s.hi ∧ lo = s.x r))

/-- R191, R192: `hi` and `lo` together are the exact 64-bit product, signed or unsigned. -/
def Obligations.MultiplyGivesTheExactProduct : Prop :=
  (∀ w : Word, opOf w = 0x00#6 →
    (functOf w = 0x18#6 → decode w = .ok (.mult (rsOf w) (rtOf w))) ∧
    (functOf w = 0x19#6 → decode w = .ok (.multu (rsOf w) (rtOf w)))) ∧
  ∀ (s : State) (rs rt : Reg),
    Answers (exec (.mult rs rt) s) (WritesHiLo s (fun hi lo => (hi ++ lo).toInt = (s.x rs).toInt * (s.x rt).toInt)) ∧
    Answers (exec (.multu rs rt) s)
      (WritesHiLo s (fun hi lo => hi.toNat * 2 ^ 32 + lo.toNat = (s.x rs).toNat * (s.x rt).toNat))

/-- R193: DIV: the quotient truncated toward zero in `lo`, the remainder in `hi`, and the two edge cases. -/
def Obligations.DivideTruncatesTowardZero : Prop :=
  (∀ w : Word, opOf w = 0x00#6 → functOf w = 0x1A#6 → decode w = .ok (.div (rsOf w) (rtOf w))) ∧
  ∀ (s : State) (rs rt : Reg),
    let n := s.x rs
    let d := s.x rt
    Answers (exec (.div rs rt) s) (WritesHiLo s (fun hi lo =>
      (d = 0#32 → hi = n ∧ lo = if n.toInt < 0 then 1#32 else 0xFFFFFFFF#32) ∧
      (n = 0x80000000#32 → d = 0xFFFFFFFF#32 → lo = 0x80000000#32 ∧ hi = 0#32) ∧
      (d ≠ 0#32 → ¬ (n = 0x80000000#32 ∧ d = 0xFFFFFFFF#32) →
        lo.toInt = n.toInt.tdiv d.toInt ∧ hi.toInt = n.toInt - n.toInt.tdiv d.toInt * d.toInt ∧
        |hi.toInt| < |d.toInt| ∧ (hi.toInt = 0 ∨ (hi.toInt < 0 ↔ n.toInt < 0)))))

/-- R194: DIVU: quotient in `lo`, remainder in `hi`; a zero divisor gives all ones and the dividend. -/
def Obligations.UnsignedDivide : Prop :=
  (∀ w : Word, opOf w = 0x00#6 → functOf w = 0x1B#6 → decode w = .ok (.divu (rsOf w) (rtOf w))) ∧
  ∀ (s : State) (rs rt : Reg),
    Answers (exec (.divu rs rt) s) (WritesHiLo s (fun hi lo =>
      (s.x rt = 0#32 → lo = 0xFFFFFFFF#32 ∧ hi = s.x rs) ∧
      (s.x rt ≠ 0#32 → lo.toNat = (s.x rs).toNat / (s.x rt).toNat ∧ hi.toNat = (s.x rs).toNat % (s.x rt).toNat)))

/-! ## Control transfer -/

/-- R213, R214, R219, R220: J, JAL, JR, JALR write `next_pc`, any value for the register jumps, and link the old `next_pc`
(R212). That JALR with `rd` = `rs` jumps to the old `x[rs]` is the spec's decision D4 (R140, log entry 16). -/
def Obligations.JumpsAndLinksWriteNextPc : Prop :=
  (∀ w : Word,
    (opOf w = 0x02#6 → decode w = .ok (.j (targetOf w))) ∧ (opOf w = 0x03#6 → decode w = .ok (.jal (targetOf w))) ∧
    (opOf w = 0x00#6 → functOf w = 0x08#6 → decode w = .ok (.jr (rsOf w))) ∧
    (opOf w = 0x00#6 → functOf w = 0x09#6 → decode w = .ok (.jalr (rdOf w) (rsOf w)))) ∧
  ∀ (s : State) (rd rs : Reg) (target : BitVec 26),
    Answers (exec (.j target) s) (JumpsTo s (s.pc.extractLsb' 28 4 ++ target ++ 0#2)) ∧
    Answers (exec (.jal target) s) (JumpsAndLinks s (s.pc.extractLsb' 28 4 ++ target ++ 0#2) 31) ∧
    Answers (exec (.jr rs) s) (JumpsTo s (s.x rs)) ∧
    Answers (exec (.jalr rd rs) s) (JumpsAndLinks s (s.x rs) rd)

/-- R215-R218, R211: BEQ, BNE, BLEZ, BGTZ; their conditions are the spec's decision D14 (log entry 15), the target the delay slot
plus four times the signed offset its decision D13 (R103, log entry 16). -/
def Obligations.ConditionalBranches : Prop :=
  (∀ w : Word,
    (opOf w = 0x04#6 → decode w = .ok (.beq (rsOf w) (rtOf w) (immOf w))) ∧
    (opOf w = 0x05#6 → decode w = .ok (.bne (rsOf w) (rtOf w) (immOf w))) ∧
    (opOf w = 0x06#6 → decode w = .ok (.blez (rsOf w) (immOf w))) ∧
    (opOf w = 0x07#6 → decode w = .ok (.bgtz (rsOf w) (immOf w)))) ∧
  ∀ (s : State) (rs rt : Reg) (off : Half),
    let target := s.pc + BitVec.ofInt 32 (4 * off.toInt)
    Answers (exec (.beq rs rt off) s) (JumpsTo s (if s.x rs = s.x rt then target else s.nextPc)) ∧
    Answers (exec (.bne rs rt off) s) (JumpsTo s (if s.x rs ≠ s.x rt then target else s.nextPc)) ∧
    Answers (exec (.blez rs off) s) (JumpsTo s (if (s.x rs).toInt ≤ 0 then target else s.nextPc)) ∧
    Answers (exec (.bgtz rs off) s) (JumpsTo s (if 0 < (s.x rs).toInt then target else s.nextPc))

/-- R222-R225: the BCOND group: bits 20 and 16 alone decode, the link is written whether or not the branch is taken, and the
condition tests the register as it was: with `rs` = 31 the old `x[31]`, the spec's decision D4 (R140). The target is its
decision D13 (R103, R211; both log entry 16). -/
def Obligations.BcondBranchesAndLinks : Prop :=
  (∀ w : Word, opOf w = 0x01#6 →
    (w.getLsbD 20 = false → w.getLsbD 16 = false → decode w = .ok (.bltz (rsOf w) (immOf w))) ∧
    (w.getLsbD 20 = false → w.getLsbD 16 = true → decode w = .ok (.bgez (rsOf w) (immOf w))) ∧
    (w.getLsbD 20 = true → w.getLsbD 16 = false → decode w = .ok (.bltzal (rsOf w) (immOf w))) ∧
    (w.getLsbD 20 = true → w.getLsbD 16 = true → decode w = .ok (.bgezal (rsOf w) (immOf w)))) ∧
  ∀ (s : State) (rs : Reg) (off : Half),
    let target := s.pc + BitVec.ofInt 32 (4 * off.toInt)
    let ltz := if (s.x rs).toInt < 0 then target else s.nextPc
    let gez := if 0 ≤ (s.x rs).toInt then target else s.nextPc
    Answers (exec (.bltz rs off) s) (JumpsTo s ltz) ∧ Answers (exec (.bgez rs off) s) (JumpsTo s gez) ∧
    Answers (exec (.bltzal rs off) s) (JumpsAndLinks s ltz 31) ∧ Answers (exec (.bgezal rs off) s) (JumpsAndLinks s gez 31)

/-! ## System instructions and exceptions -/

/-- R240, R241: SYSCALL and BREAK trap always, whatever their code field, and leave BadA alone. -/
def Obligations.SyscallAndBreakTrap : Prop :=
  (∀ w : Word, opOf w = 0x00#6 →
    (functOf w = 0x0C#6 → decode w = .ok .syscall) ∧ (functOf w = 0x0D#6 → decode w = .ok .brk)) ∧
  ∀ s : State, Answers (exec .syscall s) (Traps s .sys 0#32) ∧ Answers (exec .brk s) (Traps s .bp 0#32)

/-- R320-R326: the trap entry, for every exception; the codes are 4, 5, 8, 9, 12. That AdES leaves BadA is the spec's decision
D21 (R325), EPC = `pc` - 4 whatever the delay slot its decision D31 (R322; both log entry 16). -/
def Obligations.TrapEntry : Prop :=
  (ExcCode.adEL.code = 4#32 ∧ ExcCode.adES.code = 5#32 ∧ ExcCode.sys.code = 8#32 ∧ ExcCode.bp.code = 9#32 ∧
    ExcCode.ovf.code = 12#32) ∧
  ∀ (e : ExcCode) (a : Word) (s : State), Traps s e a (takeException e a s) ∧
    (takeException e a s).cop0.cause.extractLsb' 2 5 = e.code.extractLsb' 0 5

/-- R242, R243: MFC0 and MTC0 for every index: the four with storage move the register, a read of another gives some value,
which is free (D6), and a write to another is discarded. The read is immediate (D19). -/
def Obligations.Cop0Moves : Prop :=
  (∀ w : Word, opOf w = 0x10#6 →
    (rsBits w = 0x00#5 → decode w = .ok (.mfc0 (rtOf w) (rdOf w))) ∧
    (rsBits w = 0x04#5 → decode w = .ok (.mtc0 (rtOf w) (rdOf w)))) ∧
  ∀ (s : State) (rt rd : Reg),
    Answers (exec (.mfc0 rt 8) s) (WritesReg s rt s.cop0.badA) ∧
    Answers (exec (.mfc0 rt 12) s) (WritesReg s rt s.cop0.sr) ∧
    Answers (exec (.mfc0 rt 13) s) (WritesReg s rt s.cop0.cause) ∧
    Answers (exec (.mfc0 rt 14) s) (WritesReg s rt s.cop0.epc) ∧
    (rd ≠ 8 → rd ≠ 12 → rd ≠ 13 → rd ≠ 14 →
      Answers (exec (.mfc0 rt rd) s) (fun t => ∃ v, RegBecomes s rt v t ∧ t.pc = s.pc ∧ t.nextPc = s.nextPc ∧
        SameCpu s t ∧ t.gpu = s.gpu ∧ t.instruction = s.instruction ∧ ∀ p, t.byteAt p = s.byteAt p)) ∧
    Answers (exec (.mtc0 rt rd) s) (fun t =>
      t.cop0.badA = (if rd = 8 then s.x rt else s.cop0.badA) ∧ t.cop0.sr = (if rd = 12 then s.x rt else s.cop0.sr) ∧
      t.cop0.cause = (if rd = 13 then s.x rt else s.cop0.cause) ∧ t.cop0.epc = (if rd = 14 then s.x rt else s.cop0.epc) ∧
      (∀ q, t.x q = s.x q) ∧ t.pc = s.pc ∧ t.nextPc = s.nextPc ∧ t.hi = s.hi ∧ t.lo = s.lo ∧ t.ld = s.ld ∧ SameOutside s t)

/-- R244: RFE, of every `rs` but 0 and 4, pops the status stack bit by bit, changes nothing else and does not jump. -/
def Obligations.RfePopsTheStatusStack : Prop :=
  (∀ w : Word, opOf w = 0x10#6 → rsBits w ≠ 0x00#5 → rsBits w ≠ 0x04#5 → functOf w = 0x10#6 → decode w = .ok .rfe) ∧
  encode .rfe = 0x42000010#32 ∧
  ∀ s : State, Answers (exec .rfe s) (fun t =>
    t.cop0.sr = (s.cop0.sr &&& 0xFFFFFFF0#32) ||| ((s.cop0.sr &&& 0x3C#32) >>> 2) ∧
    t.cop0.sr.extractLsb' 0 2 = s.cop0.sr.extractLsb' 2 2 ∧ t.cop0.sr.extractLsb' 2 2 = s.cop0.sr.extractLsb' 4 2 ∧
    t.cop0.sr.extractLsb' 4 28 = s.cop0.sr.extractLsb' 4 28 ∧
    t.cop0.badA = s.cop0.badA ∧ t.cop0.cause = s.cop0.cause ∧ t.cop0.epc = s.cop0.epc ∧
    (∀ q, t.x q = s.x q) ∧ t.pc = s.pc ∧ t.nextPc = s.nextPc ∧ t.hi = s.hi ∧ t.lo = s.lo ∧ t.ld = s.ld ∧ SameOutside s t)

/-- R333: a trap entry followed by one RFE leaves SR bits 31:6 and 3:0 as before the trap and copies bits 3:2 to 5:4. -/
def Obligations.TrapThenRfe : Prop :=
  ∀ (e : ExcCode) (a : Word) (s : State), Answers (exec .rfe (takeException e a s)) (fun t =>
    t.cop0.sr = (s.cop0.sr &&& 0xFFFFFFC0#32) ||| ((s.cop0.sr &&& 0x0C#32) <<< 2) ||| (s.cop0.sr &&& 0x0F#32) ∧
    t.cop0.epc = s.pc - 4#32)

/-- R335: no instruction checks the mode: two states that differ only in SR, in bits other than IsC, give the same result but
for SR, whatever the instruction, unless it moves SR to a register. (That nothing checks is the spec's decision D17.) -/
def Obligations.StatusBitsNeverMatter : Prop :=
  ∀ (i : Instr) (s : State) (sr : Word), readsStatus i = false → sr.getLsbD 16 = s.cop0.sr.getLsbD 16 →
    forgetStatus (exec i { s with cop0 := { s.cop0 with sr := sr } }) = forgetStatus (exec i s)

/-! ## Loads and stores -/

/-- R258-R262: LB, LBU, LH, LHU, LW on an aligned address clear of the GPU ports (LW at any aligned address): the extended
value goes into the load-delay slot. The slot's count and the flush of an older load are the spec's decisions D2 and D3. -/
def Obligations.AlignedLoads : Prop :=
  (∀ w : Word,
    (opOf w = 0x20#6 → decode w = .ok (.lb (rtOf w) (immOf w) (rsOf w))) ∧
    (opOf w = 0x21#6 → decode w = .ok (.lh (rtOf w) (immOf w) (rsOf w))) ∧
    (opOf w = 0x23#6 → decode w = .ok (.lw (rtOf w) (immOf w) (rsOf w))) ∧
    (opOf w = 0x24#6 → decode w = .ok (.lbu (rtOf w) (immOf w) (rsOf w))) ∧
    (opOf w = 0x25#6 → decode w = .ok (.lhu (rtOf w) (immOf w) (rsOf w)))) ∧
  ∀ (s : State) (rt base : Reg) (off : Half),
    let a := s.x base + off.signExtend 32
    (clearOfPorts .byte a → ∃ b : Byte, busRead s .byte a = .ok (b.setWidth 32) ∧
      Answers (exec (.lb rt off base) s) (InstallsLoad s rt (b.signExtend 32)) ∧
      Answers (exec (.lbu rt off base) s) (InstallsLoad s rt (b.setWidth 32))) ∧
    (a.toNat % 2 = 0 → clearOfPorts .half a → ∃ h : Half, busRead s .half a = .ok (h.setWidth 32) ∧
      Answers (exec (.lh rt off base) s) (InstallsLoad s rt (h.signExtend 32)) ∧
      Answers (exec (.lhu rt off base) s) (InstallsLoad s rt (h.setWidth 32))) ∧
    (a.toNat % 4 = 0 → ∃ v : Word, busRead s .word a = .ok v ∧ Answers (exec (.lw rt off base) s) (InstallsLoad s rt v))

/-- R86, R270: a misaligned LH, LHU or LW takes AdEL with BadA the address, a misaligned SH or SW takes AdES and leaves BadA
alone (D21), SW whether or not IsC is set (D24); no byte is read or written and no slot installed. -/
def Obligations.MisalignedAccessTraps : Prop :=
  ∀ (s : State) (rt base : Reg) (off : Half),
    let a := s.x base + off.signExtend 32
    (a.toNat % 2 ≠ 0 →
      Answers (exec (.lh rt off base) s) (Traps s .adEL a) ∧ Answers (exec (.lhu rt off base) s) (Traps s .adEL a) ∧
      Answers (exec (.sh rt off base) s) (Traps s .adES a)) ∧
    (a.toNat % 4 ≠ 0 →
      Answers (exec (.lw rt off base) s) (Traps s .adEL a) ∧ Answers (exec (.sw rt off base) s) (Traps s .adES a))

/-- R82, D8: an aligned 8- or 16-bit load or store that overlaps a GPU port word is refused by name. -/
def Obligations.NarrowPortAccessIsRefused : Prop :=
  ∀ (s : State) (rt base : Reg) (off : Half),
    let a := s.x base + off.signExtend 32
    (¬ clearOfPorts .byte a →
      exec (.lb rt off base) s = .refused .narrowGpuPort ∧ exec (.lbu rt off base) s = .refused .narrowGpuPort ∧
      exec (.sb rt off base) s = .refused .narrowGpuPort) ∧
    (a.toNat % 2 = 0 → ¬ clearOfPorts .half a →
      exec (.lh rt off base) s = .refused .narrowGpuPort ∧ exec (.lhu rt off base) s = .refused .narrowGpuPort ∧
      exec (.sh rt off base) s = .refused .narrowGpuPort)

/-- R263, R264: LWL and LWR, byte by byte: with `k` the low two bits of the address and `w` the aligned word, LWL puts bytes
`0..k` of `w` into the top of the old register, LWR bytes `k..3` into the bottom. The old value is the register file's (D30);
the slot is D2 and D3, the opcodes D15. -/
def Obligations.UnalignedLoadsMergeBytes : Prop :=
  (∀ w : Word,
    (opOf w = 0x22#6 → decode w = .ok (.lwl (rtOf w) (immOf w) (rsOf w))) ∧
    (opOf w = 0x26#6 → decode w = .ok (.lwr (rtOf w) (immOf w) (rsOf w)))) ∧
  ∀ (s : State) (rt base : Reg) (off : Half),
    let a := s.x base + off.signExtend 32
    let k := a.toNat % 4
    ∃ w l r : Word, busRead s .word (alignedWord a) = .ok w ∧
      (∀ i, i < 4 → byteOfWord l i = if 3 - k ≤ i then byteOfWord w (i - (3 - k)) else byteOfWord (s.x rt) i) ∧
      (∀ i, i < 4 → byteOfWord r i = if i ≤ 3 - k then byteOfWord w (i + k) else byteOfWord (s.x rt) i) ∧
      Answers (exec (.lwl rt off base) s) (InstallsLoad s rt l) ∧
      Answers (exec (.lwr rt off base) s) (InstallsLoad s rt r)

/-- R265, R266: SB and SH at an aligned address clear of the GPU ports store the low byte or halfword at the effective address
and change no other byte. IsC does not suppress them (D24). -/
def Obligations.NarrowStores : Prop :=
  (∀ w : Word,
    (opOf w = 0x28#6 → decode w = .ok (.sb (rtOf w) (immOf w) (rsOf w))) ∧
    (opOf w = 0x29#6 → decode w = .ok (.sh (rtOf w) (immOf w) (rsOf w)))) ∧
  ∀ (s : State) (rt base : Reg) (off : Half), Memory.wf s.mem →
    (clearOfPorts .byte (ea s base off) →
      Answers (exec (.sb rt off base) s) (StoresBytes s .byte (ea s base off) (s.x rt))) ∧
    ((ea s base off).toNat % 2 = 0 → clearOfPorts .half (ea s base off) →
      Answers (exec (.sh rt off base) s) (StoresBytes s .half (ea s base off) (s.x rt)))

/-- R267: an aligned SW stores the word at the effective address and changes no other byte; with IsC set it changes nothing
at all, no GP0 packet either. -/
def Obligations.StoreWordAndCacheIsolation : Prop :=
  (∀ w : Word, opOf w = 0x2B#6 → decode w = .ok (.sw (rtOf w) (immOf w) (rsOf w))) ∧
  ∀ (s : State) (rt base : Reg) (off : Half), Memory.wf s.mem → (ea s base off).toNat % 4 = 0 →
    (s.cop0.sr.getLsbD 16 = false →
      Answers (exec (.sw rt off base) s) (StoresBytes s .word (ea s base off) (s.x rt))) ∧
    (s.cop0.sr.getLsbD 16 = true → exec (.sw rt off base) s = .next s)

/-- R268, R269: SWL and SWR, byte by byte: SWL puts the top `k + 1` bytes of the register into bytes `0..k` of the aligned
word, SWR the bottom `4 - k` bytes into bytes `k..3`; the rest of the word is written back as read, whatever IsC holds (D24).
The opcodes are the spec's decision D15. -/
def Obligations.UnalignedStoresMergeBytes : Prop :=
  (∀ w : Word,
    (opOf w = 0x2A#6 → decode w = .ok (.swl (rtOf w) (immOf w) (rsOf w))) ∧
    (opOf w = 0x2E#6 → decode w = .ok (.swr (rtOf w) (immOf w) (rsOf w)))) ∧
  ∀ (s : State) (rt base : Reg) (off : Half), Memory.wf s.mem →
    let a := alignedWord (ea s base off)
    let k := (ea s base off).toNat % 4
    ∃ m l r : Word, busRead s .word a = .ok m ∧
      (∀ j, j < 4 → byteOfWord l j = if j ≤ k then byteOfWord (s.x rt) (3 - k + j) else byteOfWord m j) ∧
      (∀ j, j < 4 → byteOfWord r j = if k ≤ j then byteOfWord (s.x rt) (j - k) else byteOfWord m j) ∧
      Answers (exec (.swl rt off base) s) (StoresBytes s .word a l) ∧
      Answers (exec (.swr rt off base) s) (StoresBytes s .word a r)

/-- R256: after a load, the next instruction still reads the old value of its register, and the one after that reads the
loaded value, whatever the instruction between them does: a load of its own, a write to the register, a trap (R257, R271; the
count and the flush are the spec's decisions D2 and D3). -/
def Obligations.LoadedValueArrivesAfterOneInstruction : Prop :=
  ∀ (s t : State) (w w' : Word) (r : Reg) (v : Word), r ≠ 0 → s.ld = some { reg := r, value := v, remaining := 1 } →
    Fetches s w → (atPhase5 s w).x r = s.x r ∧ (step s = .next t → Fetches t w' → (atPhase5 t w').x r = v)

/-- R272, R98: in RAM and the scratchpad a store followed by the width-matched load at the same address gives back the stored
low bits, extended as the load says, in the slot (D2). -/
def Obligations.StoreThenLoadGivesTheValueBack : Prop :=
  ∀ (s t : State) (rt rt' base : Reg) (off : Half), Memory.wf s.mem → writable (phys (ea s base off)) →
    (exec (.sb rt off base) s = .next t →
      Answers (exec (.lb rt' off base) t) (fun u => u.ld = some ⟨rt', ((s.x rt).setWidth 8).signExtend 32, 1⟩) ∧
      Answers (exec (.lbu rt' off base) t) (fun u => u.ld = some ⟨rt', ((s.x rt).setWidth 8).setWidth 32, 1⟩)) ∧
    ((ea s base off).toNat % 2 = 0 → exec (.sh rt off base) s = .next t →
      Answers (exec (.lh rt' off base) t) (fun u => u.ld = some ⟨rt', ((s.x rt).setWidth 16).signExtend 32, 1⟩) ∧
      Answers (exec (.lhu rt' off base) t) (fun u => u.ld = some ⟨rt', ((s.x rt).setWidth 16).setWidth 32, 1⟩)) ∧
    ((ea s base off).toNat % 4 = 0 → s.cop0.sr.getLsbD 16 = false → exec (.sw rt off base) s = .next t →
      Answers (exec (.lw rt' off base) t) (fun u => u.ld = some ⟨rt', s.x rt, 1⟩))

/-- R273: LWR at an unaligned address and LWL three bytes further, in either order, load the little-endian word of the four
bytes at the address (C3), when the second one finds in its register what the first one loaded, as it does one instruction
later (R271); SWR at the address and SWL three bytes further store the register to those four bytes, little-endian, and to no
others. The load-delay slot and the register the merge reads are the spec's decisions D2 and D30, the opcodes D15. -/
def Obligations.UnalignedPairsMoveTheWord : Prop :=
  (∀ (s s' : State) (rt base base' : Reg) (off off' : Half) (a : Word), a.toNat % 4 ≠ 0 →
    (regionOf (phys a)).isArray → (regionOf (phys a + 3)).isArray → (∀ p, s'.byteAt p = s.byteAt p) →
    let word := wordOfBytes (s.byteAt (phys a)) (s.byteAt (phys a + 1)) (s.byteAt (phys a + 2)) (s.byteAt (phys a + 3))
    (ea s base off = a → ea s' base' off' = a + 3#32 →
      Answers (exec (.lwr rt off base) s) (fun t => ∃ v, t.ld = some ⟨rt, v, 1⟩ ∧
        (s'.x rt = v → Answers (exec (.lwl rt off' base') s') (fun u => u.ld = some ⟨rt, word, 1⟩)))) ∧
    (ea s base off = a + 3#32 → ea s' base' off' = a →
      Answers (exec (.lwl rt off base) s) (fun t => ∃ v, t.ld = some ⟨rt, v, 1⟩ ∧
        (s'.x rt = v → Answers (exec (.lwr rt off' base') s') (fun u => u.ld = some ⟨rt, word, 1⟩))))) ∧
  (∀ (s t u : State) (rt base : Reg) (off off' : Half), Memory.wf s.mem →
    let a := ea s base off
    a.toNat % 4 ≠ 0 → ea s base off' = a + 3#32 → writable (phys a) → writable (phys a + 3) →
    exec (.swr rt off base) s = .next t → exec (.swl rt off' base) t = .next u →
    (∀ i, i < 4 → u.byteAt (phys a + i) = byteOfWord (s.x rt) i) ∧
    ∀ p, p < phys a ∨ phys a + 4 ≤ p → u.byteAt p = s.byteAt p)

/-! ## The bus -/

/-- R70, R71: an access depends on the low 29 bits of its address only, and the physical address selects the region by the
table. -/
def Obligations.AddressFoldAndRegionMap : Prop :=
  (∀ (s : State) (n : Width) (a b v : Word), a.toNat % 2 ^ 29 = b.toNat % 2 ^ 29 →
    phys a = a.toNat % 2 ^ 29 ∧ busRead s n a = busRead s n b ∧ busWrite s n a v = busWrite s n b v) ∧
  (∀ p : Nat, p < 2 ^ 29 →
    (regionOf p = .ram ↔ p ≤ 0x001FFFFF) ∧
    (regionOf p = .scratchpad ↔ 0x1F800000 ≤ p ∧ p ≤ 0x1F8003FF) ∧
    (regionOf p = .io ↔ 0x1F801000 ≤ p ∧ p ≤ 0x1F801FFF) ∧
    (regionOf p = .bios ↔ 0x1FC00000 ≤ p ∧ p ≤ 0x1FC7FFFF) ∧
    (regionOf p = .unmapped ↔ (0x00200000 ≤ p ∧ p ≤ 0x1F7FFFFF) ∨ (0x1F800400 ≤ p ∧ p ≤ 0x1F800FFF) ∨
      (0x1F802000 ≤ p ∧ p ≤ 0x1FBFFFFF) ∨ (0x1FC80000 ≤ p ∧ p ≤ 0x1FFFFFFF)))

/-- R74-R77: an access inside one region: RAM, scratchpad and BIOS read little-endian at any alignment, unmapped space reads
0; RAM and scratchpad writes store exactly their bytes, BIOS and unmapped writes change nothing. -/
def Obligations.BusReadsAndWritesBytes : Prop :=
  ∀ (s : State) (n : Width) (a v : Word), Memory.wf s.mem → regionOf (phys (a + BitVec.ofNat 32 (n.bytes - 1))) = regionOf (phys a) →
    ((regionOf (phys a)).isArray → ∃ r, busRead s n a = .ok r ∧
      r.toNat = ∑ i ∈ Finset.range n.bytes, (s.byteAt (phys a + i)).toNat * 256 ^ i) ∧
    (regionOf (phys a) = .unmapped → busRead s n a = .ok 0#32 ∧ busWrite s n a v = .ok s) ∧
    (regionOf (phys a) = .bios → busWrite s n a v = .ok s) ∧
    (regionOf (phys a) = .ram ∨ regionOf (phys a) = .scratchpad → ∃ t, busWrite s n a v = .ok t ∧ StoresBytes s n a v t)

/-- R78-R83: the I/O page: the two ports as words, the refusal of narrower accesses to them (D8), and 0 or nothing for
everything else (D7); a read of GPUREAD has no effect (D9). -/
def Obligations.IoPage : Prop :=
  ∀ (s : State) (n : Width) (a v : Word),
    (phys a = 0x1F801810 → busRead s .word a = .ok s.gpu.gpuread ∧
      busWrite s .word a v = .ok { s with gpu := s.gpu.gp0Write v }) ∧
    (phys a = 0x1F801814 → busRead s .word a = .ok 0x1FF00000#32 ∧ busWrite s .word a v = .ok s) ∧
    (misaligned n a = false → n ≠ .word → ¬ clearOfPorts n a →
      busRead s n a = .error .narrowGpuPort ∧ busWrite s n a v = .error .narrowGpuPort) ∧
    (misaligned n a = false → regionOf (phys a) = .io → clearOfPorts n a →
      busRead s n a = .ok 0#32 ∧ busWrite s n a v = .ok s)

/-- R46, R76: no step changes a byte of the BIOS. -/
def Obligations.BiosIsImmutable : Prop :=
  ∀ s t : State, Memory.wf s.mem → step s = .next t → ∀ p, regionOf p = .bios → t.byteAt p = s.byteAt p

/-- R90: an instruction that is no store changes no byte of memory and nothing of the GPU; and whatever the instruction, the
GPU changes by at most one packet, and then no byte of memory changes. -/
def Obligations.OnlyStoresTouchMemoryAndGpu : Prop :=
  ∀ (i : Instr) (s t : State), exec i s = .next t →
    (isStore i = false → (∀ p, t.byteAt p = s.byteAt p) ∧ t.gpu = s.gpu) ∧
    (t.gpu = s.gpu ∨ ∃ v, t.gpu = s.gpu.gp0Write v ∧ ∀ p, t.byteAt p = s.byteAt p)

/-! ## The GPU -/

/-- R291-R295: in AwaitingCommand the top byte selects the command; an unknown one changes nothing. -/
def Obligations.CommandByteSelectsTheCommand : Prop :=
  ∀ (g : Gpu) (w : Word), g.gp0State = .awaitingCommand →
    (w.toNat / 2 ^ 24 = 0x68 → g.gp0Write w = { g with
      cmd := { kind := .rectangle, params := [w &&& 0x00FFFFFF#32], remainingWords := 1 }, gp0State := .receivingParameters }) ∧
    (w.toNat / 2 ^ 24 = 0xA0 → g.gp0Write w = { g with
      cmd := { kind := .cpuToVram, params := [], remainingWords := 2 }, gp0State := .receivingParameters }) ∧
    (w.toNat / 2 ^ 24 = 0xC0 → g.gp0Write w = { g with
      cmd := { kind := .vramToCpu, params := [], remainingWords := 2 }, gp0State := .receivingParameters }) ∧
    (w.toNat / 2 ^ 24 ≠ 0x68 → w.toNat / 2 ^ 24 ≠ 0xA0 → w.toNat / 2 ^ 24 ≠ 0xC0 → g.gp0Write w = g)

/-- R296, R297, R298: the parameter of 0x68 draws one pixel, red in bits 4:0, green in 9:5, blue in 14:10, each channel
divided by 8, at the position modulo 1024 and 512 (D10, D26), and changes no other pixel. -/
def Obligations.RectangleDrawsOnePixel : Prop :=
  ∀ (g : Gpu) (col pos : Word), g.gp0State = .receivingParameters →
    g.cmd = { kind := .rectangle, params := [col], remainingWords := 1 } → Vram.wf g.vram →
    let t := g.gp0Write pos
    let colour := col.toNat % 256 / 8 + col.toNat / 256 % 256 / 8 * 32 + col.toNat / 65536 % 256 / 8 * 1024
    t.gp0State = .awaitingCommand ∧ t.cmd.remainingWords = 0 ∧ t.gpuread = g.gpuread ∧ t.cursor = g.cursor ∧
    ∀ i, Cells.read t.vram i =
      if i = pos.toNat / 65536 % 512 * 1024 + pos.toNat % 1024 then BitVec.ofNat 16 colour else Cells.read g.vram i

/-- R296, R299: the two header words of 0xA0 and 0xC0: the first is kept, the second starts the transfer at the position
modulo 1024 and 512 with the wrapped size; `(w*h)/2` words follow, none for a 1×1 transfer (D10, D11). -/
def Obligations.TransferHeader : Prop :=
  ∀ (g : Gpu) (kind : CmdKind) (pos size : Word), kind = .cpuToVram ∨ kind = .vramToCpu → g.gp0State = .receivingParameters →
    (g.cmd = { kind := kind, params := [], remainingWords := 2 } →
      g.gp0Write pos = { g with cmd := { kind := kind, params := [pos], remainingWords := 1 } }) ∧
    (g.cmd = { kind := kind, params := [pos], remainingWords := 1 } →
      let x0 := pos.toNat % 1024
      let words := sizeWidth size * sizeHeight size / 2
      g.gp0Write size = { g with
        cmd := { kind := kind, params := [pos, size], remainingWords := words }
        cursor := { x := x0, y := pos.toNat / 65536 % 512, xStart := x0, xMax := x0 + sizeWidth size }
        gp0State := if words = 0 then .awaitingCommand
                    else if kind = .cpuToVram then .receivingData else .transferringData })

/-- R300, R301, R302: a data word of 0xA0 writes its low half, then its high half, at the cursor, which wraps to the next row
at `x_max`; a packet of 0xC0 moves the next two pixels into `gpuread`, the first one low (D9); the last one ends the phase. The
VRAM index, row modulo 512 and column modulo 1024, is the spec's decision D10 (R299, R302; D9 and D10 are log entry 17); that a
count of 0, which no run reaches, stays 0 is the model's choice (log entry 14). -/
def Obligations.TransferDataPhases : Prop :=
  ∀ (g : Gpu) (w : Word), Vram.wf g.vram →
    let index := fun (c : Cursor) => c.y % 512 * 1024 + c.x % 1024
    let next := fun (c : Cursor) =>
      if c.x + 1 = c.xMax then { c with x := c.xStart, y := c.y + 1 } else { c with x := c.x + 1 }
    let c := g.cursor
    let t := g.gp0Write w
    (g.gp0State = .receivingData ∨ g.gp0State = .transferringData →
      t.cursor = next (next c) ∧ t.cmd = { g.cmd with remainingWords := g.cmd.remainingWords - 1 } ∧
      t.gp0State = if g.cmd.remainingWords - 1 = 0 then .awaitingCommand else g.gp0State) ∧
    (g.gp0State = .receivingData → t.gpuread = g.gpuread ∧ ∀ i, Cells.read t.vram i =
      if i = index (next c) then w.extractLsb' 16 16 else if i = index c then w.extractLsb' 0 16 else Cells.read g.vram i) ∧
    (g.gp0State = .transferringData → t.vram = g.vram ∧
      t.gpuread = Cells.read g.vram (index (next c)) ++ Cells.read g.vram (index c))

/-- R303: every packet keeps the port's invariant: no words are expected exactly in AwaitingCommand, and each other state
expects words of its own command. -/
def Obligations.PacketsKeepThePortInvariant : Prop :=
  ∀ (g : Gpu) (w : Word), g.portInv →
    (g.gp0Write w).portInv ∧ ((g.gp0Write w).cmd.remainingWords = 0 ↔ (g.gp0Write w).gp0State = .awaitingCommand)

/-- R305: a 0xA0 transfer followed by a 0xC0 transfer of the same rectangle, read pair by pair, returns the data words in
order, for every position and size (wrapping, odd sizes and the reading protocol are the spec's decisions D9, D10, D11). -/
def Obligations.TransferRoundTrip : Prop :=
  ∀ (g : Gpu) (c1 c2 pos size : Word) (data : List Word), g.gp0State = .awaitingCommand → Vram.wf g.vram →
    c1.toNat / 2 ^ 24 = 0xA0 → c2.toNat / 2 ^ 24 = 0xC0 → data.length = sizeWidth size * sizeHeight size / 2 →
    let written := feed g ([c1, pos, size] ++ data)
    written.gp0State = .awaitingCommand ∧
    readPairs data.length (feed written [c2, pos, size]) = data

/-! ## Invariants, reset and the host -/

/-- The invariant of the state holds after every step from a state that has it (R31, R38, R46, R47, R54, R303). -/
def Obligations.EveryStepKeepsTheInvariant : Prop := ∀ s t : State, s.Inv → step s = .next t → t.Inv

/-- The invariant holds at reset (R50-R53; the command record is the spec's decision D25, log entry 13). -/
def Obligations.InvariantHoldsAtReset : Prop := State.reset.Inv

/-- R50-R53: what reset leaves: the counters at the reset vector, every other register 0, RAM, scratchpad and VRAM 0, GP0
awaiting a command. The GPU's command record and cursor are the spec's decision D25 (log entry 13), `gpuread` is an open value,
D12 (log entry 1). -/
def Obligations.ResetValues : Prop :=
  (∀ r, State.reset.x r = 0#32) ∧ State.reset.hi = 0#32 ∧ State.reset.lo = 0#32 ∧ State.reset.pc = 0xBFC00000#32 ∧
  State.reset.nextPc = 0xBFC00004#32 ∧ State.reset.ld = none ∧
  busRead State.reset .word 0xBFC00000#32 = .ok State.reset.instruction ∧
  State.reset.cop0.badA = 0#32 ∧ State.reset.cop0.sr = 0#32 ∧ State.reset.cop0.cause = 0#32 ∧ State.reset.cop0.epc = 0#32 ∧
  (∀ p, regionOf p = .ram ∨ regionOf p = .scratchpad → State.reset.byteAt p = 0#8) ∧
  (∀ i, State.reset.pixelAt i = 0#16) ∧ State.reset.gpu.gp0State = .awaitingCommand ∧
  State.reset.gpu.cmd = { kind := .none, params := [], remainingWords := 0 } ∧
  State.reset.gpu.cursor = { x := 0, y := 0, xStart := 0, xMax := 0 } ∧ State.reset.gpu.gpuread = Config.gpureadInit

/-- R360, R361: the host's reset of any state gives every piece of state its reset value and keeps the BIOS alone, whose first
word it prefetches; GPUREAD_INIT is any word (D12). The GPU's command record and cursor are the spec's decision D25. -/
def Obligations.HostResetKeepsOnlyTheBios : Prop :=
  ∀ (s : State) (init : Word), s.Inv →
    let t := s.hostReset init
    (∀ r, t.x r = 0#32) ∧ t.hi = 0#32 ∧ t.lo = 0#32 ∧ t.pc = 0xBFC00000#32 ∧ t.nextPc = 0xBFC00004#32 ∧ t.ld = none ∧
    t.cop0.badA = 0#32 ∧ t.cop0.sr = 0#32 ∧ t.cop0.cause = 0#32 ∧ t.cop0.epc = 0#32 ∧ (∀ i, t.pixelAt i = 0#16) ∧
    t.gpu.gp0State = .awaitingCommand ∧ t.gpu.cmd = { kind := .none, params := [], remainingWords := 0 } ∧
    t.gpu.cursor = { x := 0, y := 0, xStart := 0, xMax := 0 } ∧ t.gpu.gpuread = init ∧
    (∀ p, t.byteAt p = if regionOf p = .bios then s.byteAt p else 0#8) ∧
    busRead t .word 0xBFC00000#32 = .ok t.instruction ∧ t.Inv

/-- R362, R365, R367: the host's loads and `set_pc`: a BIOS image of exactly 524,288 bytes is loaded verbatim and any other
refused; `set_pc` writes the counters and prefetches the word the bus reads, and is refused where the bus refuses it; an EXE
whose payload is there and fits is copied to RAM and started, with the word at its initial PC prefetched, and any other refused;
nothing else changes. The refusals and what an injection leaves alone are the spec's decisions D20, D22 and D33, `set_pc` is
D29; that a misaligned initial PC or destination is no ground for refusing is the model's choice (log entry 23). -/
def Obligations.HostLoads : Prop :=
  ∀ (s : State) (image file : List Byte) (a : Word), Memory.wf s.mem →
    (image.length ≠ 524288 → loadBios image s = .refused .badBiosImage) ∧
    (image.length = 524288 → Answers (loadBios image s) (fun t =>
      { t with mem := s.mem } = s ∧
      ∀ p, t.byteAt p = if regionOf p = .bios then image.getD (p - 0x1FC00000) 0#8 else s.byteAt p)) ∧
    ((∀ w, busRead s .word a = .ok w → Answers (setPc a s) (fun t =>
        t.pc = a ∧ t.nextPc = a + 4#32 ∧ t.instruction = w ∧
        { t with pc := s.pc, nextPc := s.nextPc, instruction := s.instruction } = s)) ∧
      (∀ q, busRead s .word a = .error q → setPc a s = .refused q) ∧
      (a.toNat % 4 = 0 → ∃ w, busRead s .word a = .ok w)) ∧
    (let size := (exeField file 0x1C).toNat
     let dest := (exeField file 0x18).toNat % 2 ^ 29
     let init := exeField file 0x10
     let started := fun (t : State) =>
       t.pc = init ∧ t.nextPc = init + 4#32 ∧ busRead t .word init = .ok t.instruction ∧ (∀ q, t.x q = s.x q) ∧
       t.hi = s.hi ∧ t.lo = s.lo ∧ t.ld = s.ld ∧ t.cop0 = s.cop0 ∧ t.gpu = s.gpu ∧ t.draws = s.draws ∧
       ∀ p, t.byteAt p = if dest ≤ p ∧ p < dest + size then file.getD (0x800 + (p - dest)) 0#8 else s.byteAt p
     (file.length < 0x800 + size ∨ 0x200000 < dest + size → injectExe file s = .refused .badExeImage) ∧
     (0x800 + size ≤ file.length → dest + size ≤ 0x200000 →
       (init.toNat % 4 = 0 ∨ (spansRegions .word init = false ∧ regionOf (phys init) ≠ .io) →
         Answers (injectExe file s) started) ∧
       (∀ t, injectExe file s = .next t → started t) ∧ injectExe file s ≠ .refused .badExeImage))

/-- The instruction a test places with `withFetchWord` is the word the very next step fetches (log entry 3). -/
def Obligations.PlacedWordIsFetched : Prop :=
  ∀ (s : State) (w : Word), Memory.wf s.mem → Fetches (s.withFetchWord 32 w.toNat) w
end

