-- ==== Sys2Proof/Laws/Encoding.lean ====
section
/-! SUPPORT. The fields of an encoded word, one lemma per field and format, and the bytes of a word. -/

namespace Sys2Proof

@[simp] theorem regOfBits_bitsOfReg (r : Reg) : regOfBits (bitsOfReg r) = r := by
  apply Fin.ext
  simp only [regOfBits, bitsOfReg, BitVec.toNat_ofNat]
  omega

@[simp] theorem bitsOfReg_regOfBits (b : BitVec 5) : bitsOfReg (regOfBits b) = b := by
  simp [regOfBits, bitsOfReg]

/-! ### The I format -/

section
variable (op : BitVec 6) (rs rt : BitVec 5) (imm : Half)

@[simp] theorem opOf_iWord : opOf (iWord op rs rt imm) = op := by
  apply BitVec.eq_of_getLsbD_eq; intro i hi
  simp only [opOf, iWord, BitVec.getLsbD_extractLsb', BitVec.getLsbD_append]
  have : i < 6 := hi
  simp [show ¬ 26 + i < 16 by omega, show ¬ 26 + i - 16 < 5 by omega, show ¬ 26 + i - 16 - 5 < 5 by omega,
    show 26 + i - 16 - 5 - 5 = i by omega, hi]

@[simp] theorem rsBits_iWord : rsBits (iWord op rs rt imm) = rs := by
  apply BitVec.eq_of_getLsbD_eq; intro i hi
  simp only [rsBits, iWord, BitVec.getLsbD_extractLsb', BitVec.getLsbD_append]
  simp [show ¬ 21 + i < 16 by omega, show ¬ 21 + i - 16 < 5 by omega, show 21 + i - 16 - 5 = i by omega, hi]

@[simp] theorem rtBits_iWord : rtBits (iWord op rs rt imm) = rt := by
  apply BitVec.eq_of_getLsbD_eq; intro i hi
  simp only [rtBits, iWord, BitVec.getLsbD_extractLsb', BitVec.getLsbD_append]
  simp [show ¬ 16 + i < 16 by omega, show 16 + i - 16 = i by omega, hi]

@[simp] theorem immOf_iWord : immOf (iWord op rs rt imm) = imm := by
  apply BitVec.eq_of_getLsbD_eq; intro i hi
  simp only [immOf, iWord, BitVec.getLsbD_extractLsb', BitVec.getLsbD_append]
  simp [hi]

end

/-! ### The R and COP0 formats -/

section
variable (op : BitVec 6) (rs rt rd shamt : BitVec 5) (funct : BitVec 6)

@[simp] theorem opOf_rWord : opOf (rWord op rs rt rd shamt funct) = op := by
  apply BitVec.eq_of_getLsbD_eq; intro i hi
  simp only [opOf, rWord, BitVec.getLsbD_extractLsb', BitVec.getLsbD_append]
  simp [show ¬ 26 + i < 6 by omega, show ¬ 26 + i - 6 < 5 by omega, show ¬ 26 + i - 6 - 5 < 5 by omega,
    show ¬ 26 + i - 6 - 5 - 5 < 5 by omega, show ¬ 26 + i - 6 - 5 - 5 - 5 < 5 by omega,
    show 26 + i - 6 - 5 - 5 - 5 - 5 = i by omega, hi]

@[simp] theorem rsBits_rWord : rsBits (rWord op rs rt rd shamt funct) = rs := by
  apply BitVec.eq_of_getLsbD_eq; intro i hi
  simp only [rsBits, rWord, BitVec.getLsbD_extractLsb', BitVec.getLsbD_append]
  simp [show ¬ 21 + i < 6 by omega, show ¬ 21 + i - 6 < 5 by omega, show ¬ 21 + i - 6 - 5 < 5 by omega,
    show ¬ 21 + i - 6 - 5 - 5 < 5 by omega, show 21 + i - 6 - 5 - 5 - 5 = i by omega, hi]

@[simp] theorem rtBits_rWord : rtBits (rWord op rs rt rd shamt funct) = rt := by
  apply BitVec.eq_of_getLsbD_eq; intro i hi
  simp only [rtBits, rWord, BitVec.getLsbD_extractLsb', BitVec.getLsbD_append]
  simp [show ¬ 16 + i < 6 by omega, show ¬ 16 + i - 6 < 5 by omega, show ¬ 16 + i - 6 - 5 < 5 by omega,
    show 16 + i - 6 - 5 - 5 = i by omega, hi]

@[simp] theorem rdBits_rWord : rdBits (rWord op rs rt rd shamt funct) = rd := by
  apply BitVec.eq_of_getLsbD_eq; intro i hi
  simp only [rdBits, rWord, BitVec.getLsbD_extractLsb', BitVec.getLsbD_append]
  simp [show ¬ 11 + i < 6 by omega, show ¬ 11 + i - 6 < 5 by omega, show 11 + i - 6 - 5 = i by omega, hi]

@[simp] theorem shamtBits_rWord : shamtBits (rWord op rs rt rd shamt funct) = shamt := by
  apply BitVec.eq_of_getLsbD_eq; intro i hi
  simp only [shamtBits, rWord, BitVec.getLsbD_extractLsb', BitVec.getLsbD_append]
  simp [show ¬ 6 + i < 6 by omega, show 6 + i - 6 = i by omega, hi]

@[simp] theorem functOf_rWord : functOf (rWord op rs rt rd shamt funct) = funct := by
  apply BitVec.eq_of_getLsbD_eq; intro i hi
  simp only [functOf, rWord, BitVec.getLsbD_extractLsb', BitVec.getLsbD_append]
  simp [hi]

end

/-! ### The J format -/

section
variable (op : BitVec 6) (target : BitVec 26)

@[simp] theorem opOf_jWord : opOf (jWord op target) = op := by
  apply BitVec.eq_of_getLsbD_eq; intro i hi
  simp only [opOf, jWord, BitVec.getLsbD_extractLsb', BitVec.getLsbD_append]
  simp [show ¬ 26 + i < 26 by omega, show 26 + i - 26 = i by omega, hi]

@[simp] theorem targetOf_jWord : targetOf (jWord op target) = target := by
  apply BitVec.eq_of_getLsbD_eq; intro i hi
  simp only [targetOf, jWord, BitVec.getLsbD_extractLsb', BitVec.getLsbD_append]
  simp [hi]

end

/-! ### Bytes of a word -/

@[simp] theorem wordOfBytes_byteOfWord (w : Word) :
    wordOfBytes (byteOfWord w 0) (byteOfWord w 1) (byteOfWord w 2) (byteOfWord w 3) = w := by
  apply BitVec.eq_of_getLsbD_eq; intro i hi
  simp only [wordOfBytes, byteOfWord, BitVec.getLsbD_extractLsb', BitVec.getLsbD_append]
  by_cases h0 : i < 8
  · simp [h0]
  by_cases h1 : i < 16
  · simp [h0, show i - 8 < 8 by omega, show 8 + (i - 8) = i by omega]
  by_cases h2 : i < 24
  · simp [h0, show ¬ i - 8 < 8 by omega, show i - 8 - 8 < 8 by omega, show 16 + (i - 8 - 8) = i by omega]
  · simp [h0, show ¬ i - 8 < 8 by omega, show ¬ i - 8 - 8 < 8 by omega, show i - 8 - 8 - 8 < 8 by omega,
      show 24 + (i - 8 - 8 - 8) = i by omega]

/-- Decoding from the bytes of a word is decoding the word. -/
theorem decodeBytes_bytesOfWord (w : Word) (rest : List Byte) :
    decodeBytes (bytesOfWord w ++ rest) = (match decode w with | .ok i => .ok (i, rest) | .error e => .error e) := by
  unfold bytesOfWord
  simp only [List.cons_append, List.nil_append]
  unfold decodeBytes
  dsimp only
  rw [wordOfBytes_byteOfWord] <;> cases decode w <;> rfl

end Sys2Proof
end

