-- ==== Sys2Proof/Laws/Memory.lean ====
section
/-! SUPPORT. The laws of sparse arrays (read after write, canonical form, which addresses are listed) and of little-endian
access. -/

namespace Sys2Proof.Machine

section Cells
variable {w : Nat}

@[simp] theorem Cells.read_nil (a : Nat) : Cells.read ([] : List (Nat × BitVec w)) a = 0#w := rfl

theorem Cells.wf_nil : Cells.WF ([] : List (Nat × BitVec w)) := ⟨.nil, by simp⟩

/-- An address below every listed one reads 0. -/
theorem Cells.read_of_lt_all {m : List (Nat × BitVec w)} {a : Nat} (h : ∀ c ∈ m, a < c.1) : Cells.read m a = 0#w := by
  induction m with
  | nil => rfl
  | cons c rest ih =>
    have hc : a < c.1 := h c (by simp)
    simp only [Cells.read, if_neg (Nat.ne_of_lt hc)]
    exact ih fun d hd => h d (by simp [hd])

/-- What a write can list: the old entries and the one written. -/
theorem Cells.mem_write {m : List (Nat × BitVec w)} {a : Nat} {v : BitVec w} {c : Nat × BitVec w}
    (h : c ∈ Cells.write m a v) : c ∈ m ∨ (c = (a, v) ∧ v ≠ 0#w) := by
  induction m with
  | nil =>
    simp only [Cells.write] at h
    split at h
    · simp at h
    · right; simp at h; exact ⟨h, ‹_›⟩
  | cons d rest ih =>
    simp only [Cells.write] at h
    split at h
    · split at h
      · exact .inl h
      · rcases List.mem_cons.mp h with h | h
        · exact .inr ⟨h, ‹_›⟩
        · exact .inl h
    · split at h
      · split at h
        · exact .inl (by simp [h])
        · rcases List.mem_cons.mp h with h | h
          · exact .inr ⟨h, ‹_›⟩
          · exact .inl (by simp [h])
      · rcases List.mem_cons.mp h with h | h
        · exact .inl (by simp [h])
        · rcases ih h with h | h
          · exact .inl (by simp [h])
          · exact .inr h

/-- A write keeps the canonical form. -/
theorem Cells.wf_write {m : List (Nat × BitVec w)} (hm : Cells.WF m) (a : Nat) (v : BitVec w) :
    Cells.WF (Cells.write m a v) := by
  refine ⟨?_, ?_⟩
  · have hp := hm.1
    clear hm
    induction m with
    | nil => simp only [Cells.write]; split <;> simp
    | cons c rest ih =>
      obtain ⟨hc, hr⟩ := List.pairwise_cons.mp hp
      simp only [Cells.write]
      split
      · split
        · exact hp
        · refine List.pairwise_cons.mpr ⟨fun d hd => ?_, hp⟩
          rcases List.mem_cons.mp hd with rfl | hd
          · assumption
          · exact Nat.lt_trans ‹_› (hc d hd)
      · split
        · subst_vars
          split
          · exact hr
          · exact List.pairwise_cons.mpr ⟨hc, hr⟩
        · refine List.pairwise_cons.mpr ⟨fun d hd => ?_, ih hr⟩
          rcases Cells.mem_write hd with hd | ⟨rfl, -⟩
          · exact hc d hd
          · simp only; omega
  · intro c hc
    rcases Cells.mem_write hc with h | ⟨rfl, h⟩
    · exact hm.2 c h
    · exact h

/-- Read after write. -/
theorem Cells.read_write {m : List (Nat × BitVec w)} (hm : Cells.WF m) (a : Nat) (v : BitVec w) (b : Nat) :
    Cells.read (Cells.write m a v) b = if b = a then v else Cells.read m b := by
  have hp := hm.1
  clear hm
  induction m with
  | nil => simp only [Cells.write]; split <;> simp_all [Cells.read]
  | cons c rest ih =>
    obtain ⟨k, u⟩ := c
    obtain ⟨hc, hr⟩ := List.pairwise_cons.mp hp
    have ih := ih hr
    simp only [Cells.write]
    split
    · rename_i hlt
      have hz : Cells.read ((k, u) :: rest) a = 0#w := Cells.read_of_lt_all fun d hd => by
        rcases List.mem_cons.mp hd with rfl | hd
        · exact hlt
        · exact Nat.lt_trans hlt (hc d hd)
      split
      · by_cases hb : b = a <;> simp_all
      · simp only [Cells.read]
    · split
      · rename_i hlt heq
        subst heq
        have hz : Cells.read rest a = 0#w := Cells.read_of_lt_all fun d hd => hc d hd
        by_cases hv : v = 0#w <;> by_cases hb : b = a <;> simp_all [Cells.read]
      · simp only [Cells.read, ih]
        by_cases hb : b = k <;> by_cases hb' : b = a <;> simp_all

@[simp] theorem Cells.read_write_self {m : List (Nat × BitVec w)} (hm : Cells.WF m) (a : Nat) (v : BitVec w) :
    Cells.read (Cells.write m a v) a = v := by simp [Cells.read_write hm]

theorem Cells.read_write_of_ne {m : List (Nat × BitVec w)} (hm : Cells.WF m) {a b : Nat} (v : BitVec w) (h : b ≠ a) :
    Cells.read (Cells.write m a v) b = Cells.read m b := by simp [Cells.read_write hm, h]

/-- Equal reads mean equal canonical lists: equal memories are equal data. -/
theorem Cells.eq_of_read_eq {m n : List (Nat × BitVec w)} (hm : Cells.WF m) (hn : Cells.WF n)
    (h : ∀ a, Cells.read m a = Cells.read n a) : m = n := by
  induction m generalizing n with
  | nil =>
    cases n with
    | nil => rfl
    | cons d rest =>
      have := h d.1
      simp [Cells.read] at this
      exact absurd this.symm (hn.2 d (by simp))
  | cons c rest ih =>
    cases n with
    | nil =>
      have := h c.1
      simp [Cells.read] at this
      exact absurd this (hm.2 c (by simp))
    | cons d rest' =>
      obtain ⟨hc, hr⟩ := List.pairwise_cons.mp hm.1
      obtain ⟨hd, hr'⟩ := List.pairwise_cons.mp hn.1
      have hkey : c.1 = d.1 := by
        rcases Nat.lt_trichotomy c.1 d.1 with hlt | heq | hgt
        · have h1 := h c.1
          rw [Cells.read_of_lt_all (m := d :: rest') (fun e he => by
            rcases List.mem_cons.mp he with rfl | he
            · exact hlt
            · exact Nat.lt_trans hlt (hd e he))] at h1
          simp [Cells.read] at h1
          exact absurd h1 (hm.2 c (by simp))
        · exact heq
        · have h1 := h d.1
          rw [Cells.read_of_lt_all (m := c :: rest) (fun e he => by
            rcases List.mem_cons.mp he with rfl | he
            · exact hgt
            · exact Nat.lt_trans hgt (hc e he))] at h1
          simp [Cells.read] at h1
          exact absurd h1.symm (hn.2 d (by simp))
      have hval : c.2 = d.2 := by
        have := h c.1
        simp [Cells.read, hkey] at this
        exact this
      have hrest : rest = rest' := by
        refine ih ⟨hr, fun e he => hm.2 e (by simp [he])⟩ ⟨hr', fun e he => hn.2 e (by simp [he])⟩ fun a => ?_
        by_cases ha : a = c.1
        · subst ha
          rw [Cells.read_of_lt_all hc, hkey, Cells.read_of_lt_all hd]
        · have := h a
          simp only [Cells.read] at this
          rwa [if_neg ha, if_neg (hkey ▸ ha)] at this
      rw [hrest, Prod.ext hkey hval]

end Cells

/-! ### Bytes at rising addresses -/

theorem Memory.wf_writeBytes {m : Memory} (hm : Memory.wf m) (p : Nat) (bs : List Byte) :
    Memory.wf (m.writeBytes p bs) := by
  induction bs generalizing m p with
  | nil => exact hm
  | cons b bs ih => exact ih (Cells.wf_write hm p b) (p + 1)

theorem Memory.wf_writeLe {m : Memory} (hm : Memory.wf m) (n : Width) (p : Nat) (v : Word) :
    Memory.wf (m.writeLe n p v) := Memory.wf_writeBytes hm p _

/-- Writing bytes lists only the old addresses and the ones written. -/
theorem Memory.mem_writeBytes {m : Memory} {p : Nat} {bs : List Byte} {c : Host.Cell} (h : c ∈ m.writeBytes p bs) :
    c ∈ m ∨ (p ≤ c.1 ∧ c.1 < p + bs.length) := by
  induction bs generalizing m p with
  | nil => exact .inl h
  | cons b bs ih =>
    rcases ih h with h | ⟨h1, h2⟩
    · rcases Cells.mem_write h with h | ⟨rfl, -⟩
      · exact .inl h
      · right; simp
    · right; simp only [List.length_cons]; omega

/-- Reading any byte after writing bytes. -/
theorem Memory.read_writeBytes {m : Memory} (hm : Memory.wf m) (p : Nat) (bs : List Byte) (b : Nat) :
    Cells.read (m.writeBytes p bs) b =
      if p ≤ b ∧ b < p + bs.length then bs.getD (b - p) 0#8 else Cells.read m b := by
  induction bs generalizing m p with
  | nil => simp [Memory.writeBytes]
  | cons v bs ih =>
    simp only [Memory.writeBytes, ih (Cells.wf_write hm p v), Cells.read_write hm, List.length_cons]
    by_cases h1 : p + 1 ≤ b ∧ b < p + 1 + bs.length
    · rw [if_pos h1, if_pos (by omega), show b - p = (b - (p + 1)) + 1 by omega, List.getD_cons_succ]
    · rw [if_neg h1]
      by_cases h2 : b = p
      · subst h2; simp
      · rw [if_neg h2, if_neg (by omega)]

theorem bytesOfWord_take_length (v : Word) (n : Width) : ((bytesOfWord v).take n.bytes).length = n.bytes := by
  cases n <;> rfl

/-- A little-endian write leaves every byte outside its `n` bytes alone. -/
theorem Memory.read_writeLe_outside {m : Memory} (hm : Memory.wf m) (n : Width) (p : Nat) (v : Word) {b : Nat}
    (h : b < p ∨ p + n.bytes ≤ b) : Cells.read (m.writeLe n p v) b = Cells.read m b := by
  rw [Memory.writeLe, Memory.read_writeBytes hm, bytesOfWord_take_length, if_neg (by omega)]

/-- A little-endian write puts byte `i` of the value at `p + i` (R74). -/
theorem Memory.read_writeLe_inside {m : Memory} (hm : Memory.wf m) (n : Width) (p : Nat) (v : Word) {i : Nat}
    (h : i < n.bytes) : Cells.read (m.writeLe n p v) (p + i) = byteOfWord v i := by
  rw [Memory.writeLe, Memory.read_writeBytes hm, bytesOfWord_take_length, if_pos (by omega)]
  cases n <;> simp only [Width.bytes] at h
  · obtain rfl : i = 0 := by omega
    simp [bytesOfWord, Width.bytes]
  · obtain rfl | rfl : i = 0 ∨ i = 1 := by omega
    all_goals simp [bytesOfWord, Width.bytes]
  · obtain rfl | rfl | rfl | rfl : i = 0 ∨ i = 1 ∨ i = 2 ∨ i = 3 := by omega
    all_goals simp [bytesOfWord, Width.bytes]

/-- The width's low bits of a word, which is what an access of that width moves. -/
def Width.mask (n : Width) (v : Word) : Word :=
  match n with
  | .byte => (v.setWidth 8).setWidth 32
  | .half => (v.setWidth 16).setWidth 32
  | .word => v

/-- Reading back the width that was written at the same address (R98). -/
theorem Memory.readLe_writeLe {m : Memory} (hm : Memory.wf m) (n : Width) (p : Nat) (v : Word) :
    (m.writeLe n p v).readLe n p = n.mask v := by
  cases n with
  | byte =>
    have h0 := Memory.read_writeLe_inside hm .byte p v (i := 0) (by decide)
    simp only [Nat.add_zero] at h0
    simp only [Memory.readLe, h0, byteOfWord, Width.mask, Nat.mul_zero]
    apply BitVec.eq_of_getLsbD_eq; intro i hi
    simp
  | half =>
    have h0 := Memory.read_writeLe_inside hm .half p v (i := 0) (by decide)
    have h1 := Memory.read_writeLe_inside hm .half p v (i := 1) (by decide)
    simp only [Nat.add_zero] at h0
    simp only [Memory.readLe, h0, h1, byteOfWord, Width.mask]
    apply BitVec.eq_of_getLsbD_eq; intro i hi
    simp only [BitVec.getLsbD_setWidth, BitVec.getLsbD_append, BitVec.getLsbD_extractLsb']
    by_cases h8 : i < 8
    · simp [h8, hi, show i < 16 by omega]
    · by_cases h16 : i < 16
      · simp [h8, h16, hi, show i - 8 < 8 by omega, show 8 + (i - 8) = i by omega]
      · simp [h8, h16, show ¬ i - 8 < 8 by omega]
  | word =>
    have h0 := Memory.read_writeLe_inside hm .word p v (i := 0) (by decide)
    have h1 := Memory.read_writeLe_inside hm .word p v (i := 1) (by decide)
    have h2 := Memory.read_writeLe_inside hm .word p v (i := 2) (by decide)
    have h3 := Memory.read_writeLe_inside hm .word p v (i := 3) (by decide)
    simp only [Nat.add_zero] at h0
    simp only [Memory.readLe, h0, h1, h2, h3, wordOfBytes_byteOfWord, Width.mask]

end Sys2Proof.Machine
end

