-- ==== Sys2Proof/Laws/State.lean ====
section
/-! SUPPORT. One lemma per field per update of the state, so that no later proof unfolds a record update; and the laws of
the register file. -/

namespace Sys2Proof.Machine

variable (s : State)

/-! ### The register file -/

@[simp] theorem x_zero : s.x 0 = 0#32 := rfl

theorem x_of_regs_eq {s t : State} (h : s.regs = t.regs) (r : Reg) : s.x r = t.x r := by simp only [State.x, h]

@[simp] theorem setX_zero (v : Word) : s.setX 0 v = s := rfl

/-- What a register reads after a register write; a write to register 0 is discarded (R31). -/
theorem x_setX (r : Reg) (v : Word) (q : Reg) : (s.setX r v).x q = if q = r ∧ r ≠ 0 then v else s.x q := by
  unfold State.setX
  by_cases hr : r = 0
  · simp [hr]
  · by_cases hq : q = r
    · subst hq; simp [State.x, hr]
    · have : r.val ≠ q.val := fun h => hq (Fin.ext h.symm)
      simp [State.x, hr, hq, this]

@[simp] theorem x_setX_self {r : Reg} (h : r ≠ 0) (v : Word) : (s.setX r v).x r = v := by simp [x_setX, h]

@[simp] theorem x_setX_of_ne {r q : Reg} (h : q ≠ r) (v : Word) : (s.setX r v).x q = s.x q := by simp [x_setX, h]

/-- The stored register 0 is never written by `setX`. -/
@[simp] theorem setX_regs_zero (r : Reg) (v : Word) : (s.setX r v).regs[0] = s.regs[0] := by
  unfold State.setX
  split
  · rfl
  · have : r.val ≠ 0 := fun h => ‹¬ r = 0› (Fin.ext h)
    simp [this]

/-! ### Fields that `setX` leaves alone -/

@[simp] theorem setX_hi (r : Reg) (v : Word) : (s.setX r v).hi = s.hi := by unfold State.setX; split <;> rfl
@[simp] theorem setX_lo (r : Reg) (v : Word) : (s.setX r v).lo = s.lo := by unfold State.setX; split <;> rfl
@[simp] theorem setX_pc (r : Reg) (v : Word) : (s.setX r v).pc = s.pc := by unfold State.setX; split <;> rfl
@[simp] theorem setX_nextPc (r : Reg) (v : Word) : (s.setX r v).nextPc = s.nextPc := by unfold State.setX; split <;> rfl
@[simp] theorem setX_instruction (r : Reg) (v : Word) : (s.setX r v).instruction = s.instruction := by unfold State.setX; split <;> rfl
@[simp] theorem setX_ld (r : Reg) (v : Word) : (s.setX r v).ld = s.ld := by unfold State.setX; split <;> rfl
@[simp] theorem setX_cop0 (r : Reg) (v : Word) : (s.setX r v).cop0 = s.cop0 := by unfold State.setX; split <;> rfl
@[simp] theorem setX_mem (r : Reg) (v : Word) : (s.setX r v).mem = s.mem := by unfold State.setX; split <;> rfl
@[simp] theorem setX_gpu (r : Reg) (v : Word) : (s.setX r v).gpu = s.gpu := by unfold State.setX; split <;> rfl
@[simp] theorem setX_draws (r : Reg) (v : Word) : (s.setX r v).draws = s.draws := by unfold State.setX; split <;> rfl

/-! ### Fields after `jumpTo` -/

@[simp] theorem jumpTo_regs (t : Word) : (s.jumpTo t).regs = s.regs := rfl
@[simp] theorem jumpTo_hi (t : Word) : (s.jumpTo t).hi = s.hi := rfl
@[simp] theorem jumpTo_lo (t : Word) : (s.jumpTo t).lo = s.lo := rfl
@[simp] theorem jumpTo_pc (t : Word) : (s.jumpTo t).pc = s.pc := rfl
@[simp] theorem jumpTo_nextPc (t : Word) : (s.jumpTo t).nextPc = t := rfl
@[simp] theorem jumpTo_instruction (t : Word) : (s.jumpTo t).instruction = s.instruction := rfl
@[simp] theorem jumpTo_ld (t : Word) : (s.jumpTo t).ld = s.ld := rfl
@[simp] theorem jumpTo_cop0 (t : Word) : (s.jumpTo t).cop0 = s.cop0 := rfl
@[simp] theorem jumpTo_mem (t : Word) : (s.jumpTo t).mem = s.mem := rfl
@[simp] theorem jumpTo_gpu (t : Word) : (s.jumpTo t).gpu = s.gpu := rfl
@[simp] theorem jumpTo_draws (t : Word) : (s.jumpTo t).draws = s.draws := rfl
@[simp] theorem jumpTo_x (t : Word) (r : Reg) : (s.jumpTo t).x r = s.x r := rfl

/-! ### Fields after `setProduct` -/

@[simp] theorem setProduct_regs (p : BitVec 64) : (s.setProduct p).regs = s.regs := rfl
@[simp] theorem setProduct_hi (p : BitVec 64) : (s.setProduct p).hi = p.extractLsb' 32 32 := rfl
@[simp] theorem setProduct_lo (p : BitVec 64) : (s.setProduct p).lo = p.extractLsb' 0 32 := rfl
@[simp] theorem setProduct_pc (p : BitVec 64) : (s.setProduct p).pc = s.pc := rfl
@[simp] theorem setProduct_nextPc (p : BitVec 64) : (s.setProduct p).nextPc = s.nextPc := rfl
@[simp] theorem setProduct_instruction (p : BitVec 64) : (s.setProduct p).instruction = s.instruction := rfl
@[simp] theorem setProduct_ld (p : BitVec 64) : (s.setProduct p).ld = s.ld := rfl
@[simp] theorem setProduct_cop0 (p : BitVec 64) : (s.setProduct p).cop0 = s.cop0 := rfl
@[simp] theorem setProduct_mem (p : BitVec 64) : (s.setProduct p).mem = s.mem := rfl
@[simp] theorem setProduct_gpu (p : BitVec 64) : (s.setProduct p).gpu = s.gpu := rfl
@[simp] theorem setProduct_draws (p : BitVec 64) : (s.setProduct p).draws = s.draws := rfl
@[simp] theorem setProduct_x (p : BitVec 64) (r : Reg) : (s.setProduct p).x r = s.x r := rfl

/-! ### Fields after `setQuotRem` -/

@[simp] theorem setQuotRem_regs (qr : Word × Word) : (s.setQuotRem qr).regs = s.regs := rfl
@[simp] theorem setQuotRem_hi (qr : Word × Word) : (s.setQuotRem qr).hi = qr.2 := rfl
@[simp] theorem setQuotRem_lo (qr : Word × Word) : (s.setQuotRem qr).lo = qr.1 := rfl
@[simp] theorem setQuotRem_pc (qr : Word × Word) : (s.setQuotRem qr).pc = s.pc := rfl
@[simp] theorem setQuotRem_nextPc (qr : Word × Word) : (s.setQuotRem qr).nextPc = s.nextPc := rfl
@[simp] theorem setQuotRem_instruction (qr : Word × Word) : (s.setQuotRem qr).instruction = s.instruction := rfl
@[simp] theorem setQuotRem_ld (qr : Word × Word) : (s.setQuotRem qr).ld = s.ld := rfl
@[simp] theorem setQuotRem_cop0 (qr : Word × Word) : (s.setQuotRem qr).cop0 = s.cop0 := rfl
@[simp] theorem setQuotRem_mem (qr : Word × Word) : (s.setQuotRem qr).mem = s.mem := rfl
@[simp] theorem setQuotRem_gpu (qr : Word × Word) : (s.setQuotRem qr).gpu = s.gpu := rfl
@[simp] theorem setQuotRem_draws (qr : Word × Word) : (s.setQuotRem qr).draws = s.draws := rfl
@[simp] theorem setQuotRem_x (qr : Word × Word) (r : Reg) : (s.setQuotRem qr).x r = s.x r := rfl

/-! ### Fields after `restoreStatus` -/

@[simp] theorem restoreStatus_regs : (restoreStatus s).regs = s.regs := rfl
@[simp] theorem restoreStatus_hi : (restoreStatus s).hi = s.hi := rfl
@[simp] theorem restoreStatus_lo : (restoreStatus s).lo = s.lo := rfl
@[simp] theorem restoreStatus_pc : (restoreStatus s).pc = s.pc := rfl
@[simp] theorem restoreStatus_nextPc : (restoreStatus s).nextPc = s.nextPc := rfl
@[simp] theorem restoreStatus_instruction : (restoreStatus s).instruction = s.instruction := rfl
@[simp] theorem restoreStatus_ld : (restoreStatus s).ld = s.ld := rfl
@[simp] theorem restoreStatus_cop0 : (restoreStatus s).cop0 = { s.cop0 with sr := popStatus s.cop0.sr } := rfl
@[simp] theorem restoreStatus_mem : (restoreStatus s).mem = s.mem := rfl
@[simp] theorem restoreStatus_gpu : (restoreStatus s).gpu = s.gpu := rfl
@[simp] theorem restoreStatus_draws : (restoreStatus s).draws = s.draws := rfl
@[simp] theorem restoreStatus_x (r : Reg) : (restoreStatus s).x r = s.x r := rfl

/-! ### Fields after `advance` -/

@[simp] theorem advance_regs (w : Word) : (advance w s).regs = s.regs := rfl
@[simp] theorem advance_hi (w : Word) : (advance w s).hi = s.hi := rfl
@[simp] theorem advance_lo (w : Word) : (advance w s).lo = s.lo := rfl
@[simp] theorem advance_pc (w : Word) : (advance w s).pc = s.nextPc := rfl
@[simp] theorem advance_nextPc (w : Word) : (advance w s).nextPc = s.nextPc + 4#32 := rfl
@[simp] theorem advance_instruction (w : Word) : (advance w s).instruction = w := rfl
@[simp] theorem advance_ld (w : Word) : (advance w s).ld = s.ld := rfl
@[simp] theorem advance_cop0 (w : Word) : (advance w s).cop0 = s.cop0 := rfl
@[simp] theorem advance_mem (w : Word) : (advance w s).mem = s.mem := rfl
@[simp] theorem advance_gpu (w : Word) : (advance w s).gpu = s.gpu := rfl
@[simp] theorem advance_draws (w : Word) : (advance w s).draws = s.draws := rfl
@[simp] theorem advance_x (w : Word) (r : Reg) : (advance w s).x r = s.x r := rfl

/-! ### Fields after `takeException` -/

@[simp] theorem takeException_regs (e : ExcCode) (a : Word) : (takeException e a s).regs = s.regs := rfl
@[simp] theorem takeException_hi (e : ExcCode) (a : Word) : (takeException e a s).hi = s.hi := rfl
@[simp] theorem takeException_lo (e : ExcCode) (a : Word) : (takeException e a s).lo = s.lo := rfl
@[simp] theorem takeException_pc (e : ExcCode) (a : Word) : (takeException e a s).pc = exceptionVector := rfl
@[simp] theorem takeException_nextPc (e : ExcCode) (a : Word) : (takeException e a s).nextPc = exceptionVector + 4#32 := rfl
@[simp] theorem takeException_instruction (e : ExcCode) (a : Word) : (takeException e a s).instruction = s.instruction := rfl
@[simp] theorem takeException_ld (e : ExcCode) (a : Word) : (takeException e a s).ld = s.ld := rfl
@[simp] theorem takeException_mem (e : ExcCode) (a : Word) : (takeException e a s).mem = s.mem := rfl
@[simp] theorem takeException_gpu (e : ExcCode) (a : Word) : (takeException e a s).gpu = s.gpu := rfl
@[simp] theorem takeException_draws (e : ExcCode) (a : Word) : (takeException e a s).draws = s.draws := rfl
@[simp] theorem takeException_x (e : ExcCode) (a : Word) (r : Reg) : (takeException e a s).x r = s.x r := rfl

@[simp] theorem takeException_epc (e : ExcCode) (a : Word) : (takeException e a s).cop0.epc = s.pc - 4#32 := rfl
@[simp] theorem takeException_sr (e : ExcCode) (a : Word) : (takeException e a s).cop0.sr = pushStatus s.cop0.sr := rfl
@[simp] theorem takeException_cause (e : ExcCode) (a : Word) :
    (takeException e a s).cop0.cause = causeAfter s.cop0.cause e := rfl
@[simp] theorem takeException_badA (e : ExcCode) (a : Word) :
    (takeException e a s).cop0.badA = if e = .adEL then a else s.cop0.badA := rfl

/-! ### Fields after `flushLoad`, `installLoad` and `retireLoad` -/

@[simp] theorem flushLoad_hi : (flushLoad s).hi = s.hi := by unfold flushLoad; split <;> simp
@[simp] theorem flushLoad_lo : (flushLoad s).lo = s.lo := by unfold flushLoad; split <;> simp
@[simp] theorem flushLoad_pc : (flushLoad s).pc = s.pc := by unfold flushLoad; split <;> simp
@[simp] theorem flushLoad_nextPc : (flushLoad s).nextPc = s.nextPc := by unfold flushLoad; split <;> simp
@[simp] theorem flushLoad_instruction : (flushLoad s).instruction = s.instruction := by unfold flushLoad; split <;> simp
@[simp] theorem flushLoad_ld : (flushLoad s).ld = s.ld := by unfold flushLoad; split <;> simp
@[simp] theorem flushLoad_cop0 : (flushLoad s).cop0 = s.cop0 := by unfold flushLoad; split <;> simp
@[simp] theorem flushLoad_mem : (flushLoad s).mem = s.mem := by unfold flushLoad; split <;> simp
@[simp] theorem flushLoad_gpu : (flushLoad s).gpu = s.gpu := by unfold flushLoad; split <;> simp
@[simp] theorem flushLoad_draws : (flushLoad s).draws = s.draws := by unfold flushLoad; split <;> simp
@[simp] theorem installLoad_hi (r : Reg) (v : Word) : (installLoad r v s).hi = s.hi := flushLoad_hi s
@[simp] theorem installLoad_lo (r : Reg) (v : Word) : (installLoad r v s).lo = s.lo := flushLoad_lo s
@[simp] theorem installLoad_pc (r : Reg) (v : Word) : (installLoad r v s).pc = s.pc := flushLoad_pc s
@[simp] theorem installLoad_nextPc (r : Reg) (v : Word) : (installLoad r v s).nextPc = s.nextPc := flushLoad_nextPc s
@[simp] theorem installLoad_instruction (r : Reg) (v : Word) : (installLoad r v s).instruction = s.instruction := flushLoad_instruction s
@[simp] theorem installLoad_ld (r : Reg) (v : Word) :
    (installLoad r v s).ld = some { reg := r, value := v, remaining := 1 } := rfl
@[simp] theorem installLoad_cop0 (r : Reg) (v : Word) : (installLoad r v s).cop0 = s.cop0 := flushLoad_cop0 s
@[simp] theorem installLoad_mem (r : Reg) (v : Word) : (installLoad r v s).mem = s.mem := flushLoad_mem s
@[simp] theorem installLoad_gpu (r : Reg) (v : Word) : (installLoad r v s).gpu = s.gpu := flushLoad_gpu s
@[simp] theorem installLoad_draws (r : Reg) (v : Word) : (installLoad r v s).draws = s.draws := flushLoad_draws s
@[simp] theorem installLoad_x (r : Reg) (v : Word) (q : Reg) : (installLoad r v s).x q = (flushLoad s).x q := rfl

/-- What a register reads after a flush: a pending value, if it is the register's (R257). -/
theorem x_flushLoad (q : Reg) : (flushLoad s).x q =
    match s.ld with
    | none => s.x q
    | some slot => if q = slot.reg ∧ slot.reg ≠ 0 then slot.value else s.x q := by
  unfold flushLoad
  cases s.ld with
  | none => rfl
  | some slot => exact x_setX s slot.reg slot.value q

@[simp] theorem retireLoad_hi : (retireLoad s).hi = s.hi := by
  unfold retireLoad
  split
  · rfl
  · split <;> simp
@[simp] theorem retireLoad_lo : (retireLoad s).lo = s.lo := by
  unfold retireLoad
  split
  · rfl
  · split <;> simp
@[simp] theorem retireLoad_pc : (retireLoad s).pc = s.pc := by
  unfold retireLoad
  split
  · rfl
  · split <;> simp
@[simp] theorem retireLoad_nextPc : (retireLoad s).nextPc = s.nextPc := by
  unfold retireLoad
  split
  · rfl
  · split <;> simp
@[simp] theorem retireLoad_instruction : (retireLoad s).instruction = s.instruction := by
  unfold retireLoad
  split
  · rfl
  · split <;> simp
@[simp] theorem retireLoad_cop0 : (retireLoad s).cop0 = s.cop0 := by
  unfold retireLoad
  split
  · rfl
  · split <;> simp
@[simp] theorem retireLoad_mem : (retireLoad s).mem = s.mem := by
  unfold retireLoad
  split
  · rfl
  · split <;> simp
@[simp] theorem retireLoad_gpu : (retireLoad s).gpu = s.gpu := by
  unfold retireLoad
  split
  · rfl
  · split <;> simp
@[simp] theorem retireLoad_draws : (retireLoad s).draws = s.draws := by
  unfold retireLoad
  split
  · rfl
  · split <;> simp

/-- The slot after a retire (R131). -/
theorem retireLoad_ld : (retireLoad s).ld =
    match s.ld with
    | none => none
    | some slot => if slot.remaining = 0 then none else some { slot with remaining := slot.remaining - 1 } := by
  unfold retireLoad
  cases h : s.ld with
  | none => exact h
  | some slot =>
    dsimp only
    split <;> rfl

/-- What a register reads after a retire: the pending value once its count is 0 (R131). -/
theorem x_retireLoad (q : Reg) : (retireLoad s).x q =
    match s.ld with
    | none => s.x q
    | some slot => if slot.remaining = 0 ∧ q = slot.reg ∧ slot.reg ≠ 0 then slot.value else s.x q := by
  unfold retireLoad
  cases s.ld with
  | none => rfl
  | some slot =>
    by_cases h : slot.remaining = 0
    · simp only [h, if_true, true_and]
      exact x_setX s slot.reg slot.value q
    · simp only [h, if_false, false_and]
      rfl

@[simp] theorem retireLoad_regs_zero : (retireLoad s).regs[0] = s.regs[0] := by
  unfold retireLoad
  split
  · rfl
  · split <;> simp

@[simp] theorem flushLoad_regs_zero : (flushLoad s).regs[0] = s.regs[0] := by
  unfold flushLoad
  split <;> simp

@[simp] theorem installLoad_regs_zero (r : Reg) (v : Word) : (installLoad r v s).regs[0] = s.regs[0] :=
  flushLoad_regs_zero s

/-! ### Fields after `checkFetch` -/

@[simp] theorem checkFetch_regs : (checkFetch s).regs = s.regs := by unfold checkFetch; split <;> rfl
@[simp] theorem checkFetch_hi : (checkFetch s).hi = s.hi := by unfold checkFetch; split <;> rfl
@[simp] theorem checkFetch_lo : (checkFetch s).lo = s.lo := by unfold checkFetch; split <;> rfl
@[simp] theorem checkFetch_instruction : (checkFetch s).instruction = s.instruction := by unfold checkFetch; split <;> rfl
@[simp] theorem checkFetch_ld : (checkFetch s).ld = s.ld := by unfold checkFetch; split <;> rfl
@[simp] theorem checkFetch_mem : (checkFetch s).mem = s.mem := by unfold checkFetch; split <;> rfl
@[simp] theorem checkFetch_gpu : (checkFetch s).gpu = s.gpu := by unfold checkFetch; split <;> rfl
@[simp] theorem checkFetch_draws : (checkFetch s).draws = s.draws := by unfold checkFetch; split <;> rfl
@[simp] theorem checkFetch_x (r : Reg) : (checkFetch s).x r = s.x r := x_of_regs_eq (checkFetch_regs s) r

/-- An aligned pc passes the check unchanged (R132). -/
theorem checkFetch_of_aligned {s : State} (h : pcMisaligned s = false) : checkFetch s = s := by simp [checkFetch, h]

/-- A misaligned pc traps (R132). -/
theorem checkFetch_of_misaligned {s : State} (h : pcMisaligned s = true) :
    checkFetch s = takeException .adEL s.pc s := by simp [checkFetch, h]

/-- After the check the pc is aligned (R54). -/
@[simp] theorem checkFetch_aligned : pcMisaligned (checkFetch s) = false := by
  by_cases h : pcMisaligned s = true
  · simp [checkFetch_of_misaligned h, pcMisaligned, exceptionVector]
  · rw [Bool.not_eq_true] at h; rw [checkFetch_of_aligned h, h]

/-! ### Fields after `refetch` and `clearX0` -/

@[simp] theorem refetch_regs : (refetch s).regs = s.regs := by unfold refetch; split <;> rfl
@[simp] theorem refetch_hi : (refetch s).hi = s.hi := by unfold refetch; split <;> rfl
@[simp] theorem refetch_lo : (refetch s).lo = s.lo := by unfold refetch; split <;> rfl
@[simp] theorem refetch_pc : (refetch s).pc = s.pc := by unfold refetch; split <;> rfl
@[simp] theorem refetch_nextPc : (refetch s).nextPc = s.nextPc := by unfold refetch; split <;> rfl
@[simp] theorem refetch_ld : (refetch s).ld = s.ld := by unfold refetch; split <;> rfl
@[simp] theorem refetch_cop0 : (refetch s).cop0 = s.cop0 := by unfold refetch; split <;> rfl
@[simp] theorem refetch_mem : (refetch s).mem = s.mem := by unfold refetch; split <;> rfl
@[simp] theorem refetch_gpu : (refetch s).gpu = s.gpu := by unfold refetch; split <;> rfl
@[simp] theorem refetch_x (r : Reg) : (refetch s).x r = s.x r := x_of_regs_eq (refetch_regs s) r
@[simp] theorem clearX0_hi : (clearX0 s).hi = s.hi := rfl
@[simp] theorem clearX0_lo : (clearX0 s).lo = s.lo := rfl
@[simp] theorem clearX0_pc : (clearX0 s).pc = s.pc := rfl
@[simp] theorem clearX0_nextPc : (clearX0 s).nextPc = s.nextPc := rfl
@[simp] theorem clearX0_instruction : (clearX0 s).instruction = s.instruction := rfl
@[simp] theorem clearX0_ld : (clearX0 s).ld = s.ld := rfl
@[simp] theorem clearX0_cop0 : (clearX0 s).cop0 = s.cop0 := rfl
@[simp] theorem clearX0_mem : (clearX0 s).mem = s.mem := rfl
@[simp] theorem clearX0_gpu : (clearX0 s).gpu = s.gpu := rfl
@[simp] theorem clearX0_draws : (clearX0 s).draws = s.draws := rfl
@[simp] theorem clearX0_regs_zero : (clearX0 s).regs[0] = 0#32 := by simp [clearX0]

@[simp] theorem clearX0_x (r : Reg) : (clearX0 s).x r = s.x r := by
  by_cases h : r = 0
  · simp [State.x, h]
  · have : (0 : Nat) ≠ r.val := fun h0 => h (Fin.ext h0.symm)
    simp [State.x, h, clearX0, this]

/-! ### Reads of bytes and pixels depend on their array alone -/

theorem byteAt_of_mem_eq {s t : State} (h : s.mem = t.mem) (p : Nat) : s.byteAt p = t.byteAt p := by
  simp only [State.byteAt, h]

theorem pixelAt_of_vram_eq {s t : State} (h : s.gpu.vram = t.gpu.vram) (i : Nat) : s.pixelAt i = t.pixelAt i := by
  simp only [State.pixelAt, h]

end Sys2Proof.Machine
end

