-- ==== Sys2Proof/Laws/Bus.lean ====
section
/-! SUPPORT. The laws of the bus: addresses and regions, which accesses answer, and everything an access can do. -/

namespace Sys2Proof.Machine

/-! ### Addresses -/

/-- The address fold keeps the low 29 bits (R70). -/
theorem phys_eq (a : Word) : phys a = a.toNat % 2 ^ 29 := by
  simp only [phys, BitVec.toNat_and, BitVec.toNat_ofNat]
  exact Nat.and_two_pow_sub_one_eq_mod a.toNat 29

theorem phys_lt (a : Word) : phys a < 0x20000000 := by
  rw [phys_eq]; exact Nat.mod_lt _ (by decide)

/-- The low two bits of an address. -/
theorem and3_toNat (a : Word) : (a &&& 3#32).toNat = a.toNat % 4 := by
  simp only [BitVec.toNat_and, BitVec.toNat_ofNat]
  exact Nat.and_two_pow_sub_one_eq_mod a.toNat 2

theorem and1_toNat (a : Word) : (a &&& 1#32).toNat = a.toNat % 2 := by
  simp only [BitVec.toNat_and, BitVec.toNat_ofNat]
  exact Nat.and_two_pow_sub_one_eq_mod a.toNat 1

/-- The alignment check in numbers (R86). -/
theorem misaligned_eq_false_iff (n : Width) (a : Word) : misaligned n a = false ↔ a.toNat % n.bytes = 0 := by
  cases n with
  | byte => simp [misaligned, Width.bytes, Nat.mod_one]
  | half =>
    simp only [misaligned, Width.bytes, bne_eq_false_iff_eq, ← BitVec.toNat_inj, and1_toNat, BitVec.toNat_ofNat, Nat.zero_mod]
  | word =>
    simp only [misaligned, Width.bytes, bne_eq_false_iff_eq, ← BitVec.toNat_inj, and3_toNat, BitVec.toNat_ofNat, Nat.zero_mod]

theorem pcMisaligned_eq (s : State) : pcMisaligned s = misaligned .word s.pc := rfl

/-- The aligned word around an address, in numbers (R263). -/
theorem alignedWord_toNat (a : Word) : (alignedWord a).toNat = a.toNat - a.toNat % 4 := by
  have h : alignedWord a + (a &&& 3#32) = a := by
    have hd : alignedWord a &&& (a &&& 3#32) = 0#32 := by
      simp only [alignedWord]; ext i hi
      simp only [BitVec.getElem_and, BitVec.getElem_not, BitVec.getElem_zero]
      cases a[i] <;> cases (3#32)[i] <;> rfl
    rw [BitVec.add_eq_or_of_and_eq_zero _ _ hd]
    simp only [alignedWord]; ext i hi; simp only [BitVec.getElem_or, BitVec.getElem_and, BitVec.getElem_not]
    cases a[i] <;> cases (3#32)[i] <;> rfl
  have h2 := congrArg BitVec.toNat h
  rw [BitVec.toNat_add, and3_toNat] at h2
  have hle : (alignedWord a).toNat ≤ a.toNat := by
    simp only [alignedWord, BitVec.toNat_and]; exact Nat.and_le_left
  have := a.isLt
  omega

@[simp] theorem alignedWord_aligned (a : Word) : misaligned .word (alignedWord a) = false := by
  rw [misaligned_eq_false_iff, alignedWord_toNat]
  simp only [Width.bytes]; omega

/-- An aligned access stays inside its aligned word, so its bytes do not wrap (R73). -/
theorem phys_last_of_aligned {n : Width} {a : Word} (h : misaligned n a = false) :
    phys (a + BitVec.ofNat 32 (n.bytes - 1)) = phys a + (n.bytes - 1) := by
  rw [misaligned_eq_false_iff] at h
  rw [phys_eq, phys_eq, BitVec.toNat_add, BitVec.toNat_ofNat]
  cases n <;> simp only [Width.bytes] at * <;> omega

/-- Every region starts and ends on a four-byte boundary (R73). -/
theorem regionOf_in_word {p q : Nat} (h : p / 4 = q / 4) : regionOf p = regionOf q := by
  have (c : Nat) : p < 4 * c ↔ q < 4 * c := by omega
  have h1 := this (ramSize / 4)
  have h2 := this (scratchpadBase / 4)
  have h3 := this ((scratchpadBase + 0x400) / 4)
  have h4 := this (0x1F801000 / 4)
  have h5 := this (0x1F802000 / 4)
  have h6 := this (biosBase / 4)
  have h7 := this ((biosBase + biosSize) / 4)
  simp only [ramSize, scratchpadBase, biosBase, biosSize, Nat.reduceDiv, Nat.reduceAdd, Nat.reduceMul] at h1 h2 h3 h4 h5 h6 h7
  simp only [regionOf, ramSize, scratchpadBase, biosBase, biosSize, Nat.reduceAdd, ← Nat.not_lt, h1, h2, h3, h4, h5, h6, h7]

/-- An aligned access lies in one region (R73). -/
theorem spansRegions_of_aligned {n : Width} {a : Word} (h : misaligned n a = false) : spansRegions n a = false := by
  rw [spansRegions, phys_last_of_aligned h, bne_eq_false_iff_eq]
  apply regionOf_in_word
  rw [misaligned_eq_false_iff] at h
  rw [phys_eq]
  cases n <;> simp only [Width.bytes] at * <;> omega

/-- The bytes of an aligned access all lie in the region of its address (R73). -/
theorem regionOf_aligned_byte {n : Width} {a : Word} (h : misaligned n a = false) {i : Nat} (hi : i < n.bytes) :
    regionOf (phys a + i) = regionOf (phys a) := by
  apply regionOf_in_word
  rw [misaligned_eq_false_iff] at h
  rw [phys_eq]
  cases n <;> simp only [Width.bytes] at * <;> omega

/-- A word access of the I/O page touches a port only at the port's own address. -/
theorem touchesGpuPort_word_aligned {a : Word} (h : misaligned .word a = false)
    (ht : touchesGpuPort .word (phys a) = true) : phys a = gp0Port ∨ phys a = gp1Port := by
  rw [misaligned_eq_false_iff] at h
  have ht : gp0Port < phys a + 4 ∧ phys a < gp1Port + 4 := of_decide_eq_true ht
  simp only [Width.bytes] at h
  simp only [gp0Port, gp1Port] at *
  rw [phys_eq] at *
  omega

/-! ### Reads -/

/-- Everything an aligned read can answer (R72-R83). -/
theorem busRead_aligned (s : State) {n : Width} {a : Word} (h : misaligned n a = false) :
    busRead s n a =
      match regionOf (phys a) with
      | .ram | .scratchpad | .bios => .ok (s.mem.readLe n (phys a))
      | .unmapped => .ok 0#32
      | .io => ioRead s.gpu n (phys a) := by
  unfold busRead
  rw [spansRegions_of_aligned h]
  cases regionOf (phys a) <;> rfl

/-- An aligned word read always answers (R73, R79, R80). -/
theorem busRead_word_ok (s : State) {a : Word} (h : misaligned .word a = false) : ∃ v, busRead s .word a = .ok v := by
  rw [busRead_aligned s h]
  split
  · exact ⟨_, rfl⟩
  · exact ⟨_, rfl⟩
  · exact ⟨_, rfl⟩
  · exact ⟨_, rfl⟩
  · simp only [ioRead, true_and]
    split
    · exact ⟨_, rfl⟩
    · split
      · exact ⟨_, rfl⟩
      · split
        · rename_i h1 h2 h3
          rcases touchesGpuPort_word_aligned h h3 with h4 | h4
          · exact absurd h4 h1
          · exact absurd h4 h2
        · exact ⟨_, rfl⟩

/-- An aligned read is refused exactly where it is a narrow access that overlaps a GPU port (R82). -/
theorem busRead_error_iff (s : State) {n : Width} {a : Word} (h : misaligned n a = false) (r : Refusal) :
    busRead s n a = .error r ↔
      r = .narrowGpuPort ∧ n ≠ .word ∧ regionOf (phys a) = .io ∧ touchesGpuPort n (phys a) = true := by
  constructor
  · intro he
    by_cases hn : n = .word
    · subst hn
      obtain ⟨v, hv⟩ := busRead_word_ok s h
      rw [hv] at he; cases he
    · rw [busRead_aligned s h] at he
      split at he
      iterate 4 cases he
      · simp only [ioRead, hn, false_and, if_false] at he
        split at he
        · cases he; exact ⟨rfl, hn, ‹_›, ‹_›⟩
        · cases he
  · rintro ⟨rfl, hn, hio, ht⟩
    rw [busRead_aligned s h, hio]
    simp only [ioRead, hn, false_and, if_false, ht, if_true]

/-- The bytes of a GPU port lie in the I/O page. -/
theorem io_of_touchesGpuPort {n : Width} {a : Word} (h : misaligned n a = false)
    (ht : touchesGpuPort n (phys a) = true) : regionOf (phys a) = .io := by
  rw [misaligned_eq_false_iff] at h
  simp only [touchesGpuPort, gp0Port, gp1Port, decide_eq_true_eq] at ht
  have : 0x1F80180C < phys a ∧ phys a < 0x1F801818 := by
    cases n <;> simp only [Width.bytes] at ht <;> omega
  simp only [regionOf, ramSize, scratchpadBase]
  rw [if_neg (by omega), if_neg (by omega), if_pos (by omega)]

/-- A read depends on the byte arrays and on `gpuread` alone. -/
theorem busRead_congr {s t : State} (hm : s.mem = t.mem) (hg : s.gpu.gpuread = t.gpu.gpuread) (n : Width) (a : Word) :
    busRead s n a = busRead t n a := by
  simp only [busRead, ioRead, hm, hg]

/-! ### Writes -/

/-- Everything a write that answers can do: store in RAM or the scratchpad, pass a packet to GP0, or nothing (R72-R83). -/
theorem busWrite_cases {s t : State} {n : Width} {a v : Word} (h : busWrite s n a v = .ok t) :
    ((regionOf (phys a) = .ram ∨ regionOf (phys a) = .scratchpad) ∧ t = { s with mem := s.mem.writeLe n (phys a) v }) ∨
    (n = .word ∧ phys a = gp0Port ∧ t = { s with gpu := s.gpu.gp0Write v }) ∨
    t = s := by
  simp only [busWrite] at h
  split at h
  · cases h
  · split at h
    · cases h; exact .inl ⟨.inl ‹_›, rfl⟩
    · cases h; exact .inl ⟨.inr ‹_›, rfl⟩
    · cases h; exact .inr (.inr rfl)
    · cases h; exact .inr (.inr rfl)
    · simp only [ioWrite] at h
      split at h
      · rename_i hg
        split at hg
        · cases hg; cases h; rename_i hp; exact .inr (.inl ⟨hp.1, hp.2, rfl⟩)
        · split at hg
          · cases hg; cases h; exact .inr (.inr rfl)
          · split at hg
            · cases hg
            · cases hg; cases h; exact .inr (.inr rfl)
      · cases h

/-- An aligned write is refused exactly where it is a narrow access that overlaps a GPU port (R82). -/
theorem busWrite_error_iff (s : State) {n : Width} {a : Word} (h : misaligned n a = false) (v : Word) (r : Refusal) :
    busWrite s n a v = .error r ↔
      r = .narrowGpuPort ∧ n ≠ .word ∧ regionOf (phys a) = .io ∧ touchesGpuPort n (phys a) = true := by
  simp only [busWrite, spansRegions_of_aligned h, Bool.false_eq_true, if_false]
  by_cases hio : regionOf (phys a) = .io
  · simp only [hio, ioWrite, true_and]
    by_cases hn : n = .word
    · subst hn
      simp only [true_and, ne_eq, not_true_eq_false, false_and, and_false, iff_false]
      by_cases h1 : phys a = gp0Port
      · simp [h1]
      · by_cases h2 : phys a = gp1Port
        · simp [h2]
        · have h3 : touchesGpuPort .word (phys a) = false := by
            rw [← Bool.not_eq_true]
            intro h3
            rcases touchesGpuPort_word_aligned h h3 with h4 | h4
            · exact h1 h4
            · exact h2 h4
          simp [h1, h2, h3]
    · simp only [hn, false_and, if_false, ne_eq, not_false_eq_true, true_and]
      by_cases ht : touchesGpuPort n (phys a) = true
      · simp only [ht, if_true, and_true]
        exact ⟨fun h => by cases h; rfl, fun h => by rw [h]⟩
      · simp [ht]
  · simp only [hio, false_and, and_false, iff_false]
    cases hr : regionOf (phys a) <;> simp
    exact absurd hr hio

/-- An aligned word write always answers (R73, R78, R81). -/
theorem busWrite_word_ok (s : State) {a : Word} (h : misaligned .word a = false) (v : Word) :
    ∃ t, busWrite s .word a v = .ok t := by
  cases hb : busWrite s .word a v with
  | ok t => exact ⟨t, rfl⟩
  | error r => exact absurd rfl ((busWrite_error_iff s h v r).mp hb).2.1

end Sys2Proof.Machine
end

