-- ==== Sys2Proof/Laws/Exec.lean ====
section
/-! SUPPORT. What each shared operation of the meanings can answer, and, once for all instructions, every effect an
instruction can have on the state (`exec_effect`), from which invariants follow without unfolding a meaning. -/

namespace Sys2Proof.Machine

/-- A refused access refuses the instruction; otherwise the instruction goes on. -/
theorem ofAccess_next {α : Type} {x : Except Refusal α} {k : α → Result} {t : State} (h : ofAccess x k = .next t) :
    ∃ v, x = .ok v ∧ k v = .next t := by
  cases x with
  | ok v => exact ⟨v, rfl, h⟩
  | error r => cases h

theorem writeOrOverflow_next {b : Bool} {r : Reg} {v : Word} {s t : State} (h : writeOrOverflow b r v s = .next t) :
    (b = true ∧ t = takeException .ovf 0#32 s) ∨ (b = false ∧ t = s.setX r v) := by
  unfold writeOrOverflow at h
  split at h <;> cases h
  · exact .inl ⟨‹_›, rfl⟩
  · exact .inr ⟨by simpa using ‹¬ b = true›, rfl⟩

theorem load_next {n : Width} {f : Word → Word} {r : Reg} {a : Word} {s t : State} (h : load n f r a s = .next t) :
    (misaligned n a = true ∧ t = takeException .adEL a s) ∨
    (misaligned n a = false ∧ ∃ v, busRead s n a = .ok v ∧ t = installLoad r (f v) s) := by
  unfold load at h
  split at h
  · cases h; exact .inl ⟨‹_›, rfl⟩
  · obtain ⟨v, hv, ht⟩ := ofAccess_next h
    cases ht
    exact .inr ⟨by simpa using ‹¬ misaligned n a = true›, v, hv, rfl⟩

theorem loadMerged_next {f : Nat → Word → Word → Word} {r : Reg} {a : Word} {s t : State}
    (h : loadMerged f r a s = .next t) :
    ∃ w, busRead s .word (alignedWord a) = .ok w ∧ t = installLoad r (f (lane a) (s.x r) w) s := by
  obtain ⟨w, hw, ht⟩ := ofAccess_next h
  cases ht
  exact ⟨w, hw, rfl⟩

theorem store_next {n : Width} {v a : Word} {s t : State} (h : store n v a s = .next t) :
    (misaligned n a = true ∧ t = takeException .adES a s) ∨ (misaligned n a = false ∧ busWrite s n a v = .ok t) := by
  unfold store at h
  split at h
  · cases h; exact .inl ⟨‹_›, rfl⟩
  · obtain ⟨u, hu, ht⟩ := ofAccess_next h
    cases ht
    exact .inr ⟨by simpa using ‹¬ misaligned n a = true›, hu⟩

theorem storeMerged_next {f : Nat → Word → Word → Word} {r a : Word} {s t : State} (h : storeMerged f r a s = .next t) :
    ∃ m, busRead s .word (alignedWord a) = .ok m ∧ busWrite s .word (alignedWord a) (f (lane a) m r) = .ok t := by
  obtain ⟨m, hm, h⟩ := ofAccess_next h
  obtain ⟨u, hu, ht⟩ := ofAccess_next h
  cases ht
  exact ⟨m, hm, hu⟩

/-- Every effect phase 5 can have. -/
inductive Effect (s : State) : State → Prop
  | nothing : Effect s s
  | writeReg (r : Reg) (v : Word) : Effect s (s.setX r v)
  | drawReg (r : Reg) (v : Word) : Effect s ({ s with draws := s.draws + 1 }.setX r v)
  | writeHiLo (h l : Word) : Effect s { s with hi := h, lo := l }
  | jump (target : Word) : Effect s (s.jumpTo target)
  | jumpLink (target : Word) (r : Reg) (v : Word) : Effect s ((s.jumpTo target).setX r v)
  | trap (e : ExcCode) (a : Word) : Effect s (takeException e a s)
  | writeCop0 (c : Cop0) : Effect s { s with cop0 := c }
  | loadSlot (r : Reg) (v : Word) : Effect s (installLoad r v s)
  | writeMem (n : Width) (a v : Word) (aligned : misaligned n a = false)
      (writable : regionOf (phys a) = .ram ∨ regionOf (phys a) = .scratchpad) :
      Effect s { s with mem := s.mem.writeLe n (phys a) v }
  | packet (v : Word) : Effect s { s with gpu := s.gpu.gp0Write v }

theorem branchIf_effect (s : State) (b : Bool) (off : Half) : Effect s (branchIf b off s) := by
  unfold branchIf
  split
  · exact .jump _
  · exact .nothing

theorem branchIf_link_effect (s : State) (b : Bool) (off : Half) (v : Word) :
    Effect s ((branchIf b off s).linkTo linkReg v) := by
  unfold branchIf
  split
  · exact .jumpLink _ _ _
  · exact .writeReg _ _

theorem writeOrOverflow_effect {b : Bool} {r : Reg} {v : Word} {s t : State} (h : writeOrOverflow b r v s = .next t) :
    Effect s t := by
  obtain ⟨-, rfl⟩ | ⟨-, rfl⟩ := writeOrOverflow_next h
  · exact .trap _ _
  · exact .writeReg _ _

theorem load_effect {n : Width} {f : Word → Word} {r : Reg} {a : Word} {s t : State} (h : load n f r a s = .next t) :
    Effect s t := by
  obtain ⟨-, rfl⟩ | ⟨-, v, -, rfl⟩ := load_next h
  · exact .trap _ _
  · exact .loadSlot _ _

theorem loadMerged_effect {f : Nat → Word → Word → Word} {r : Reg} {a : Word} {s t : State}
    (h : loadMerged f r a s = .next t) : Effect s t := by
  obtain ⟨w, -, rfl⟩ := loadMerged_next h
  exact .loadSlot _ _

theorem busWrite_effect {n : Width} {a v : Word} {s t : State} (ha : misaligned n a = false)
    (h : busWrite s n a v = .ok t) : Effect s t := by
  obtain ⟨hr, rfl⟩ | ⟨-, -, rfl⟩ | rfl := busWrite_cases h
  · exact .writeMem n a v ha hr
  · exact .packet v
  · exact .nothing

theorem store_effect {n : Width} {v a : Word} {s t : State} (h : store n v a s = .next t) : Effect s t := by
  obtain ⟨-, rfl⟩ | ⟨ha, hw⟩ := store_next h
  · exact .trap _ _
  · exact busWrite_effect ha hw

theorem storeMerged_effect {f : Nat → Word → Word → Word} {r a : Word} {s t : State} (h : storeMerged f r a s = .next t) :
    Effect s t := by
  obtain ⟨m, -, hw⟩ := storeMerged_next h
  exact busWrite_effect (alignedWord_aligned a) hw

theorem execSw_effect {rt : Reg} {off : Half} {base : Reg} {s t : State} (h : execSw rt off base s = .next t) :
    Effect s t := by
  unfold execSw at h
  split at h
  · cases h; exact .nothing
  · exact store_effect h

theorem execMfc0_effect {rt rd : Reg} {s t : State} (h : execMfc0 rt rd s = .next t) : Effect s t := by
  unfold execMfc0 at h
  cases h
  unfold readCop0
  split
  · exact .writeReg _ _
  · exact .drawReg _ _

/-- Whatever the instruction, if it answers a next state, its effect is one of these. -/
theorem exec_effect {i : Instr} {s t : State} (h : exec i s = .next t) : Effect s t := by
  cases i with
  | addi _ _ _ => exact writeOrOverflow_effect h
  | add _ _ _ => exact writeOrOverflow_effect h
  | sub _ _ _ => exact writeOrOverflow_effect h
  | addiu _ _ _ => cases h; exact .writeReg _ _
  | slti _ _ _ => cases h; exact .writeReg _ _
  | sltiu _ _ _ => cases h; exact .writeReg _ _
  | andi _ _ _ => cases h; exact .writeReg _ _
  | ori _ _ _ => cases h; exact .writeReg _ _
  | xori _ _ _ => cases h; exact .writeReg _ _
  | lui _ _ => cases h; exact .writeReg _ _
  | sll _ _ _ => cases h; exact .writeReg _ _
  | srl _ _ _ => cases h; exact .writeReg _ _
  | sra _ _ _ => cases h; exact .writeReg _ _
  | sllv _ _ _ => cases h; exact .writeReg _ _
  | srlv _ _ _ => cases h; exact .writeReg _ _
  | srav _ _ _ => cases h; exact .writeReg _ _
  | jr _ => cases h; exact .jump _
  | jalr _ _ => cases h; exact .jumpLink _ _ _
  | syscall => cases h; exact .trap _ _
  | brk => cases h; exact .trap _ _
  | mfhi _ => cases h; exact .writeReg _ _
  | mthi _ => cases h; exact .writeHiLo _ _
  | mflo _ => cases h; exact .writeReg _ _
  | mtlo _ => cases h; exact .writeHiLo _ _
  | mult _ _ => cases h; exact .writeHiLo _ _
  | multu _ _ => cases h; exact .writeHiLo _ _
  | div _ _ => cases h; exact .writeHiLo _ _
  | divu _ _ => cases h; exact .writeHiLo _ _
  | addu _ _ _ => cases h; exact .writeReg _ _
  | subu _ _ _ => cases h; exact .writeReg _ _
  | and _ _ _ => cases h; exact .writeReg _ _
  | or _ _ _ => cases h; exact .writeReg _ _
  | xor _ _ _ => cases h; exact .writeReg _ _
  | nor _ _ _ => cases h; exact .writeReg _ _
  | slt _ _ _ => cases h; exact .writeReg _ _
  | sltu _ _ _ => cases h; exact .writeReg _ _
  | j _ => cases h; exact .jump _
  | jal _ => cases h; exact .jumpLink _ _ _
  | beq _ _ _ => cases h; exact branchIf_effect _ _ _
  | bne _ _ _ => cases h; exact branchIf_effect _ _ _
  | blez _ _ => cases h; exact branchIf_effect _ _ _
  | bgtz _ _ => cases h; exact branchIf_effect _ _ _
  | bltz _ _ => cases h; exact branchIf_effect _ _ _
  | bgez _ _ => cases h; exact branchIf_effect _ _ _
  | bltzal _ _ => cases h; exact branchIf_link_effect _ _ _ _
  | bgezal _ _ => cases h; exact branchIf_link_effect _ _ _ _
  | mfc0 _ _ => exact execMfc0_effect h
  | mtc0 _ _ => cases h; exact .writeCop0 _
  | rfe => cases h; exact .writeCop0 _
  | lb _ _ _ => simp only [exec, execLb] at h; exact load_effect h
  | lh _ _ _ => exact load_effect h
  | lwl _ _ _ => exact loadMerged_effect h
  | lw _ _ _ => exact load_effect h
  | lbu _ _ _ => simp only [exec, execLbu] at h; exact load_effect h
  | lhu _ _ _ => exact load_effect h
  | lwr _ _ _ => exact loadMerged_effect h
  | sb _ _ _ => simp only [exec, execSb] at h; exact store_effect h
  | sh _ _ _ => exact store_effect h
  | swl _ _ _ => exact storeMerged_effect h
  | sw _ _ _ => exact execSw_effect h
  | swr _ _ _ => exact storeMerged_effect h

end Sys2Proof.Machine
end

