-- ==== Sys2Proof/Laws/Host.lean ====
section
/-! SUPPORT. What the host's operations between steps can answer, and what a run of them keeps: END_OF_RUN stops it, an EXE is
injected at most once, and without one the block of a run is the block after that many steps. -/

namespace Sys2Proof.Machine

/-- What `andThen` goes on with. -/
theorem andThen_next {α β : Type} {x : Host.Outcome α Fault Refusal} {k : α → Host.Outcome β Fault Refusal} {b : β}
    (h : andThen x k = .next b) : ∃ a, x = .next a ∧ k a = .next b := by
  cases x with
  | next a => exact ⟨a, rfl, h⟩
  | fault f => cases h
  | refused q => cases h

/-- The prefetch answers what the bus reads at `pc`. -/
theorem prefetch_of_ok {s : State} {w : Word} (h : busRead s .word s.pc = .ok w) :
    prefetch s = .next { s with instruction := w } := by
  unfold prefetch fetch
  rw [h]
  rfl

/-- The prefetch is refused exactly where the bus refuses the read. -/
theorem prefetch_of_error {s : State} {q : Refusal} (h : busRead s .word s.pc = .error q) : prefetch s = .refused q := by
  unfold prefetch fetch
  rw [h]
  rfl

/-- Everything a prefetch that answers can do. -/
theorem prefetch_next {s t : State} (h : prefetch s = .next t) :
    ∃ w, busRead s .word s.pc = .ok w ∧ t = { s with instruction := w } := by
  cases hr : busRead s .word s.pc with
  | ok w =>
    rw [prefetch_of_ok hr] at h
    cases h
    exact ⟨w, rfl, rfl⟩
  | error q =>
    rw [prefetch_of_error hr] at h
    cases h

/-- `set_pc` of an aligned address always answers. -/
theorem setPc_of_aligned (s : State) {p : Word} (h : misaligned .word p = false) : ∃ t, setPc p s = .next t := by
  obtain ⟨w, hw⟩ := busRead_word_ok { s with pc := p, nextPc := p + 4#32 } h
  exact ⟨_, prefetch_of_ok hw⟩

/-- An EXE whose payload is there and fits is copied, and its initial PC set (R365). -/
theorem injectExe_of_fits {file : List Byte} (s : State)
    (hf : 0x800 + (exeField file 0x1C).toNat ≤ file.length)
    (hr : phys (exeField file 0x18) + (exeField file 0x1C).toNat ≤ ramSize) :
    injectExe file s = setPc (exeField file 0x10) { s with
      mem := s.mem.writeBytes (phys (exeField file 0x18)) ((file.drop 0x800).take (exeField file 0x1C).toNat) } := by
  unfold injectExe
  exact if_neg (by omega)

/-- END_OF_RUN stops a run at once, however many turns it may still take (R368). -/
theorem hostRun_of_stop {endOfRun : State → Bool} {r : Session} (h : endOfRun r.block = true) (n : Nat) :
    hostRun endOfRun n r = .next r := by
  cases n with
  | zero => rfl
  | succ n => simp only [hostRun, h, if_true]

theorem injectIfDue_of_none {r : Session} (h : r.exe = none) : injectIfDue r = .next r := by
  unfold injectIfDue
  rw [h]

/-- An injection leaves no file to inject; otherwise the session is unchanged (R365). -/
theorem injectIfDue_next {r t : Session} (h : injectIfDue r = .next t) : t = r ∨ t.exe = none := by
  unfold injectIfDue at h
  split at h
  · cases h
    exact .inl rfl
  · split at h
    · obtain ⟨s, _, hs⟩ := andThen_next h
      cases hs
      exact .inr rfl
    · cases h
      exact .inl rfl

@[simp] theorem observe_block (r : Session) : (observe r).block = r.block := by
  unfold observe
  split <;> rfl

@[simp] theorem observe_exe (r : Session) : (observe r).exe = r.exe := by
  unfold observe
  split <;> rfl

/-- A turn with no file to inject is one step of the block, and leaves no file. -/
theorem hostTurn_next_of_none {r t : Session} (h : r.exe = none) (ht : hostTurn r = .next t) :
    step r.block = .next t.block ∧ t.exe = none := by
  unfold hostTurn at ht
  rw [injectIfDue_of_none h] at ht
  obtain ⟨q, hq, ht⟩ := andThen_next ht
  cases hq
  obtain ⟨s, hs, he⟩ := andThen_next ht
  cases he
  exact ⟨hs, (observe_exe r).trans h⟩

/-- Once nothing is left to inject, a run injects nothing: an EXE is injected at most once (R365, D33). -/
theorem hostRun_exe_none {endOfRun : State → Bool} (n : Nat) {r t : Session} (h : r.exe = none)
    (ht : hostRun endOfRun n r = .next t) : t.exe = none := by
  induction n generalizing r with
  | zero =>
    cases ht
    exact h
  | succ n ih =>
    unfold hostRun at ht
    split at ht
    · cases ht
      exact h
    · obtain ⟨q, hq, hr⟩ := andThen_next ht
      exact ih (hostTurn_next_of_none h hq).2 hr

/-- A run goes on from the first step's next state. -/
theorem run_succ_of_next {M : Host.Core} {s s' : M.State} (h : M.step s = .next s') (n : Nat) :
    M.run (n + 1) s = M.run n s' := by
  simp only [Host.Core.run, h]

/-- With nothing to inject and a host that never stops, the block of a run is the block after that many steps. -/
theorem hostRun_block (n : Nat) {r t : Session} (h : r.exe = none) (ht : hostRun (fun _ => false) n r = .next t) :
    Sys2Proof.core.run n r.block = .next t.block := by
  induction n generalizing r with
  | zero =>
    cases ht
    rfl
  | succ n ih =>
    obtain ⟨q, hq, hr⟩ := andThen_next ht
    obtain ⟨hs, he⟩ := hostTurn_next_of_none h hq
    exact (run_succ_of_next (M := Sys2Proof.core) hs n).trans (ih he hr)

end Sys2Proof.Machine
end

