-- ==== Sys2Proof/Laws/PerInstr.lean ====
section
/-! SUPPORT. Per-instruction lemmas. RoundTrip: decoding the canonical word of a well-formed instruction gives it back. -/

set_option Elab.async false

namespace Sys2Proof.Laws.RoundTrip

/-- The round trip of one instruction through its canonical word. -/
def Statement (i : Instr) : Prop := i.wf = true → decode (encode i) = .ok i

/-- A shift amount that fits survives its five bits. -/
theorem shamt_survives {n : Nat} (h : shamtFits n = true) : (BitVec.ofNat 5 n).toNat = n := by
  simp only [shamtFits, decide_eq_true_eq] at h
  simp only [BitVec.toNat_ofNat]
  omega

theorem addi (rt rs : Reg) (imm : Half) : Statement (.addi rt rs imm) := by
  intro _; simp [encode, decode, iEnc, rsOf, rtOf]

theorem addiu (rt rs : Reg) (imm : Half) : Statement (.addiu rt rs imm) := by
  intro _; simp [encode, decode, iEnc, rsOf, rtOf]

theorem slti (rt rs : Reg) (imm : Half) : Statement (.slti rt rs imm) := by
  intro _; simp [encode, decode, iEnc, rsOf, rtOf]

theorem sltiu (rt rs : Reg) (imm : Half) : Statement (.sltiu rt rs imm) := by
  intro _; simp [encode, decode, iEnc, rsOf, rtOf]

theorem andi (rt rs : Reg) (imm : Half) : Statement (.andi rt rs imm) := by
  intro _; simp [encode, decode, iEnc, rsOf, rtOf]

theorem ori (rt rs : Reg) (imm : Half) : Statement (.ori rt rs imm) := by
  intro _; simp [encode, decode, iEnc, rsOf, rtOf]

theorem xori (rt rs : Reg) (imm : Half) : Statement (.xori rt rs imm) := by
  intro _; simp [encode, decode, iEnc, rsOf, rtOf]

theorem lui (rt : Reg) (imm : Half) : Statement (.lui rt imm) := by
  intro _; simp [encode, decode, iEnc, rtOf]

theorem sll (rd rt : Reg) (shamt : Nat) : Statement (.sll rd rt shamt) := by
  intro h; simp [encode, decode, decodeSpecial, rtOf, rdOf, shamtOf, shamt_survives h]

theorem srl (rd rt : Reg) (shamt : Nat) : Statement (.srl rd rt shamt) := by
  intro h; simp [encode, decode, decodeSpecial, rtOf, rdOf, shamtOf, shamt_survives h]

theorem sra (rd rt : Reg) (shamt : Nat) : Statement (.sra rd rt shamt) := by
  intro h; simp [encode, decode, decodeSpecial, rtOf, rdOf, shamtOf, shamt_survives h]

theorem sllv (rd rt rs : Reg) : Statement (.sllv rd rt rs) := by
  intro _; simp [encode, decode, decodeSpecial, rEnc, rsOf, rtOf, rdOf]

theorem srlv (rd rt rs : Reg) : Statement (.srlv rd rt rs) := by
  intro _; simp [encode, decode, decodeSpecial, rEnc, rsOf, rtOf, rdOf]

theorem srav (rd rt rs : Reg) : Statement (.srav rd rt rs) := by
  intro _; simp [encode, decode, decodeSpecial, rEnc, rsOf, rtOf, rdOf]

theorem jr (rs : Reg) : Statement (.jr rs) := by
  intro _; simp [encode, decode, decodeSpecial, rEnc, rsOf]

theorem jalr (rd rs : Reg) : Statement (.jalr rd rs) := by
  intro _; simp [encode, decode, decodeSpecial, rEnc, rsOf, rdOf]

theorem syscall : Statement (.syscall) := by
  intro _; simp [encode, decode, decodeSpecial, rEnc]

theorem brk : Statement (.brk) := by
  intro _; simp [encode, decode, decodeSpecial, rEnc]

theorem mfhi (rd : Reg) : Statement (.mfhi rd) := by
  intro _; simp [encode, decode, decodeSpecial, rEnc, rdOf]

theorem mthi (rs : Reg) : Statement (.mthi rs) := by
  intro _; simp [encode, decode, decodeSpecial, rEnc, rsOf]

theorem mflo (rd : Reg) : Statement (.mflo rd) := by
  intro _; simp [encode, decode, decodeSpecial, rEnc, rdOf]

theorem mtlo (rs : Reg) : Statement (.mtlo rs) := by
  intro _; simp [encode, decode, decodeSpecial, rEnc, rsOf]

theorem mult (rs rt : Reg) : Statement (.mult rs rt) := by
  intro _; simp [encode, decode, decodeSpecial, rEnc, rsOf, rtOf]

theorem multu (rs rt : Reg) : Statement (.multu rs rt) := by
  intro _; simp [encode, decode, decodeSpecial, rEnc, rsOf, rtOf]

theorem div (rs rt : Reg) : Statement (.div rs rt) := by
  intro _; simp [encode, decode, decodeSpecial, rEnc, rsOf, rtOf]

theorem divu (rs rt : Reg) : Statement (.divu rs rt) := by
  intro _; simp [encode, decode, decodeSpecial, rEnc, rsOf, rtOf]

theorem add (rd rs rt : Reg) : Statement (.add rd rs rt) := by
  intro _; simp [encode, decode, decodeSpecial, rEnc, rsOf, rtOf, rdOf]

theorem addu (rd rs rt : Reg) : Statement (.addu rd rs rt) := by
  intro _; simp [encode, decode, decodeSpecial, rEnc, rsOf, rtOf, rdOf]

theorem sub (rd rs rt : Reg) : Statement (.sub rd rs rt) := by
  intro _; simp [encode, decode, decodeSpecial, rEnc, rsOf, rtOf, rdOf]

theorem subu (rd rs rt : Reg) : Statement (.subu rd rs rt) := by
  intro _; simp [encode, decode, decodeSpecial, rEnc, rsOf, rtOf, rdOf]

theorem and (rd rs rt : Reg) : Statement (.and rd rs rt) := by
  intro _; simp [encode, decode, decodeSpecial, rEnc, rsOf, rtOf, rdOf]

theorem or (rd rs rt : Reg) : Statement (.or rd rs rt) := by
  intro _; simp [encode, decode, decodeSpecial, rEnc, rsOf, rtOf, rdOf]

theorem xor (rd rs rt : Reg) : Statement (.xor rd rs rt) := by
  intro _; simp [encode, decode, decodeSpecial, rEnc, rsOf, rtOf, rdOf]

theorem nor (rd rs rt : Reg) : Statement (.nor rd rs rt) := by
  intro _; simp [encode, decode, decodeSpecial, rEnc, rsOf, rtOf, rdOf]

theorem slt (rd rs rt : Reg) : Statement (.slt rd rs rt) := by
  intro _; simp [encode, decode, decodeSpecial, rEnc, rsOf, rtOf, rdOf]

theorem sltu (rd rs rt : Reg) : Statement (.sltu rd rs rt) := by
  intro _; simp [encode, decode, decodeSpecial, rEnc, rsOf, rtOf, rdOf]

theorem j (target : BitVec 26) : Statement (.j target) := by
  intro _; simp [encode, decode]

theorem jal (target : BitVec 26) : Statement (.jal target) := by
  intro _; simp [encode, decode]

theorem beq (rs rt : Reg) (off : Half) : Statement (.beq rs rt off) := by
  intro _; simp [encode, decode, iEnc, rsOf, rtOf]

theorem bne (rs rt : Reg) (off : Half) : Statement (.bne rs rt off) := by
  intro _; simp [encode, decode, iEnc, rsOf, rtOf]

theorem blez (rs : Reg) (off : Half) : Statement (.blez rs off) := by
  intro _; simp [encode, decode, iEnc, rsOf]

theorem bgtz (rs : Reg) (off : Half) : Statement (.bgtz rs off) := by
  intro _; simp [encode, decode, iEnc, rsOf]

theorem bltz (rs : Reg) (off : Half) : Statement (.bltz rs off) := by
  intro _; simp [encode, decode, decodeBcond, rsOf]

theorem bgez (rs : Reg) (off : Half) : Statement (.bgez rs off) := by
  intro _; simp [encode, decode, decodeBcond, rsOf]

theorem bltzal (rs : Reg) (off : Half) : Statement (.bltzal rs off) := by
  intro _; simp [encode, decode, decodeBcond, rsOf]

theorem bgezal (rs : Reg) (off : Half) : Statement (.bgezal rs off) := by
  intro _; simp [encode, decode, decodeBcond, rsOf]

theorem mfc0 (rt rd : Reg) : Statement (.mfc0 rt rd) := by
  intro _; simp [encode, decode, decodeCop0, rtOf, rdOf]

theorem mtc0 (rt rd : Reg) : Statement (.mtc0 rt rd) := by
  intro _; simp [encode, decode, decodeCop0, rtOf, rdOf]

theorem rfe : Statement (.rfe) := by
  intro _; simp [encode, decode, decodeCop0]

theorem lb (rt : Reg) (off : Half) (base : Reg) : Statement (.lb rt off base) := by
  intro _; simp [encode, decode, iEnc, rsOf, rtOf]

theorem lh (rt : Reg) (off : Half) (base : Reg) : Statement (.lh rt off base) := by
  intro _; simp [encode, decode, iEnc, rsOf, rtOf]

theorem lwl (rt : Reg) (off : Half) (base : Reg) : Statement (.lwl rt off base) := by
  intro _; simp [encode, decode, iEnc, rsOf, rtOf]

theorem lw (rt : Reg) (off : Half) (base : Reg) : Statement (.lw rt off base) := by
  intro _; simp [encode, decode, iEnc, rsOf, rtOf]

theorem lbu (rt : Reg) (off : Half) (base : Reg) : Statement (.lbu rt off base) := by
  intro _; simp [encode, decode, iEnc, rsOf, rtOf]

theorem lhu (rt : Reg) (off : Half) (base : Reg) : Statement (.lhu rt off base) := by
  intro _; simp [encode, decode, iEnc, rsOf, rtOf]

theorem lwr (rt : Reg) (off : Half) (base : Reg) : Statement (.lwr rt off base) := by
  intro _; simp [encode, decode, iEnc, rsOf, rtOf]

theorem sb (rt : Reg) (off : Half) (base : Reg) : Statement (.sb rt off base) := by
  intro _; simp [encode, decode, iEnc, rsOf, rtOf]

theorem sh (rt : Reg) (off : Half) (base : Reg) : Statement (.sh rt off base) := by
  intro _; simp [encode, decode, iEnc, rsOf, rtOf]

theorem swl (rt : Reg) (off : Half) (base : Reg) : Statement (.swl rt off base) := by
  intro _; simp [encode, decode, iEnc, rsOf, rtOf]

theorem sw (rt : Reg) (off : Half) (base : Reg) : Statement (.sw rt off base) := by
  intro _; simp [encode, decode, iEnc, rsOf, rtOf]

theorem swr (rt : Reg) (off : Half) (base : Reg) : Statement (.swr rt off base) := by
  intro _; simp [encode, decode, iEnc, rsOf, rtOf]

end Sys2Proof.Laws.RoundTrip
end

