-- ==== Sys2Proof/Laws/Step.lean ====
section
/-! SUPPORT. The step as its phases (R130): the fetch always answers, and what a step that answers a next state has done. -/

namespace Sys2Proof.Machine

/-- The fetch after the alignment check always answers (R73, R133). -/
theorem fetch_ok (s : State) : ∃ w, fetch (checkFetch s) = .ok w :=
  busRead_word_ok _ (by rw [← pcMisaligned_eq]; exact checkFetch_aligned s)

/-- A step is the execution of the fetched word, finished (R130). -/
theorem step_eq {s : State} {w : Word} (h : fetch (checkFetch (retireLoad s)) = .ok w) :
    step s = finishStep (execWord w (advance w (checkFetch (retireLoad s)))) := by
  simp only [step, h, ofAccess]

theorem finishStep_next {r : Result} {t : State} (h : finishStep r = .next t) :
    ∃ u, r = .next u ∧ t = clearX0 (refetch u) := by
  cases r with
  | next u => cases h; exact ⟨u, rfl, rfl⟩
  | fault f => cases h
  | refused q => cases h

/-- What a step that answers a next state has done. -/
theorem step_next {s t : State} (h : step s = .next t) :
    ∃ w u, fetch (checkFetch (retireLoad s)) = .ok w ∧
      execWord w (advance w (checkFetch (retireLoad s))) = .next u ∧ t = clearX0 (refetch u) := by
  obtain ⟨w, hw⟩ := fetch_ok (retireLoad s)
  rw [step_eq hw] at h
  obtain ⟨u, hu, rfl⟩ := finishStep_next h
  exact ⟨w, u, hw, hu, rfl⟩

/-- Phase 5 has one of the effects of an instruction, or none (R135, R136). -/
theorem execWord_effect {w : Word} {s t : State} (h : execWord w s = .next t) : Effect s t := by
  unfold execWord at h
  split at h
  · exact exec_effect h
  · cases h; exact .nothing

/-- Everything a step can do, phase by phase. -/
theorem step_effect {s t : State} (h : step s = .next t) :
    ∃ w u, fetch (checkFetch (retireLoad s)) = .ok w ∧
      Effect (advance w (checkFetch (retireLoad s))) u ∧ t = clearX0 (refetch u) := by
  obtain ⟨w, u, hw, hu, ht⟩ := step_next h
  exact ⟨w, u, hw, execWord_effect hu, ht⟩

/-- The stored register 0 is untouched by the phases before the last one. -/
@[simp] theorem advance_regs_zero (w : Word) (s : State) : (advance w s).regs[0] = s.regs[0] := rfl

/-- A refused access is the only thing that stops phase 5: there are no faults. -/
theorem no_fault (s : State) (f : Fault) : step s ≠ .fault f := by cases f

end Sys2Proof.Machine
end

