-- ==== Sys2Proof/Tests/Slice0.lean ====
section
/-! SUPPORT. Tests: words and results taken from the spec (95_test_vectors.md by its vector's name, and the examples of the
rules), and for each statement with hypotheses a witness that meets them. Each test is about one step, one decoding or one
GP0 packet sequence of a few words. -/

set_option Elab.async false

namespace Sys2Proof.Tests

open Sys2Proof.Machine Sys2Proof.Claims

/-- The vectors' start: reset, the word at RAM 0x1000, `set_pc(0x1000)`, then what the vector seeds. -/
def boot (w : Word) (seed : State → State := id) : State :=
  seed { State.reset with pc := 0x1000#32, nextPc := 0x1004#32, instruction := w, mem := Memory.writeLe [] .word 0x1000 w }

/-- Two registers seeded. -/
def regs2 (a b : Word) (s : State) : State := (s.setX 8 a).setX 9 b

/-- A word of RAM seeded. -/
def word (p : Nat) (v : Word) (s : State) : State := { s with mem := s.mem.writeLe .word p v }

/-- SR and Cause seeded. -/
def status (sr cause : Word) (s : State) : State := { s with cop0 := { s.cop0 with sr := sr, cause := cause } }

/-- The word of the byte arrays at a physical address. -/
def wordAt (s : State) (p : Nat) : Word := s.mem.readLe .word p

/-- The answer is a next state that passes the check. -/
def next? (r : Result) (check : State → Bool) : Bool :=
  match r with
  | .next t => check t
  | .fault _ => false
  | .refused _ => false

/-- One step from `s` ends in a state that passes the check. -/
def after (s : State) (check : State → Bool) : Bool := next? (step s) check

/-- What a passed check says of the answer. -/
theorem next_of_check {r : Result} {check : State → Bool} (h : next? r check = true) : ∃ t, r = .next t ∧ check t = true := by
  cases r with
  | next t => exact ⟨t, rfl, h⟩
  | fault f => exact absurd h Bool.false_ne_true
  | refused q => exact absurd h Bool.false_ne_true

/-! ### Well-formedness: the one check, and the terms it refuses -/

theorem test_wf_refuses_sll_32 : (Instr.sll 1 2 32).wf = false := by decide
theorem test_wf_refuses_srl_32 : (Instr.srl 1 2 32).wf = false := by decide
theorem test_wf_refuses_sra_33 : (Instr.sra 1 2 33).wf = false := by decide
theorem test_wf_accepts_sll_31 : (Instr.sll 1 2 31).wf = true := by decide

/-! ### Decoding: words written out in the spec (2.1-2.7), every constructor -/

theorem test_decode_immediate :
    decode 0x2109FFFF#32 = .ok (.addi 9 8 0xFFFF#16) ∧
    decode 0x25098000#32 = .ok (.addiu 9 8 0x8000#16) ∧
    decode 0x29097FFF#32 = .ok (.slti 9 8 0x7FFF#16) ∧
    decode 0x2D09FFFF#32 = .ok (.sltiu 9 8 0xFFFF#16) ∧
    decode 0x3109FF00#32 = .ok (.andi 9 8 0xFF00#16) ∧
    decode 0x35085678#32 = .ok (.ori 8 8 0x5678#16) ∧
    decode 0x39098000#32 = .ok (.xori 9 8 0x8000#16) ∧
    decode 0x3C081234#32 = .ok (.lui 8 0x1234#16) :=
  ⟨rfl, rfl, rfl, rfl, rfl, rfl, rfl, rfl⟩

theorem test_decode_shift :
    decode 0x01095100#32 = .ok (.sll 10 9 4) ∧
    decode 0x01095102#32 = .ok (.srl 10 9 4) ∧
    decode 0x010957C3#32 = .ok (.sra 10 9 31) ∧
    decode 0x01095004#32 = .ok (.sllv 10 9 8) ∧
    decode 0x01095006#32 = .ok (.srlv 10 9 8) ∧
    decode 0x01095007#32 = .ok (.srav 10 9 8) :=
  ⟨rfl, rfl, rfl, rfl, rfl, rfl⟩

theorem test_decode_register :
    decode 0x01095020#32 = .ok (.add 10 8 9) ∧
    decode 0x01095021#32 = .ok (.addu 10 8 9) ∧
    decode 0x01095022#32 = .ok (.sub 10 8 9) ∧
    decode 0x01095023#32 = .ok (.subu 10 8 9) ∧
    decode 0x01095024#32 = .ok (.and 10 8 9) ∧
    decode 0x01004825#32 = .ok (.or 9 8 0) ∧
    decode 0x01095026#32 = .ok (.xor 10 8 9) ∧
    decode 0x01095027#32 = .ok (.nor 10 8 9) ∧
    decode 0x0109502A#32 = .ok (.slt 10 8 9) ∧
    decode 0x0109502B#32 = .ok (.sltu 10 8 9) :=
  ⟨rfl, rfl, rfl, rfl, rfl, rfl, rfl, rfl, rfl, rfl⟩

theorem test_decode_hilo :
    decode 0x00005010#32 = .ok (.mfhi 10) ∧
    decode 0x01000011#32 = .ok (.mthi 8) ∧
    decode 0x00005012#32 = .ok (.mflo 10) ∧
    decode 0x01000013#32 = .ok (.mtlo 8) ∧
    decode 0x01090018#32 = .ok (.mult 8 9) ∧
    decode 0x01090019#32 = .ok (.multu 8 9) ∧
    decode 0x0100001A#32 = .ok (.div 8 0) ∧
    decode 0x0109001B#32 = .ok (.divu 8 9) :=
  ⟨rfl, rfl, rfl, rfl, rfl, rfl, rfl, rfl⟩

theorem test_decode_jump :
    decode 0x08000800#32 = .ok (.j 0x800#26) ∧
    decode 0x0C000800#32 = .ok (.jal 0x800#26) ∧
    decode 0x03E00008#32 = .ok (.jr 31) ∧
    decode 0x01004809#32 = .ok (.jalr 9 8) ∧
    decode 0x11090004#32 = .ok (.beq 8 9 4#16) ∧
    decode 0x1509FFFF#32 = .ok (.bne 8 9 0xFFFF#16) ∧
    decode 0x19000004#32 = .ok (.blez 8 4#16) ∧
    decode 0x1D000004#32 = .ok (.bgtz 8 4#16) :=
  ⟨rfl, rfl, rfl, rfl, rfl, rfl, rfl, rfl⟩

theorem test_decode_bcond :
    decode 0x05000004#32 = .ok (.bltz 8 4#16) ∧
    decode 0x05020004#32 = .ok (.bltz 8 4#16) ∧
    decode 0x05010004#32 = .ok (.bgez 8 4#16) ∧
    decode 0x05100004#32 = .ok (.bltzal 8 4#16) ∧
    decode 0x05110004#32 = .ok (.bgezal 8 4#16) ∧
    decode 0x051F0004#32 = .ok (.bgezal 8 4#16) :=
  ⟨rfl, rfl, rfl, rfl, rfl, rfl⟩

theorem test_decode_system :
    decode 0x0000000C#32 = .ok .syscall ∧
    decode 0x03FFFFCC#32 = .ok .syscall ∧
    decode 0x0000000D#32 = .ok .brk ∧
    decode 0x40086800#32 = .ok (.mfc0 8 13) ∧
    decode 0x40886000#32 = .ok (.mtc0 8 12) ∧
    decode 0x42000010#32 = .ok .rfe ∧
    decode 0x40400010#32 = .ok .rfe ∧
    decode 0x43FFFFD0#32 = .ok .rfe :=
  ⟨rfl, rfl, rfl, rfl, rfl, rfl, rfl, rfl⟩

theorem test_decode_load :
    decode 0x80090100#32 = .ok (.lb 9 0x100#16 0) ∧
    decode 0x90090100#32 = .ok (.lbu 9 0x100#16 0) ∧
    decode 0x84090101#32 = .ok (.lh 9 0x101#16 0) ∧
    decode 0x94090100#32 = .ok (.lhu 9 0x100#16 0) ∧
    decode 0x8C080000#32 = .ok (.lw 8 0#16 0) ∧
    decode 0x88080100#32 = .ok (.lwl 8 0x100#16 0) ∧
    decode 0x98080100#32 = .ok (.lwr 8 0x100#16 0) :=
  ⟨rfl, rfl, rfl, rfl, rfl, rfl, rfl⟩

theorem test_decode_store :
    decode 0xA0080101#32 = .ok (.sb 8 0x101#16 0) ∧
    decode 0xA4080102#32 = .ok (.sh 8 0x102#16 0) ∧
    decode 0xAC080002#32 = .ok (.sw 8 2#16 0) ∧
    decode 0xA8080100#32 = .ok (.swl 8 0x100#16 0) ∧
    decode 0xB8080100#32 = .ok (.swr 8 0x100#16 0) :=
  ⟨rfl, rfl, rfl, rfl, rfl⟩

theorem test_decode_illegal :
    decode 0x9C080100#32 = .error (.unknownOp 0x27#6) ∧ decode 0x42000001#32 = .error (.unhandledCop0 0x10#5 0x01#6) ∧
    decode 0x00000001#32 = .error (.unknownFunct 0x01#6) := ⟨rfl, rfl, rfl⟩

theorem test_decode_bytes : decodeBytes [0x34#8, 0x12#8, 0x08#8, 0x3C#8, 0xFF#8] = .ok (.lui 8 0x1234#16, [0xFF#8]) := rfl
theorem test_decode_three_bytes : decodeBytes [0x34#8, 0x12#8, 0x08#8] = .error .tooShort := rfl
theorem test_decode_table_word : decodeTableWord 32 0x3C081234 = some (.lui 8 0x1234#16) := by decide

/-! ### One step per vector -/

-- 2.2
theorem test_addi_AI1 : after (boot 0x2109FFFF#32 (regs2 5#32 0#32)) (fun t => t.x 9 == 4#32) = true := by decide
theorem test_addi_AI2_overflows : after (boot 0x21090001#32 (regs2 0x7FFFFFFF#32 0#32)) (fun t => t.cop0.cause == 0x30#32 && t.cop0.epc == 0x1000#32 && t.pc == 0x80000080#32 && t.nextPc == 0x80000084#32 && t.x 9 == 0#32) = true := by decide
theorem test_addiu_AI5 : after (boot 0x25090001#32 (regs2 0x7FFFFFFF#32 0#32)) (fun t => t.x 9 == 0x80000000#32) = true := by decide
theorem test_addiu_AI6 : after (boot 0x25098000#32 (regs2 0#32 0#32)) (fun t => t.x 9 == 0xFFFF8000#32) = true := by decide
theorem test_slti_AI8 : after (boot 0x2909FFFF#32 (regs2 5#32 0#32)) (fun t => t.x 9 == 0#32) = true := by decide
theorem test_slti_AI9 : after (boot 0x29097FFF#32 (regs2 0x80000000#32 0#32)) (fun t => t.x 9 == 1#32) = true := by decide
theorem test_sltiu_AI10 : after (boot 0x2D09FFFF#32 (regs2 5#32 0#32)) (fun t => t.x 9 == 1#32) = true := by decide
theorem test_sltiu_AI12 : after (boot 0x2D090000#32 (regs2 0#32 7#32)) (fun t => t.x 9 == 0#32) = true := by decide
theorem test_andi_AI13 : after (boot 0x3109FF00#32 (regs2 0x12345678#32 0#32)) (fun t => t.x 9 == 0x5600#32) = true := by decide
theorem test_ori_AI14 : after (boot 0x35098001#32 (regs2 0x80000000#32 0#32)) (fun t => t.x 9 == 0x80008001#32) = true := by decide
theorem test_xori_AI15 : after (boot 0x39098000#32 (regs2 0xFFFFFFFF#32 0#32)) (fun t => t.x 9 == 0xFFFF7FFF#32) = true := by decide
theorem test_lui_AI16 : after (boot 0x3D098001#32 (regs2 0xFFFFFFFF#32 0#32)) (fun t => t.x 9 == 0x80010000#32) = true := by decide
-- 2.3
theorem test_sll_SA1 : after (boot 0x01095100#32 (regs2 0#32 0x80000001#32)) (fun t => t.x 10 == 0x10#32) = true := by decide
theorem test_srl_SA2 : after (boot 0x01095102#32 (regs2 0#32 0x80000001#32)) (fun t => t.x 10 == 0x08000000#32) = true := by decide
theorem test_sra_SA3 : after (boot 0x01095103#32 (regs2 0#32 0x80000001#32)) (fun t => t.x 10 == 0xF8000000#32) = true := by decide
theorem test_sllv_SA6 : after (boot 0x01095004#32 (regs2 33#32 1#32)) (fun t => t.x 10 == 2#32) = true := by decide
theorem test_srlv_SA7 : after (boot 0x01095006#32 (regs2 31#32 0x80000000#32)) (fun t => t.x 10 == 1#32) = true := by decide
theorem test_srav_SA8 : after (boot 0x01095007#32 (regs2 0xFFFFFFFF#32 0x80000000#32)) (fun t => t.x 10 == 0xFFFFFFFF#32) = true := by decide
theorem test_srav_SA9 : after (boot 0x01095007#32 (regs2 32#32 0x80000000#32)) (fun t => t.x 10 == 0x80000000#32) = true := by decide
theorem test_add_SA10 : after (boot 0x01095020#32 (regs2 0x7FFFFFFF#32 1#32)) (fun t => t.cop0.cause == 0x30#32 && t.cop0.epc == 0x1000#32 && t.pc == 0x80000080#32 && t.nextPc == 0x80000084#32 && t.x 10 == 0#32) = true := by decide
theorem test_add_SA12 : after (boot 0x01095020#32 (regs2 0xFFFFFFFF#32 0xFFFFFFFF#32)) (fun t => t.x 10 == 0xFFFFFFFE#32) = true := by decide
theorem test_addu_SA27 : after (boot 0x01084021#32 (regs2 0x40000000#32 0#32)) (fun t => t.x 8 == 0x80000000#32) = true := by decide
theorem test_sub_SA15 : after (boot 0x01095022#32 (regs2 0#32 0x80000000#32)) (fun t => t.cop0.cause == 0x30#32 && t.cop0.epc == 0x1000#32 && t.pc == 0x80000080#32 && t.nextPc == 0x80000084#32) = true := by decide
theorem test_sub_SA16 : after (boot 0x01095022#32 (regs2 5#32 7#32)) (fun t => t.x 10 == 0xFFFFFFFE#32) = true := by decide
theorem test_subu_SA17 : after (boot 0x01095023#32 (regs2 0#32 1#32)) (fun t => t.x 10 == 0xFFFFFFFF#32) = true := by decide
theorem test_and_SA18 : after (boot 0x01095024#32 (regs2 0xF0F0F0F0#32 0x0FF00FF0#32)) (fun t => t.x 10 == 0x00F000F0#32) = true := by decide
theorem test_or_SA19 : after (boot 0x01095025#32 (regs2 0xF0F0F0F0#32 0x0F0F0000#32)) (fun t => t.x 10 == 0xFFFFF0F0#32) = true := by decide
theorem test_xor_SA20 : after (boot 0x01095026#32 (regs2 0xFFFF0000#32 0xFF00FF00#32)) (fun t => t.x 10 == 0x00FFFF00#32) = true := by decide
theorem test_nor_SA21 : after (boot 0x01095027#32 (regs2 0xF0F0F0F0#32 0x0F0F0000#32)) (fun t => t.x 10 == 0x00000F0F#32) = true := by decide
theorem test_slt_SA24 : after (boot 0x0109502A#32 (regs2 0#32 0xFFFFFFFF#32)) (fun t => t.x 10 == 0#32) = true := by decide
theorem test_slt_SA23 : after (boot 0x0109502A#32 (regs2 0xFFFFFFFF#32 0#32)) (fun t => t.x 10 == 1#32) = true := by decide
theorem test_sltu_SA25 : after (boot 0x0109502B#32 (regs2 0#32 0xFFFFFFFF#32)) (fun t => t.x 10 == 1#32) = true := by decide
-- 2.4
theorem test_mult_MD3 : after (boot 0x01090018#32 (regs2 0xFFFFFFFF#32 2#32)) (fun t => t.hi == 0xFFFFFFFF#32 && t.lo == 0xFFFFFFFE#32) = true := by decide
theorem test_mult_MD5 : after (boot 0x01090018#32 (regs2 0x80000000#32 0xFFFFFFFF#32)) (fun t => t.hi == 0#32 && t.lo == 0x80000000#32) = true := by decide
theorem test_multu_MD6 : after (boot 0x01090019#32 (regs2 0xFFFFFFFF#32 0xFFFFFFFF#32)) (fun t => t.hi == 0xFFFFFFFE#32 && t.lo == 1#32) = true := by decide
theorem test_div_MD8 : after (boot 0x0109001A#32 (regs2 7#32 0xFFFFFFFE#32)) (fun t => t.hi == 1#32 && t.lo == 0xFFFFFFFD#32) = true := by decide
theorem test_div_MD12 : after (boot 0x0109001A#32 (regs2 0xFFFFFFFB#32 0#32)) (fun t => t.hi == 0xFFFFFFFB#32 && t.lo == 1#32) = true := by decide
theorem test_divu_MD16 : after (boot 0x0109001B#32 (regs2 0xFFFFFFFB#32 0#32)) (fun t => t.hi == 0xFFFFFFFB#32 && t.lo == 0xFFFFFFFF#32) = true := by decide
theorem test_divu_MD18 : after (boot 0x0109001B#32 (regs2 0x80000000#32 0xFFFFFFFF#32)) (fun t => t.hi == 0x80000000#32 && t.lo == 0#32) = true := by decide
theorem test_mthi_R188 : after (boot 0x01000011#32 (regs2 0xCAFEBABE#32 0#32)) (fun t => t.hi == 0xCAFEBABE#32 && t.lo == 0#32) = true := by decide
theorem test_mtlo_R190 : after (boot 0x01000013#32 (regs2 0x12345678#32 0#32)) (fun t => t.hi == 0#32 && t.lo == 0x12345678#32) = true := by decide
theorem test_mfhi_R187 : after (boot 0x00005010#32 (fun s => { s with hi := 1#32 })) (fun t => t.x 10 == 1#32) = true := by decide
theorem test_mflo_R189 : after (boot 0x00005012#32 (fun s => { s with lo := 3#32 })) (fun t => t.x 10 == 3#32) = true := by decide
-- 2.5: the branch's own step; its slot runs next
theorem test_j_CT1 : after (boot 0x08000800#32) (fun t => t.pc == 0x1004#32 && t.nextPc == 0x2000#32 && t.x 31 == 0#32) = true := by decide
theorem test_jal_CT2 : after (boot 0x0C000800#32) (fun t => t.pc == 0x1004#32 && t.nextPc == 0x2000#32 && t.x 31 == 0x1008#32) = true := by decide
theorem test_beq_CT3 : after (boot 0x11090004#32 (regs2 3#32 3#32)) (fun t => t.pc == 0x1004#32 && t.nextPc == 0x1014#32) = true := by decide
theorem test_beq_CT4 : after (boot 0x11090004#32 (regs2 3#32 4#32)) (fun t => t.pc == 0x1004#32 && t.nextPc == 0x1008#32) = true := by decide
theorem test_bne_CT5 : after (boot 0x1509FFFF#32 (regs2 3#32 4#32)) (fun t => t.pc == 0x1004#32 && t.nextPc == 0x1000#32) = true := by decide
theorem test_blez_CT7 : after (boot 0x19000004#32 (regs2 0x80000000#32 0#32)) (fun t => t.pc == 0x1004#32 && t.nextPc == 0x1014#32) = true := by decide
theorem test_blez_CT8 : after (boot 0x19000004#32 (regs2 1#32 0#32)) (fun t => t.pc == 0x1004#32 && t.nextPc == 0x1008#32) = true := by decide
theorem test_bgtz_CT9 : after (boot 0x1D000004#32 (regs2 1#32 0#32)) (fun t => t.pc == 0x1004#32 && t.nextPc == 0x1014#32) = true := by decide
theorem test_bgtz_CT10 : after (boot 0x1D000004#32 (regs2 0#32 0#32)) (fun t => t.pc == 0x1004#32 && t.nextPc == 0x1008#32) = true := by decide
theorem test_bltz_CT14 : after (boot 0x05020004#32 (regs2 0xFFFFFFFF#32 0#32)) (fun t => t.pc == 0x1004#32 && t.nextPc == 0x1014#32 && t.x 31 == 0#32) = true := by decide
theorem test_bltz_CT12 : after (boot 0x05000004#32 (regs2 0#32 0#32)) (fun t => t.pc == 0x1004#32 && t.nextPc == 0x1008#32) = true := by decide
theorem test_bgez_CT13 : after (boot 0x05010004#32 (regs2 0#32 0#32)) (fun t => t.pc == 0x1004#32 && t.nextPc == 0x1014#32) = true := by decide
theorem test_bltzal_CT18 : after (boot 0x07F00004#32 (fun s => s.setX 31 0xFFFFFFFF#32)) (fun t => t.pc == 0x1004#32 && t.nextPc == 0x1014#32 && t.x 31 == 0x1008#32) = true := by decide
theorem test_bltzal_CT16 : after (boot 0x05100004#32 (regs2 5#32 0#32)) (fun t => t.pc == 0x1004#32 && t.nextPc == 0x1008#32 && t.x 31 == 0x1008#32) = true := by decide
theorem test_bgezal_CT17 : after (boot 0x07F10004#32 (fun s => s.setX 31 0xFFFFFFFF#32)) (fun t => t.pc == 0x1004#32 && t.nextPc == 0x1008#32 && t.x 31 == 0x1008#32) = true := by decide
theorem test_bgezal_CT15 : after (boot 0x051F0004#32 (regs2 5#32 0#32)) (fun t => t.pc == 0x1004#32 && t.nextPc == 0x1014#32 && t.x 31 == 0x1008#32) = true := by decide
theorem test_jr_CT24_misaligned : after (boot 0x01000008#32 (regs2 0x2002#32 0#32)) (fun t => t.pc == 0x1004#32 && t.nextPc == 0x2002#32) = true := by decide
theorem test_jalr_CT21 : after (boot 0x01004009#32 (regs2 0x3000#32 0#32)) (fun t => t.pc == 0x1004#32 && t.nextPc == 0x3000#32 && t.x 8 == 0x1008#32) = true := by decide
-- 2.6
theorem test_syscall_SY1 : after (boot 0x0000000C#32 (status 1#32 0#32)) (fun t => t.cop0.cause == 0x20#32 && t.cop0.epc == 0x1000#32 && t.pc == 0x80000080#32 && t.nextPc == 0x80000084#32 && t.cop0.sr == 4#32) = true := by decide
theorem test_syscall_EX4 : after (boot 0x03FFFFCC#32 (status 0x00010003#32 0#32)) (fun t => t.cop0.sr == 0x0001000C#32) = true := by decide
theorem test_break_SY2 : after (boot 0x0000000D#32 (status 0#32 0x0000FF00#32)) (fun t => t.cop0.cause == 0x0000FF24#32 && t.cop0.epc == 0x1000#32 && t.pc == 0x80000080#32 && t.nextPc == 0x80000084#32) = true := by decide
theorem test_mfc0_SY4 : after (boot 0x40086800#32 (status 0#32 0x30#32)) (fun t => t.x 8 == 0x30#32 && t.ld == none) = true := by decide
theorem test_mtc0_SY6 : after (boot 0x40886000#32 (regs2 0x00010000#32 0#32)) (fun t => t.cop0.sr == 0x00010000#32) = true := by decide
theorem test_mtc0_SY7 : after (boot 0x40887800#32 (regs2 0x12345678#32 0#32)) (fun t => t.cop0 == Cop0.reset) = true := by decide
theorem test_rfe_SY9 : after (boot 0x42000010#32 (status 0x0001003C#32 0#32)) (fun t => t.cop0.sr == 0x0001003F#32 && t.pc == 0x1004#32) = true := by decide
theorem test_rfe_SY11 : after (boot 0x42000010#32 (status 0x2D#32 0#32)) (fun t => t.cop0.sr == 0x2B#32) = true := by decide
-- 2.7
theorem test_lb_E1 : after (boot 0x80090100#32 (word 0x100 0x017FFF80#32)) (fun t => t.ld == some ⟨9, 0xFFFFFF80#32, 1⟩) = true := by decide
theorem test_lbu_E2 : after (boot 0x90090100#32 (word 0x100 0x017FFF80#32)) (fun t => t.ld == some ⟨9, 0x80#32, 1⟩) = true := by decide
theorem test_lh_E3 : after (boot 0x84090100#32 (word 0x100 0x017FFF80#32)) (fun t => t.ld == some ⟨9, 0xFFFFFF80#32, 1⟩) = true := by decide
theorem test_lh_misaligned : after (boot 0x84090101#32 (word 0x100 0x017FFF80#32)) (fun t => t.cop0.cause == 0x10#32 && t.cop0.epc == 0x1000#32 && t.pc == 0x80000080#32 && t.nextPc == 0x80000084#32 && t.cop0.badA == 0x101#32 && t.ld == none) = true := by decide
theorem test_lhu_E4 : after (boot 0x94090100#32 (word 0x100 0x017FFF80#32)) (fun t => t.ld == some ⟨9, 0xFF80#32, 1⟩) = true := by decide
theorem test_lw_E6 : after (boot 0x8C090100#32 (word 0x100 0x017FFF80#32)) (fun t => t.ld == some ⟨9, 0x017FFF80#32, 1⟩ && t.x 9 == 0#32) = true := by decide
theorem test_lw_misaligned : after (boot 0x8C090102#32 (word 0x100 0x017FFF80#32)) (fun t => t.cop0.cause == 0x10#32 && t.cop0.epc == 0x1000#32 && t.pc == 0x80000080#32 && t.nextPc == 0x80000084#32 && t.cop0.badA == 0x102#32) = true := by decide
theorem test_lwl_k0 : after (boot 0x88080100#32 (fun s => word 0x100 0x44332211#32 (s.setX 8 0xAABBCCDD#32))) (fun t => t.ld == some ⟨8, 0x11BBCCDD#32, 1⟩) = true := by decide
theorem test_lwl_k2 : after (boot 0x88080102#32 (fun s => word 0x100 0x44332211#32 (s.setX 8 0xAABBCCDD#32))) (fun t => t.ld == some ⟨8, 0x332211DD#32, 1⟩) = true := by decide
theorem test_lwr_k1 : after (boot 0x98080101#32 (fun s => word 0x100 0x44332211#32 (s.setX 8 0xAABBCCDD#32))) (fun t => t.ld == some ⟨8, 0xAA443322#32, 1⟩) = true := by decide
theorem test_lwr_k3 : after (boot 0x98080103#32 (fun s => word 0x100 0x44332211#32 (s.setX 8 0xAABBCCDD#32))) (fun t => t.ld == some ⟨8, 0xAABBCC44#32, 1⟩) = true := by decide
theorem test_sb : after (boot 0xA0080101#32 (fun s => word 0x100 0x44332211#32 (s.setX 8 0xAABBCCDD#32))) (fun t => wordAt t 0x100 == 0x4433DD11#32) = true := by decide
theorem test_sh : after (boot 0xA4080102#32 (fun s => word 0x100 0x44332211#32 (s.setX 8 0xAABBCCDD#32))) (fun t => wordAt t 0x100 == 0xCCDD2211#32) = true := by decide
theorem test_sh_misaligned : after (boot 0xA4080101#32 (fun s => word 0x100 0x44332211#32 (s.setX 8 0xAABBCCDD#32))) (fun t => t.cop0.cause == 0x14#32 && t.cop0.epc == 0x1000#32 && t.pc == 0x80000080#32 && t.nextPc == 0x80000084#32 && t.cop0.badA == 0#32 && wordAt t 0x100 == 0x44332211#32) = true := by decide
theorem test_sw : after (boot 0xAC080100#32 (fun s => word 0x100 0x44332211#32 (s.setX 8 0xAABBCCDD#32))) (fun t => wordAt t 0x100 == 0xAABBCCDD#32) = true := by decide
theorem test_sw_isolated : after (boot 0xAC080100#32 (fun s => status 0x00010000#32 0#32 (word 0x100 0x44332211#32 (s.setX 8 0xAABBCCDD#32)))) (fun t => wordAt t 0x100 == 0x44332211#32 && t.pc == 0x1004#32) = true := by decide
theorem test_swl_k1 : after (boot 0xA8080101#32 (fun s => word 0x100 0x44332211#32 (s.setX 8 0xAABBCCDD#32))) (fun t => wordAt t 0x100 == 0x4433AABB#32) = true := by decide
theorem test_swl_k3 : after (boot 0xA8080103#32 (fun s => word 0x100 0x44332211#32 (s.setX 8 0xAABBCCDD#32))) (fun t => wordAt t 0x100 == 0xAABBCCDD#32) = true := by decide
theorem test_swr_k1 : after (boot 0xB8080101#32 (fun s => word 0x100 0x44332211#32 (s.setX 8 0xAABBCCDD#32))) (fun t => wordAt t 0x100 == 0xBBCCDD11#32) = true := by decide
theorem test_swr_k3 : after (boot 0xB8080103#32 (fun s => word 0x100 0x44332211#32 (s.setX 8 0xAABBCCDD#32))) (fun t => wordAt t 0x100 == 0xDD332211#32) = true := by decide
-- 2.10: the step
theorem test_illegal_EX6 : after (boot 0x9C080100#32 (word 0x1004 0x3C081234#32)) (fun t => t.pc == 0x1004#32 && t.nextPc == 0x1008#32 && t.instruction == 0x3C081234#32 && t.cop0 == Cop0.reset) = true := by decide
theorem test_fetch_trap_EX2 : after (boot 0#32 (fun s => { s with pc := 0x1002#32, nextPc := 0x1006#32 })) (fun t => t.cop0.epc == 0xFFE#32 && t.cop0.badA == 0x1002#32 && t.cop0.cause == 0x10#32 && t.pc == 0x80000084#32) = true := by decide
theorem test_load_retires_R131 : after (boot 0#32 (fun s => { s with ld := some ⟨8, 0xDEADBEEF#32, 0⟩ })) (fun t => t.x 8 == 0xDEADBEEF#32 && t.ld == none) = true := by decide
theorem test_load_waits_R131 : after (boot 0#32 (fun s => { s with ld := some ⟨8, 0xDEADBEEF#32, 1⟩ })) (fun t => t.x 8 == 0#32 && t.ld == some ⟨8, 0xDEADBEEF#32, 0⟩) = true := by decide
theorem test_second_load_flushes_R257 : after (boot 0x8C090100#32 (fun s => { word 0x100 2#32 s with ld := some ⟨8, 1#32, 1⟩ })) (fun t => t.x 8 == 1#32 && t.ld == some ⟨9, 2#32, 1⟩) = true := by decide
theorem test_slot_trap_CT26 : after (boot 0x01095020#32 (fun s => { regs2 0x7FFFFFFF#32 1#32 s with nextPc := 0x2000#32 })) (fun t => t.cop0.epc == 0x1FFC#32 && t.pc == 0x80000080#32) = true := by decide

/-! ### The bus (2.8), the GPU (2.9), reset and the host (2.11) -/

/-- The word a bus read gives. -/
def reads (s : State) (n : Width) (a : Word) (v : Word) : Bool :=
  match busRead s n a with
  | .ok r => r == v
  | .error _ => false

def bios : State := { State.reset with mem := Memory.writeLe [] .word 0x1FC00000 0xDEADBEEF#32 }

theorem test_bus_B1 : (reads bios .word 0xBFC00000#32 0xDEADBEEF#32 && reads bios .word 0x1FC00000#32 0xDEADBEEF#32 &&
    reads bios .word 0x9FC00000#32 0xDEADBEEF#32) = true := by decide
theorem test_bus_B4_B5_B7_B8 : (reads bios .word 0x1F800400#32 0#32 && reads bios .word 0x1F801070#32 0#32 &&
    reads bios .word 0x1F801814#32 0x1FF00000#32 && reads bios .word 0x00200000#32 0#32) = true := by decide
theorem test_bus_B6 : (reads (word 0x100 0x11223344#32 bios) .word 0xA0000100#32 0x11223344#32 &&
    reads (word 0x100 0x11223344#32 bios) .half 0x80000102#32 0x1122#32) = true := by decide
theorem test_store_to_bios_dropped_B2 : after (boot 0xAD090000#32 (fun s => (word 0x1FC00000 0xDEADBEEF#32 s).setX 8 0xBFC00000#32))
    (fun t => wordAt t 0x1FC00000 == 0xDEADBEEF#32) = true := by decide
theorem test_lb_of_port_refused_B9 : step (boot 0x81090000#32 (fun s => s.setX 8 0x1F801810#32)) = .refused .narrowGpuPort := by
  rfl
theorem test_sw_to_gp0_G1 : after (boot 0xAD090000#32 (regs2 0x1F801810#32 0x68FF8040#32))
    (fun t => t.gpu.gp0State == .receivingParameters && t.gpu.cmd.remainingWords == 1) = true := by decide
theorem test_sw_to_gp1_B10 : after (boot 0xAD090000#32 (regs2 0x1F801814#32 0x68FF8040#32))
    (fun t => t.gpu.gp0State == .awaitingCommand && t.gpu.vram == [] && t.gpu.cmd.kind == .none) = true := by decide

def gpu0 : Gpu := Gpu.reset 0#32

theorem test_gpu_G1 : (feed gpu0 [0x68FF8040#32, 0x00020005#32]).pixelAt 5 2 = 0x7E08#16 := by decide
theorem test_gpu_G6 : (feed gpu0 [0x68FFFFFF#32, 0x02000400#32]).pixelAt 0 0 = 0x7FFF#16 := by decide
theorem test_gpu_scenario7 : (feed gpu0 [0xA0000000#32, 0#32, 0x00010002#32, 0xBBBBAAAA#32]).vram = [(0, 0xAAAA#16), (1, 0xBBBB#16)] := by
  decide
theorem test_gpu_G7 : readPairs 3 (feed gpu0 [0xA0000000#32, 0x00100020#32, 0x00020003#32, 0x00020001#32, 0x00040003#32,
    0x00060005#32, 0xC0000000#32, 0x00100020#32, 0x00020003#32]) = [0x00020001#32, 0x00040003#32, 0x00060005#32] := by decide
theorem test_gpu_G8 : feed gpu0 [0xA0000000#32, 0#32, 0x00010003#32, 0x22221111#32, 0x44443333#32] =
    { gpu0 with vram := [(0, 0x1111#16), (1, 0x2222#16)], cmd := ⟨.cpuToVram, [0#32, 0x00010003#32], 0⟩, cursor := ⟨2, 0, 0, 3⟩ } := by
  decide
theorem test_gpu_G9 : (feed gpu0 [0xA0000000#32, 0#32, 0x00010001#32]).gp0State = .awaitingCommand := by decide
theorem test_gpu_G10 : (feed gpu0 [0xA0000000#32, 0#32, 0#32]).cmd.remainingWords = 262144 := by decide
theorem test_gpu_G12 : (feed gpu0 [0xA0000000#32, 0xFE01FFFF#32, 0x00010002#32, 0xBBBBAAAA#32]).vram =
    [(1024, 0xBBBB#16), (2047, 0xAAAA#16)] := by decide
theorem test_gpu_G13 : feed gpu0 [0x12345678#32] = gpu0 := by decide

theorem test_reset_RS1 : let t := ({ boot 0#32 (regs2 1#32 2#32) with mem := bios.mem }).hostReset 7#32
    (t.pc == 0xBFC00000#32 && t.nextPc == 0xBFC00004#32 && t.instruction == 0xDEADBEEF#32 && t.x 8 == 0#32 &&
      t.gpu.gpuread == 7#32) = true := by decide
theorem test_setPc_RS2 : next? (setPc 0x1000#32 (word 0x1000 0x3C081234#32 State.reset))
    (fun t => t.pc == 0x1000#32 && t.nextPc == 0x1004#32 && t.instruction == 0x3C081234#32) = true := by decide
theorem test_setPc_misaligned_io_R83 : next? (setPc 0x1F801001#32 (boot 0#32))
    (fun t => t.instruction == 0#32 && t.draws == 0) = true := by decide
theorem test_setPc_across_regions_R73 : setPc 0x1FFFFE#32 (boot 0#32) = .refused .spansRegions := by rfl
theorem test_construct_without_image_R362 : construct [] 0#32 = .refused .badBiosImage := by rfl
theorem test_run_stops_R368 : hostRun (fun s => s.pc == 0x1000#32) 5 ⟨boot 0x3C081234#32, none, []⟩ =
    .next ⟨boot 0x3C081234#32, none, []⟩ := hostRun_of_stop (by decide) 5
theorem test_observe_RS4 : (observe ⟨{ (State.reset.setX 9 0x3C#32).setX 4 0x141#32 with pc := 0xA0#32 }, none, [1#8]⟩).output =
    [1#8, 0x41#8] := by decide
theorem test_traced_RS4 : tracedChar { (State.reset.setX 9 0x3C#32).setX 4 0x141#32 with pc := 0xA0#32 } = some 0x41#8 := by decide
theorem test_place_and_run : after (State.reset.withFetchWord 32 0x3C081234) (fun t => t.x 8 == 0x12340000#32) = true := by decide

/-! ### Witnesses: for each statement with hypotheses, a state and operands that meet them, clause by clause -/

/-- The state in which the tests' instruction is at phase 5: `pc` and `next_pc` advanced. -/
def mid (seed : State → State := id) : State := seed { State.reset with pc := 0x1004#32, nextPc := 0x1008#32 }

theorem witness_DecodeOfEncode : (Instr.sra 31 0 31).wf = true ∧ (Instr.sw 31 0x8000#16 0).wf = true := ⟨rfl, rfl⟩

theorem witness_DecoderFollowsOpcodeTable :
    decode 0x43FFFFD0#32 = .ok .rfe ∧ matchesRow 0x43FFFFD0#32 .rfe ∧ ∃ e, decode 0x9C080100#32 = .error e :=
  ⟨rfl, by unfold matchesRow; decide, _, rfl⟩

theorem witness_IllegalWordsAreNops :
    (illegalWord 0x44000000#32 ∧ illegalWord 0x7FFFFFFF#32 ∧ illegalWord 0x9C080100#32 ∧ illegalWord 0xBC000000#32 ∧
      illegalWord 0x00000001#32 ∧ illegalWord 0x0000003F#32 ∧ illegalWord 0x42000001#32) ∧
    (∃ e, decode 0x44000000#32 = .error e) ∧ Fetches (boot 0x9C080100#32) 0x9C080100#32 := by
  refine ⟨⟨?_, ?_, ?_, ?_, ?_, ?_, ?_⟩, ⟨_, rfl⟩, rfl⟩ <;> simp only [illegalWord] <;> decide

theorem witness_StepRunsTheDecodedInstruction :
    let s := boot 0x3C081234#32
    s.pc.toNat % 4 = 0 ∧ (regionOf (phys s.pc)).isArray ∧ 0x34#8 = s.byteAt (phys s.pc) ∧ 0x12#8 = s.byteAt (phys s.pc + 1) ∧
    0x08#8 = s.byteAt (phys s.pc + 2) ∧ 0x3C#8 = s.byteAt (phys s.pc + 3) ∧
    decodeBytes [0x34#8, 0x12#8, 0x08#8, 0x3C#8] = .ok (.lui 8 0x1234#16, []) ∧
    Fetches s 0x3C081234#32 ∧ decode 0x3C081234#32 = .ok (.lui 8 0x1234#16) :=
  ⟨by decide, .inl rfl, by decide, by decide, by decide, by decide, rfl, rfl, rfl⟩

theorem witness_RegisterZeroIsZeroAfterEveryStep : ∃ t, step (boot 0x24000005#32) = .next t := by
  obtain ⟨t, h, _⟩ := next_of_check (show after (boot 0x24000005#32) (fun _ => true) = true by decide)
  exact ⟨t, h⟩

theorem witness_RegisterZeroDiscardsWrites :
    (mid (fun s => { s with ld := some ⟨0, 7#32, 0⟩ })).ld = some ⟨0, 7#32, 0⟩ := rfl

theorem witness_LoadDelayRetire :
    (mid).ld = none ∧ (mid (fun s => { s with ld := some ⟨8, 7#32, 0⟩ })).ld = some ⟨8, 7#32, 0⟩ ∧
    (mid (fun s => { s with ld := some ⟨8, 7#32, 1⟩ })).ld = some ⟨8, 7#32, 1⟩ ∧ (1 : Nat) ≠ 0 := ⟨rfl, rfl, rfl, by decide⟩

theorem witness_MisalignedFetchTrapsAndGoesOn : (boot 0#32 (fun s => { s with pc := 0x1003#32 })).pc.toNat % 4 ≠ 0 := by decide

theorem witness_ExceptionsAreExactlyTheTable :
    (raises .syscall mid = some .sys ∧ raises .brk mid = some .bp ∧
      raises (.addi 9 8 1#16) (mid (regs2 0x7FFFFFFF#32 0#32)) = some .ovf ∧
      raises (.add 10 8 9) (mid (regs2 0x80000000#32 0xFFFFFFFF#32)) = some .ovf ∧
      raises (.sub 10 8 9) (mid (regs2 0#32 0x80000000#32)) = some .ovf ∧ raises (.lh 9 1#16 0) mid = some .adEL ∧
      raises (.lhu 9 3#16 0) mid = some .adEL ∧ raises (.lw 9 2#16 0) mid = some .adEL ∧
      raises (.sh 9 1#16 0) mid = some .adES ∧ raises (.sw 9 3#16 0) mid = some .adES) ∧
    raises (.addi 9 8 0#16) (mid (regs2 0x7FFFFFFF#32 0#32)) = none ∧ raises (.lw 9 4#16 0) mid = none ∧
    ∃ t, exec (.lw 9 4#16 0) mid = .next t := by
  refine ⟨by decide, by decide, by decide, ?_⟩
  obtain ⟨t, h, _⟩ := next_of_check (show next? (exec (.lw 9 4#16 0) mid) (fun _ => true) = true by decide)
  exact ⟨t, h⟩

theorem witness_ProgramCounterLaw :
    let s := boot 0x25090001#32
    s.pc.toNat % 4 = 0 ∧ Fetches s 0x25090001#32 ∧
    (∀ i, decode 0x25090001#32 = .ok i → raises i (atPhase5 s 0x25090001#32) = none ∧ isControl i = false) ∧
    ∃ t, step s = .next t := by
  obtain ⟨t, h, _⟩ := next_of_check (show after (boot 0x25090001#32) (fun _ => true) = true by decide)
  refine ⟨by decide, rfl, fun i hi => ?_, t, h⟩
  rw [show decode 0x25090001#32 = .ok (.addiu 9 8 1#16) from rfl] at hi
  cases hi
  exact ⟨rfl, rfl⟩

/-- J 0x2000 with a NOP in its delay slot (CT-1). -/
theorem witness_DelaySlotRunsBeforeTheTarget :
    let s := boot 0x08000800#32
    s.pc.toNat % 4 = 0 ∧ Fetches s 0x08000800#32 ∧ decode 0x08000800#32 = .ok (.j 0x800#26) ∧ isControl (.j 0x800#26) = true ∧
    (∃ v, exec (.j 0x800#26) (atPhase5 s 0x08000800#32) = .next v) ∧
    ∃ t, step s = .next t ∧ t.pc.toNat % 4 = 0 ∧ Fetches t 0#32 ∧
      (∀ k, decode 0#32 = .ok k → raises k (atPhase5 t 0#32) = none) ∧ ∃ u, step t = .next u := by
  obtain ⟨v, hv, _⟩ := next_of_check
    (show next? (exec (.j 0x800#26) (atPhase5 (boot 0x08000800#32) 0x08000800#32)) (fun _ => true) = true by decide)
  obtain ⟨t, ht, hc⟩ := next_of_check (show after (boot 0x08000800#32)
    (fun t => t.pc.toNat % 4 == 0 && (match fetch (checkFetch (retireLoad t)) with | .ok w => w == 0#32 | .error _ => false) &&
      after t (fun _ => true)) = true by decide)
  simp only [Bool.and_eq_true, beq_iff_eq] at hc
  obtain ⟨⟨h4, hf⟩, hu⟩ := hc
  obtain ⟨u, hu, _⟩ := next_of_check hu
  refine ⟨by decide, rfl, rfl, rfl, ⟨v, hv⟩, t, ht, h4, ?_, fun k hk => ?_, u, hu⟩
  · unfold Fetches
    split at hf
    · next w hw => rw [hw, beq_iff_eq.mp hf]
    · exact absurd hf Bool.false_ne_true
  · rw [show decode 0#32 = .ok (.sll 0 0 0) from rfl] at hk
    cases hk
    rfl

theorem witness_EveryStepCompletesButNarrowPortAccess :
    (let s := boot 0x81090000#32 (fun s => s.setX 8 0x1F801817#32)
     Fetches s 0x81090000#32 ∧ decode 0x81090000#32 = .ok (.lb 9 0#16 8) ∧
      refusedNarrow (.lb 9 0#16 8) (atPhase5 s 0x81090000#32)) ∧
    (let s := boot 0x81090000#32 (fun s => s.setX 8 0x1F801818#32)
     Fetches s 0x81090000#32 ∧ ¬ ∃ i, decode 0x81090000#32 = .ok i ∧ refusedNarrow i (atPhase5 s 0x81090000#32)) := by
  refine ⟨⟨rfl, rfl, _, _, rfl, by decide, by decide⟩, rfl, ?_⟩
  rintro ⟨i, hi, n, a, hn, _, ht⟩
  rw [show decode 0x81090000#32 = .ok (.lb 9 0#16 8) from rfl] at hi
  cases hi
  cases hn
  revert ht
  decide

theorem witness_InstructionRegisterShowsTheNextWord :
    ∃ t, step (boot 0#32 (word 0x1004 0x3C081234#32)) = .next t ∧ t.pc.toNat % 4 = 0 ∧
      busRead t .word t.pc = .ok 0x3C081234#32 := by
  obtain ⟨t, ht, hc⟩ := next_of_check (show after (boot 0#32 (word 0x1004 0x3C081234#32))
    (fun t => t.pc.toNat % 4 == 0 && reads t .word t.pc 0x3C081234#32) = true by decide)
  simp only [Bool.and_eq_true, beq_iff_eq] at hc
  refine ⟨t, ht, hc.1, ?_⟩
  have h := hc.2
  unfold reads at h
  split at h
  · next r hr => rw [hr, beq_iff_eq.mp h]
  · exact absurd h Bool.false_ne_true

theorem witness_ImmediateResults :
    opOf 0x25090001#32 = 0x09#6 ∧ opOf 0x29090000#32 = 0x0A#6 ∧ opOf 0x2D090000#32 = 0x0B#6 ∧ opOf 0x3109FF00#32 = 0x0C#6 ∧
    opOf 0x35098001#32 = 0x0D#6 ∧ opOf 0x39098000#32 = 0x0E#6 ∧ opOf 0x3D098001#32 = 0x0F#6 := by decide

theorem witness_TrappingArithmetic :
    (opOf 0x21090001#32 = 0x08#6 ∧ opOf 0x01095020#32 = 0x00#6 ∧ functOf 0x01095020#32 = 0x20#6 ∧ functOf 0x01095022#32 = 0x22#6) ∧
    (let s := mid (regs2 0x7FFFFFFE#32 1#32)
     fits ((s.x 8).toInt + (1#16).toInt) ∧ ¬ fits ((s.x 8).toInt + (2#16).toInt) ∧ fits ((s.x 8).toInt + (s.x 9).toInt)) ∧
    (let s := mid (regs2 0x7FFFFFFF#32 1#32)
     ¬ fits ((s.x 8).toInt + (s.x 9).toInt) ∧ fits ((s.x 8).toInt - (s.x 9).toInt)) ∧
    (let s := mid (regs2 0#32 0x80000000#32)
     ¬ fits ((s.x 8).toInt - (s.x 9).toInt)) := by decide

theorem witness_ShiftResults :
    opOf 0x01095100#32 = 0x00#6 ∧ functOf 0x01095100#32 = 0x00#6 ∧ functOf 0x01095102#32 = 0x02#6 ∧
    functOf 0x01095103#32 = 0x03#6 ∧ functOf 0x01095004#32 = 0x04#6 ∧ functOf 0x01095006#32 = 0x06#6 ∧
    functOf 0x01095007#32 = 0x07#6 ∧ 31 < 32 := by decide

theorem witness_RegisterResults :
    opOf 0x01095021#32 = 0x00#6 ∧ functOf 0x01095021#32 = 0x21#6 ∧ functOf 0x01095023#32 = 0x23#6 ∧
    functOf 0x01095024#32 = 0x24#6 ∧ functOf 0x01095025#32 = 0x25#6 ∧ functOf 0x01095026#32 = 0x26#6 ∧
    functOf 0x01095027#32 = 0x27#6 ∧ functOf 0x0109502A#32 = 0x2A#6 ∧ functOf 0x0109502B#32 = 0x2B#6 := by decide

theorem witness_HiLoMoves :
    opOf 0x00005010#32 = 0x00#6 ∧ functOf 0x00005010#32 = 0x10#6 ∧ functOf 0x01000011#32 = 0x11#6 ∧
    functOf 0x00005012#32 = 0x12#6 ∧ functOf 0x01000013#32 = 0x13#6 := by decide

theorem witness_MultiplyGivesTheExactProduct :
    opOf 0x01090018#32 = 0x00#6 ∧ functOf 0x01090018#32 = 0x18#6 ∧ functOf 0x01090019#32 = 0x19#6 := by decide

theorem witness_DivideTruncatesTowardZero :
    (opOf 0x0109001A#32 = 0x00#6 ∧ functOf 0x0109001A#32 = 0x1A#6) ∧ (mid (regs2 0x80000000#32 0#32)).x 9 = 0#32 ∧
    (let s := mid (regs2 0x80000000#32 0xFFFFFFFF#32)
     s.x 8 = 0x80000000#32 ∧ s.x 9 = 0xFFFFFFFF#32) ∧
    (let s := mid (regs2 0x80000001#32 0xFFFFFFFF#32)
     s.x 9 ≠ 0#32 ∧ ¬ (s.x 8 = 0x80000000#32 ∧ s.x 9 = 0xFFFFFFFF#32)) := by decide

theorem witness_UnsignedDivide :
    (opOf 0x0109001B#32 = 0x00#6 ∧ functOf 0x0109001B#32 = 0x1B#6) ∧ (mid (regs2 5#32 0#32)).x 9 = 0#32 ∧
    (mid (regs2 5#32 1#32)).x 9 ≠ 0#32 := by decide

theorem witness_JumpsAndLinksWriteNextPc :
    opOf 0x08000800#32 = 0x02#6 ∧ opOf 0x0C000800#32 = 0x03#6 ∧ opOf 0x01000008#32 = 0x00#6 ∧ functOf 0x01000008#32 = 0x08#6 ∧
    opOf 0x01004809#32 = 0x00#6 ∧ functOf 0x01004809#32 = 0x09#6 := by decide

theorem witness_ConditionalBranches :
    opOf 0x11090004#32 = 0x04#6 ∧ opOf 0x1509FFFF#32 = 0x05#6 ∧ opOf 0x19000004#32 = 0x06#6 ∧ opOf 0x1D000004#32 = 0x07#6 := by
  decide

theorem witness_BcondBranchesAndLinks :
    opOf 0x05020004#32 = 0x01#6 ∧ (0x05020004#32).getLsbD 20 = false ∧ (0x05020004#32).getLsbD 16 = false ∧
    (opOf 0x050F0004#32 = 0x01#6 ∧ (0x050F0004#32).getLsbD 20 = false ∧ (0x050F0004#32).getLsbD 16 = true) ∧
    (opOf 0x051E0004#32 = 0x01#6 ∧ (0x051E0004#32).getLsbD 20 = true ∧ (0x051E0004#32).getLsbD 16 = false) ∧
    (opOf 0x051F0004#32 = 0x01#6 ∧ (0x051F0004#32).getLsbD 20 = true ∧ (0x051F0004#32).getLsbD 16 = true) := by decide

theorem witness_SyscallAndBreakTrap :
    opOf 0x03FFFFCC#32 = 0x00#6 ∧ functOf 0x03FFFFCC#32 = 0x0C#6 ∧ functOf 0x0000000D#32 = 0x0D#6 := by decide

theorem witness_Cop0Moves :
    (opOf 0x40086800#32 = 0x10#6 ∧ rsBits 0x40086800#32 = 0x00#5 ∧ opOf 0x40886000#32 = 0x10#6 ∧ rsBits 0x40886000#32 = 0x04#5) ∧
    ((15 : Reg) ≠ 8 ∧ (15 : Reg) ≠ 12 ∧ (15 : Reg) ≠ 13 ∧ (15 : Reg) ≠ 14) ∧
    ((9 : Reg) ≠ 8 ∧ (9 : Reg) ≠ 12 ∧ (9 : Reg) ≠ 13 ∧ (9 : Reg) ≠ 14) := by decide

theorem witness_RfePopsTheStatusStack :
    opOf 0x40400010#32 = 0x10#6 ∧ rsBits 0x40400010#32 ≠ 0x00#5 ∧ rsBits 0x40400010#32 ≠ 0x04#5 ∧ functOf 0x40400010#32 = 0x10#6 := by
  decide

theorem witness_StatusBitsNeverMatter :
    readsStatus (.mfc0 8 13) = false ∧ readsStatus (.sw 8 0#16 0) = false ∧
    (0x00010003#32).getLsbD 16 = (mid (status 0x00010000#32 0#32)).cop0.sr.getLsbD 16 := by decide

theorem witness_AlignedLoads :
    (opOf 0x80090100#32 = 0x20#6 ∧ opOf 0x84090100#32 = 0x21#6 ∧ opOf 0x8C090100#32 = 0x23#6 ∧ opOf 0x90090100#32 = 0x24#6 ∧
      opOf 0x94090100#32 = 0x25#6) ∧
    clearOfPorts .byte 0x1F80180F#32 ∧ clearOfPorts .byte 0x1F801818#32 ∧
    ((0x1F80180E#32).toNat % 2 = 0 ∧ clearOfPorts .half 0x1F80180E#32) ∧ (0x1F801814#32).toNat % 4 = 0 := by
  unfold clearOfPorts
  decide

theorem witness_MisalignedAccessTraps :
    (0x101#32).toNat % 2 ≠ 0 ∧ (0x103#32).toNat % 4 ≠ 0 ∧ (0x102#32).toNat % 4 ≠ 0 ∧
    (mid).x 0 + (0x101#16).signExtend 32 = 0x101#32 ∧ (mid).x 0 + (0x102#16).signExtend 32 = 0x102#32 := by decide

theorem witness_NarrowPortAccessIsRefused :
    ¬ clearOfPorts .byte 0x1F801810#32 ∧ ¬ clearOfPorts .byte 0x1F801817#32 ∧
    ((0x1F801816#32).toNat % 2 = 0 ∧ ¬ clearOfPorts .half 0x1F801816#32) ∧
    (mid (regs2 0x1F801810#32 0#32)).x 8 + (0#16).signExtend 32 = 0x1F801810#32 := by
  unfold clearOfPorts
  decide

theorem witness_UnalignedLoadsMergeBytes : opOf 0x88080100#32 = 0x22#6 ∧ opOf 0x98080100#32 = 0x26#6 := by decide

theorem witness_NarrowStores :
    (opOf 0xA0080101#32 = 0x28#6 ∧ opOf 0xA4080102#32 = 0x29#6) ∧ Memory.wf (mid).mem ∧
    clearOfPorts .byte (ea mid 0 0x1FF#16) ∧ (ea mid 0 0x1FE#16).toNat % 2 = 0 ∧ clearOfPorts .half (ea mid 0 0x1FE#16) ∧
    writable 0x1FFFFF ∧ writable 0x1F8003FF ∧ ¬ writable 0x200000 := by
  unfold clearOfPorts writable
  decide

theorem witness_StoreWordAndCacheIsolation :
    opOf 0xAC080100#32 = 0x2B#6 ∧ Memory.wf (mid).mem ∧ (ea mid 0 0x100#16).toNat % 4 = 0 ∧
    (mid).cop0.sr.getLsbD 16 = false ∧ (mid (status 0x00010000#32 0#32)).cop0.sr.getLsbD 16 = true ∧
    phys (ea (mid (regs2 0x1F801810#32 0#32)) 8 0#16) = 0x1F801810 := by decide

theorem witness_UnalignedStoresMergeBytes :
    opOf 0xA8080100#32 = 0x2A#6 ∧ opOf 0xB8080100#32 = 0x2E#6 ∧ Memory.wf (boot 0xA8080100#32).mem := by decide

/-- LW then a NOP, with the loaded word pending (scenario 3, steps 2 to 4). -/
theorem witness_LoadedValueArrivesAfterOneInstruction :
    let s := boot 0#32 (fun s => { s with ld := some ⟨8, 0xDEADBEEF#32, 1⟩ })
    (8 : Reg) ≠ 0 ∧ s.ld = some { reg := 8, value := 0xDEADBEEF#32, remaining := 1 } ∧ Fetches s 0#32 ∧
    ∃ t, step s = .next t ∧ Fetches t 0#32 := by
  obtain ⟨t, ht, hc⟩ := next_of_check (show after (boot 0#32 (fun s => { s with ld := some ⟨8, 0xDEADBEEF#32, 1⟩ }))
    (fun t => match fetch (checkFetch (retireLoad t)) with | .ok w => w == 0#32 | .error _ => false) = true by decide)
  refine ⟨by decide, rfl, rfl, t, ht, ?_⟩
  unfold Fetches
  split at hc
  · next w hw => rw [hw, beq_iff_eq.mp hc]
  · exact absurd hc Bool.false_ne_true

theorem witness_StoreThenLoadGivesTheValueBack :
    let s := mid (regs2 0xAABBCCDD#32 0x1F8003FC#32)
    Memory.wf s.mem ∧ writable (phys (ea s 9 0#16)) ∧ (ea s 9 0#16).toNat % 2 = 0 ∧ (ea s 9 0#16).toNat % 4 = 0 ∧
    s.cop0.sr.getLsbD 16 = false ∧ (∃ t, exec (.sb 8 0#16 9) s = .next t) ∧ (∃ t, exec (.sh 8 0#16 9) s = .next t) ∧
    ∃ t, exec (.sw 8 0#16 9) s = .next t := by
  obtain ⟨t1, h1, _⟩ := next_of_check
    (show next? (exec (.sb 8 0#16 9) (mid (regs2 0xAABBCCDD#32 0x1F8003FC#32))) (fun _ => true) = true by decide)
  obtain ⟨t2, h2, _⟩ := next_of_check
    (show next? (exec (.sh 8 0#16 9) (mid (regs2 0xAABBCCDD#32 0x1F8003FC#32))) (fun _ => true) = true by decide)
  obtain ⟨t3, h3, _⟩ := next_of_check
    (show next? (exec (.sw 8 0#16 9) (mid (regs2 0xAABBCCDD#32 0x1F8003FC#32))) (fun _ => true) = true by decide)
  exact ⟨by decide, by unfold writable; decide, by decide, by decide, by decide, ⟨t1, h1⟩, ⟨t2, h2⟩, t3, h3⟩

/-- The bytes 11 22 .. 88 at 0x100 (2.7), and register 8 seeded. -/
def pair (v : Word) : State := word 0x104 0x88776655#32 (word 0x100 0x44332211#32 (mid (fun s => s.setX 8 v)))

theorem witness_UnalignedPairsMoveTheWord :
    ((0x101#32).toNat % 4 ≠ 0 ∧ (regionOf (phys 0x101#32)).isArray ∧ (regionOf (phys 0x101#32 + 3)).isArray) ∧
    ((∀ p, (pair 0x00443322#32).byteAt p = (pair 0#32).byteAt p) ∧ ea (pair 0#32) 0 0x101#16 = 0x101#32 ∧
      ea (pair 0x00443322#32) 0 0x104#16 = 0x101#32 + 3#32 ∧
      (∃ t, exec (.lwr 8 0x101#16 0) (pair 0#32) = .next t ∧ t.ld = some ⟨8, 0x00443322#32, 1⟩) ∧
      (pair 0x00443322#32).x 8 = 0x00443322#32) ∧
    ((∀ p, (pair 0x55000000#32).byteAt p = (pair 0#32).byteAt p) ∧ ea (pair 0#32) 0 0x104#16 = 0x101#32 + 3#32 ∧
      ea (pair 0x55000000#32) 0 0x101#16 = 0x101#32 ∧
      (∃ t, exec (.lwl 8 0x104#16 0) (pair 0#32) = .next t ∧ t.ld = some ⟨8, 0x55000000#32, 1⟩) ∧
      (pair 0x55000000#32).x 8 = 0x55000000#32) ∧
    (let s := mid (regs2 0xAABBCCDD#32 0#32)
     Memory.wf s.mem ∧ (ea s 9 0x103#16).toNat % 4 ≠ 0 ∧ ea s 9 0x106#16 = ea s 9 0x103#16 + 3#32 ∧
     writable (phys (ea s 9 0x103#16)) ∧ writable (phys (ea s 9 0x103#16) + 3) ∧
     ∃ t u, exec (.swr 8 0x103#16 9) s = .next t ∧ exec (.swl 8 0x106#16 9) t = .next u) := by
  obtain ⟨t, ht, hc⟩ := next_of_check (show next? (exec (.swr 8 0x103#16 9) (mid (regs2 0xAABBCCDD#32 0#32)))
    (fun t => next? (exec (.swl 8 0x106#16 9) t) (fun _ => true)) = true by decide)
  obtain ⟨u, hu, _⟩ := next_of_check hc
  obtain ⟨r, hr, hrc⟩ := next_of_check (show next? (exec (.lwr 8 0x101#16 0) (pair 0#32))
    (fun t => t.ld == some ⟨8, 0x00443322#32, 1⟩) = true by decide)
  obtain ⟨l, hl, hlc⟩ := next_of_check (show next? (exec (.lwl 8 0x104#16 0) (pair 0#32))
    (fun t => t.ld == some ⟨8, 0x55000000#32, 1⟩) = true by decide)
  exact ⟨⟨by decide, .inl rfl, .inl rfl⟩,
    ⟨fun _ => rfl, by decide, by decide, ⟨r, hr, beq_iff_eq.mp hrc⟩, by decide⟩,
    ⟨fun _ => rfl, by decide, by decide, ⟨l, hl, beq_iff_eq.mp hlc⟩, by decide⟩,
    by decide, by decide, by decide, by unfold writable; decide, by unfold writable; decide, t, u, ht, hu⟩

theorem witness_AddressFoldAndRegionMap :
    (0xBFC00000#32).toNat % 2 ^ 29 = (0x1FC00000#32).toNat % 2 ^ 29 ∧ 0x1FFFFF < 2 ^ 29 ∧ regionOf 0x1FFFFF = .ram ∧
    regionOf 0x200000 = .unmapped ∧ regionOf 0x1F7FFFFF = .unmapped ∧ regionOf 0x1F800000 = .scratchpad ∧
    regionOf 0x1F8003FF = .scratchpad ∧ regionOf 0x1F800400 = .unmapped ∧ regionOf 0x1F801000 = .io ∧
    regionOf 0x1F801FFF = .io ∧ regionOf 0x1F802000 = .unmapped ∧ regionOf 0x1FC00000 = .bios ∧
    regionOf 0x1FC7FFFF = .bios ∧ regionOf 0x1FC80000 = .unmapped ∧ regionOf 0x1FFFFFFF = .unmapped := by decide

theorem witness_BusReadsAndWritesBytes :
    Memory.wf (mid).mem ∧ regionOf (phys (0x1FFFFD#32 + BitVec.ofNat 32 (Width.half.bytes - 1))) = regionOf (phys 0x1FFFFD#32) ∧
    (regionOf (phys 0x1FFFFD#32)).isArray ∧ regionOf (phys 0x1FFFFD#32) = .ram ∧ regionOf (phys 0x1F8003FF#32) = .scratchpad ∧
    regionOf (phys 0x00200000#32) = .unmapped ∧ regionOf (phys 0xBFC7FFFF#32) = .bios :=
  ⟨by decide, by decide, .inl rfl, rfl, rfl, rfl, rfl⟩

theorem witness_IoPage :
    phys 0xBF801810#32 = 0x1F801810 ∧ phys 0x1F801814#32 = 0x1F801814 ∧
    (misaligned .byte 0x1F801817#32 = false ∧ Width.byte ≠ .word ∧ ¬ clearOfPorts .byte 0x1F801817#32) ∧
    (misaligned .half 0x1F801818#32 = false ∧ regionOf (phys 0x1F801818#32) = .io ∧ clearOfPorts .half 0x1F801818#32) ∧
    (misaligned .word 0x1F80180C#32 = false ∧ regionOf (phys 0x1F80180C#32) = .io ∧ clearOfPorts .word 0x1F80180C#32) := by
  unfold clearOfPorts
  decide

theorem witness_BiosIsImmutable :
    let s := boot 0xAD090000#32 (fun s => (word 0x1FC00000 0xDEADBEEF#32 s).setX 8 0xBFC00000#32)
    Memory.wf s.mem ∧ (∃ t, step s = .next t) ∧ regionOf 0x1FC00000 = .bios := by
  obtain ⟨t, ht, _⟩ := next_of_check (show after
    (boot 0xAD090000#32 (fun s => (word 0x1FC00000 0xDEADBEEF#32 s).setX 8 0xBFC00000#32)) (fun _ => true) = true by decide)
  exact ⟨by decide, ⟨t, ht⟩, by decide⟩

theorem witness_OnlyStoresTouchMemoryAndGpu :
    (∃ t, exec (.lw 9 0#16 0) mid = .next t) ∧ isStore (.lw 9 0#16 0) = false ∧
    ∃ t, exec (.sw 9 0#16 8) (mid (regs2 0x1F801810#32 0x68FF8040#32)) = .next t := by
  obtain ⟨t, ht, _⟩ := next_of_check (show next? (exec (.lw 9 0#16 0) mid) (fun _ => true) = true by decide)
  obtain ⟨u, hu, _⟩ := next_of_check
    (show next? (exec (.sw 9 0#16 8) (mid (regs2 0x1F801810#32 0x68FF8040#32))) (fun _ => true) = true by decide)
  exact ⟨⟨t, ht⟩, rfl, u, hu⟩

theorem witness_CommandByteSelectsTheCommand :
    gpu0.gp0State = .awaitingCommand ∧ (0x68FFFFFF#32).toNat / 2 ^ 24 = 0x68 ∧ (0xA0FFFFFF#32).toNat / 2 ^ 24 = 0xA0 ∧
    (0xC0FFFFFF#32).toNat / 2 ^ 24 = 0xC0 ∧ (0x69000000#32).toNat / 2 ^ 24 ≠ 0x68 ∧ (0x69000000#32).toNat / 2 ^ 24 ≠ 0xA0 ∧
    (0x69000000#32).toNat / 2 ^ 24 ≠ 0xC0 := by decide

theorem witness_RectangleDrawsOnePixel :
    let g := feed gpu0 [0x68FF8040#32]
    g.gp0State = .receivingParameters ∧ g.cmd = { kind := .rectangle, params := [0x00FF8040#32], remainingWords := 1 } ∧
    Vram.wf g.vram := by decide

theorem witness_TransferHeader :
    (let g := feed gpu0 [0xA0000000#32]
     g.gp0State = .receivingParameters ∧ g.cmd = { kind := .cpuToVram, params := [], remainingWords := 2 }) ∧
    (let g := feed gpu0 [0xC0000000#32, 0xFE01FFFF#32]
     g.gp0State = .receivingParameters ∧ g.cmd = { kind := .vramToCpu, params := [0xFE01FFFF#32], remainingWords := 1 }) := by
  decide

theorem witness_TransferDataPhases :
    (let g := feed gpu0 [0xA0000000#32, 0x000503FF#32, 0x00010002#32]
     Vram.wf g.vram ∧ g.gp0State = .receivingData) ∧
    (let g := feed gpu0 [0xC0000000#32, 0x000503FF#32, 0x00010002#32]
     Vram.wf g.vram ∧ g.gp0State = .transferringData) := by decide

theorem witness_PacketsKeepThePortInvariant :
    gpu0.portInv ∧ (feed gpu0 [0x68000000#32]).portInv ∧ (feed gpu0 [0xC0000000#32, 0#32]).portInv ∧
    (feed gpu0 [0xA0000000#32, 0x000503FF#32, 0x00010002#32]).portInv :=
  ⟨rfl, .inl ⟨rfl, rfl, rfl⟩, .inr ⟨.inr rfl, by decide, rfl⟩, rfl, by decide, by unfold Cursor.inRow; decide⟩

theorem witness_TransferRoundTrip :
    gpu0.gp0State = .awaitingCommand ∧ Vram.wf gpu0.vram ∧ (0xA0000000#32).toNat / 2 ^ 24 = 0xA0 ∧
    (0xC0000000#32).toNat / 2 ^ 24 = 0xC0 ∧
    ([0x00020001#32, 0x00040003#32, 0x00060005#32] : List Word).length =
      sizeWidth 0x00020003#32 * sizeHeight 0x00020003#32 / 2 := by decide

/-- A state with listed bytes, a pending load and a transfer under way meets the invariant. -/
theorem witness_EveryStepKeepsTheInvariant :
    let s := boot 0xAD090000#32 (fun s =>
      { regs2 0x1F801810#32 0xBBBBAAAA#32 s with
        ld := some ⟨8, 1#32, 1⟩, gpu := feed gpu0 [0xA0000000#32, 0x000503FF#32, 0x00010002#32] })
    s.Inv ∧ ∃ t, step s = .next t := by
  obtain ⟨t, ht, _⟩ := next_of_check (show after (boot 0xAD090000#32 (fun s =>
      { regs2 0x1F801810#32 0xBBBBAAAA#32 s with
        ld := some ⟨8, 1#32, 1⟩, gpu := feed gpu0 [0xA0000000#32, 0x000503FF#32, 0x00010002#32] })) (fun _ => true) = true by decide)
  refine ⟨⟨by decide, ?_, by decide, ?_, by decide, ?_, ?_⟩, t, ht⟩
  · unfold Memory.inArrays Region.isArray
    decide
  · unfold Vram.inBounds
    decide
  · rintro slot h
    cases h
    decide
  · exact ⟨rfl, by decide, by unfold Cursor.inRow; decide⟩

theorem witness_ResetValues : regionOf 0x1FFFFF = .ram ∧ regionOf 0x1F800000 = .scratchpad := by decide

theorem witness_HostResetKeepsOnlyTheBios : bios.Inv := by
  refine ⟨by decide, ?_, by decide, ?_, by decide, ?_, rfl⟩
  · unfold Memory.inArrays Region.isArray
    decide
  · unfold Vram.inBounds
    decide
  · intro slot h
    cases h

/-- An EXE of eight payload bytes for 0x80010000 (RS-3); a short file and one that does not fit are refused. -/
def exe (dest : Byte) : List Byte :=
  List.replicate 0x10 0#8 ++ [0#8, 0#8, 1#8, 0x80#8] ++ List.replicate 4 0#8 ++ [0xFC#8, 0xFF#8, dest, 0x80#8] ++ [4#8, 0#8, 0#8, 0#8] ++
  List.replicate 0x7E0 0#8 ++ [0x34#8, 0x12#8, 0x08#8, 0x3C#8]

theorem witness_HostLoads :
    Memory.wf (mid).mem ∧ ([] : List Byte).length ≠ 524288 ∧ (List.replicate 524288 0#8 : List Byte).length = 524288 ∧
    (0x1000#32).toNat % 4 = 0 ∧ busRead mid .word 0x1F801001#32 = .ok 0#32 ∧
    busRead mid .word 0x1FFFFE#32 = .error .spansRegions ∧
    (0x800 + (exeField (exe 0x1F#8) 0x1C).toNat ≤ (exe 0x1F#8).length ∧
      (exeField (exe 0x1F#8) 0x18).toNat % 2 ^ 29 + (exeField (exe 0x1F#8) 0x1C).toNat ≤ 0x200000 ∧
      (exeField (exe 0x1F#8) 0x10).toNat % 4 = 0) ∧
    (spansRegions .word 0x80010001#32 = false ∧ regionOf (phys 0x80010001#32) ≠ .io) ∧
    (∃ t, injectExe (exe 0x1F#8) mid = .next t) ∧
    0x200000 < (exeField (exe 0x20#8) 0x18).toNat % 2 ^ 29 + (exeField (exe 0x20#8) 0x1C).toNat ∧
    ([] : List Byte).length < 0x800 + (exeField [] 0x1C).toNat := by
  have h : (exeField (exe 0x1F#8) 0x1C).toNat = 4 := by decide
  have hl : (exe 0x1F#8).length = 0x804 := by
    simp only [exe, List.length_append, List.length_replicate]
    decide
  refine ⟨by decide, by decide, List.length_replicate, by decide, rfl, rfl, ⟨by rw [h, hl], by decide, by decide⟩,
    by decide, ?_, by decide, by decide⟩
  rw [injectExe_of_fits _ (by rw [h, hl]) (by decide)]
  exact setPc_of_aligned _ (by decide)

theorem witness_PlacedWordIsFetched : Memory.wf (boot 0x3C081234#32).mem := by decide

end Sys2Proof.Tests
end

section
/-! Proofs about the whole state. First the GP0 port: a packet writes pixels of VRAM only and keeps the port's invariant
(R290-R303). -/

namespace Sys2Proof.Machine.Gpu

/-! ### Pixels: every packet reaches VRAM through `setPixel` alone -/

theorem vramIndex_lt (x y : Nat) : vramIndex x y < 1024 * 512 := by
  unfold vramIndex
  omega

/-- A packet in ReceivingParameters before its handler, if any, has run (R296). -/
def addParam (g : Gpu) (w : Word) : Gpu :=
  { g with cmd := { g.cmd with params := g.cmd.params ++ [w], remainingWords := g.cmd.remainingWords - 1 } }

theorem parameterWord_eq (g : Gpu) (w : Word) :
    g.parameterWord w =
      if g.cmd.remainingWords - 1 = 0 then
        (if g.cmd.kind = .rectangle then (g.addParam w).drawPixel else (g.addParam w).startTransfer)
      else g.addParam w := rfl

theorem commandWord_vram (g : Gpu) (w : Word) : (g.commandWord w).vram = g.vram := by
  unfold commandWord
  split <;> rfl

/-- What writing one pixel keeps of VRAM, a packet keeps. -/
theorem vram_gp0Write {P : Vram → Prop} (hP : ∀ v x y px, P v → P (Cells.write v (vramIndex x y) px))
    {g : Gpu} (hg : P g.vram) (w : Word) : P (g.gp0Write w).vram := by
  unfold gp0Write
  cases g.gp0State with
  | awaitingCommand => exact (commandWord_vram g w).symm ▸ hg
  | receivingParameters =>
    dsimp only
    rw [parameterWord_eq]
    split_ifs
    · exact hP _ _ _ _ hg
    · exact hg
    · exact hg
  | receivingData => exact hP _ _ _ _ (hP _ _ _ _ hg)
  | transferringData => exact hg

theorem wf_vram_gp0Write {g : Gpu} (hg : Vram.wf g.vram) (w : Word) : Vram.wf (g.gp0Write w).vram :=
  vram_gp0Write (P := Vram.wf) (fun _ _ _ _ hv => Cells.wf_write hv _ _) hg w

theorem inBounds_vram_gp0Write {g : Gpu} (hg : Vram.inBounds g.vram) (w : Word) : Vram.inBounds (g.gp0Write w).vram := by
  refine vram_gp0Write (fun v x y px hv c hc => ?_) hg w
  obtain hc | ⟨rfl, -⟩ := Cells.mem_write hc
  · exact hv c hc
  · exact vramIndex_lt x y

/-! ### The port's invariant -/

theorem portInv_of_awaitingCommand {g : Gpu} (hs : g.gp0State = .awaitingCommand) (h : g.cmd.remainingWords = 0) :
    g.portInv := by
  unfold portInv
  rwa [hs]

/-- An advance stays in the cursor's row (R302). -/
theorem inRow_advanceCursor {c : Cursor} (h : c.inRow) : (advanceCursor c).inRow := by
  obtain ⟨hstart, hle, hlt, hmax⟩ := h
  unfold advanceCursor
  split
  · exact ⟨hstart, le_rfl, by dsimp only; omega, hmax⟩
  · exact ⟨hstart, by dsimp only; omega, by dsimp only; omega, hmax⟩

/-- The invariant looks at the port's state, the command and, in a transfer, at the cursor's row alone. -/
theorem portInv_of_cursor {g k : Gpu} (hs : k.gp0State = g.gp0State) (hc : k.cmd = g.cmd)
    (hrow : g.cursor.inRow → k.cursor.inRow) (h : g.portInv) : k.portInv := by
  unfold portInv at *
  rw [hs, hc]
  cases hst : g.gp0State <;> rw [hst] at h
  case awaitingCommand | receivingParameters => exact h
  case receivingData | transferringData =>
    obtain ⟨hkind, hwords, hr⟩ := h
    exact ⟨hkind, hwords, hrow hr⟩

/-- Counting a word of a data phase leaves one that still expects words, or ends it (R300, R301). -/
theorem portInv_countWord {g : Gpu} (hs : g.gp0State = .receivingData ∨ g.gp0State = .transferringData) (h : g.portInv) :
    g.countWord.portInv := by
  by_cases hz : g.cmd.remainingWords - 1 = 0
  · exact portInv_of_awaitingCommand (if_pos hz) hz
  · have hst : g.countWord.gp0State = g.gp0State := if_neg hz
    unfold portInv at *
    rw [hst]
    obtain hs | hs := hs
    all_goals
      rw [hs] at h ⊢
      obtain ⟨hkind, -, hrow⟩ := h
      exact ⟨hkind, Nat.one_le_iff_ne_zero.mpr hz, hrow⟩

theorem portInv_dataWord {g : Gpu} (hs : g.gp0State = .receivingData) (h : g.portInv) (w : Word) :
    (g.dataWord w).portInv :=
  portInv_countWord (.inl hs)
    (portInv_of_cursor (g := g) rfl rfl (fun hr => inRow_advanceCursor (inRow_advanceCursor hr)) h)

theorem portInv_transferWord {g : Gpu} (hs : g.gp0State = .transferringData) (h : g.portInv) : g.transferWord.portInv :=
  portInv_countWord (.inr hs)
    (portInv_of_cursor (g := g) rfl rfl (fun hr => inRow_advanceCursor (inRow_advanceCursor hr)) h)

theorem portInv_commandWord {g : Gpu} (h : g.portInv) (w : Word) : (g.commandWord w).portInv := by
  unfold commandWord
  split
  · exact .inl ⟨rfl, rfl, rfl⟩
  · exact .inr ⟨.inl rfl, Nat.le_succ 1, rfl⟩
  · exact .inr ⟨.inr rfl, Nat.le_succ 1, rfl⟩
  · exact h

/-- The row a transfer header sets up has 1 to 1024 columns from a column of VRAM (R299). -/
theorem inRow_startTransfer (g : Gpu) : g.startTransfer.cursor.inRow := by
  have hx : (loHalf (g.param 0) &&& 0x3FF#16).toNat ≤ 0x3FF := Nat.and_le_right
  have hw : (loHalf (g.param 1) - 1#16 &&& 0x3FF#16).toNat ≤ 0x3FF := Nat.and_le_right
  refine ⟨?_, le_rfl, ?_, ?_⟩ <;> simp only [startTransfer, decodeWidth] <;> omega

/-- A transfer header starts a data phase of its command, or none for an empty transfer (R299, D11). -/
theorem portInv_startTransfer {g : Gpu} (hk : g.cmd.kind = .cpuToVram ∨ g.cmd.kind = .vramToCpu) :
    g.startTransfer.portInv := by
  by_cases hz : g.startTransfer.cmd.remainingWords = 0
  · exact portInv_of_awaitingCommand (if_pos hz) hz
  · have hst : g.startTransfer.gp0State = if g.cmd.kind = .cpuToVram then .receivingData else .transferringData := if_neg hz
    have hwords := Nat.one_le_iff_ne_zero.mpr hz
    unfold portInv
    rw [hst]
    obtain hk | hk := hk
    all_goals
      rw [hk]
      exact ⟨hk, hwords, inRow_startTransfer g⟩

theorem portInv_parameterWord {g : Gpu} (hs : g.gp0State = .receivingParameters) (h : g.portInv) (w : Word) :
    (g.parameterWord w).portInv := by
  unfold portInv at h
  rw [hs] at h
  rw [parameterWord_eq]
  obtain ⟨hkind, -, hwords⟩ | ⟨hkind, hpos, hwords⟩ := h
  · have hz : g.cmd.remainingWords - 1 = 0 := by omega
    rw [if_pos hz, if_pos hkind]
    exact portInv_of_awaitingCommand rfl hz
  · have hrect : g.cmd.kind ≠ .rectangle := by
      obtain hk | hk := hkind <;> simp [hk]
    rw [if_neg hrect]
    split
    · exact portInv_startTransfer hkind
    · next hz =>
      have hlen : (g.addParam w).cmd.params.length = g.cmd.params.length + 1 := by simp [addParam]
      have hrem : (g.addParam w).cmd.remainingWords = g.cmd.remainingWords - 1 := rfl
      have hst : (g.addParam w).gp0State = .receivingParameters := hs
      unfold portInv
      rw [hst]
      exact .inr ⟨hkind, by omega, by omega⟩

/-- Every packet keeps the port's invariant (R303). -/
theorem portInv_gp0Write {g : Gpu} (h : g.portInv) (w : Word) : (g.gp0Write w).portInv := by
  unfold gp0Write
  cases hs : g.gp0State with
  | awaitingCommand => exact portInv_commandWord h w
  | receivingParameters => exact portInv_parameterWord hs h w
  | receivingData => exact portInv_dataWord hs h w
  | transferringData => exact portInv_transferWord hs h

end Sys2Proof.Machine.Gpu
end

section
/-! What an effect of phase 5, and so a whole step, can do to each part of the state: one lemma per part. -/

namespace Sys2Proof.Machine

/-- One aligned store in RAM or the scratchpad takes the memory `m` to `m'`. -/
def Memory.StoresInto (m m' : Memory) : Prop :=
  ∃ n a v, misaligned n a = false ∧ (regionOf (phys a) = .ram ∨ regionOf (phys a) = .scratchpad) ∧
    m' = m.writeLe n (phys a) v

/-- An effect stores one aligned value in RAM or the scratchpad, or leaves memory alone. -/
theorem Effect.mem_cases {s t : State} (h : Effect s t) : t.mem = s.mem ∨ Memory.StoresInto s.mem t.mem := by
  cases h with
  | writeMem n a v ha hr => exact .inr ⟨n, a, v, ha, hr, rfl⟩
  | writeReg | drawReg | jumpLink => exact .inl (setX_mem ..)
  | loadSlot => exact .inl (installLoad_mem ..)
  | nothing | writeHiLo | jump | trap | writeCop0 | packet => exact .inl rfl

/-- An effect passes one packet to GP0, or leaves the GPU alone. -/
theorem Effect.gpu_cases {s t : State} (h : Effect s t) : t.gpu = s.gpu ∨ ∃ v, t.gpu = s.gpu.gp0Write v := by
  cases h with
  | packet v => exact .inr ⟨v, rfl⟩
  | writeReg | drawReg | jumpLink => exact .inl (setX_gpu ..)
  | loadSlot => exact .inl (installLoad_gpu ..)
  | nothing | writeHiLo | jump | trap | writeCop0 | writeMem => exact .inl rfl

/-- An effect installs a load with one instruction to wait, or leaves the slot alone (R256). -/
theorem Effect.ld_cases {s t : State} (h : Effect s t) :
    t.ld = s.ld ∨ ∃ r v, t.ld = some { reg := r, value := v, remaining := 1 } := by
  cases h with
  | loadSlot r v => exact .inr ⟨r, v, rfl⟩
  | writeReg | drawReg | jumpLink => exact .inl (setX_ld ..)
  | nothing | writeHiLo | jump | trap | writeCop0 | writeMem | packet => exact .inl rfl

theorem step_mem_cases {s t : State} (h : step s = .next t) : t.mem = s.mem ∨ Memory.StoresInto s.mem t.mem := by
  obtain ⟨w, u, -, he, rfl⟩ := step_effect h
  simpa using he.mem_cases

theorem step_gpu_cases {s t : State} (h : step s = .next t) : t.gpu = s.gpu ∨ ∃ v, t.gpu = s.gpu.gp0Write v := by
  obtain ⟨w, u, -, he, rfl⟩ := step_effect h
  simpa using he.gpu_cases

/-- After a retire a load waits for at most one more instruction, if one did before (R38, R131). -/
theorem retireLoad_ld_remaining {s : State} (hs : ∀ slot, s.ld = some slot → slot.remaining ≤ 1) {slot : LoadSlot}
    (h : (retireLoad s).ld = some slot) : slot.remaining ≤ 1 := by
  rw [retireLoad_ld] at h
  split at h
  · cases h
  · next old hold =>
    have hle := hs old hold
    split at h <;> cases h
    exact (Nat.sub_le _ _).trans hle

/-- After a step a load waits for at most one more instruction, if one did before (R38, R131). -/
theorem step_ld_remaining {s t : State} (hs : ∀ slot, s.ld = some slot → slot.remaining ≤ 1) (h : step s = .next t) :
    ∀ slot, t.ld = some slot → slot.remaining ≤ 1 := by
  obtain ⟨w, u, -, he, rfl⟩ := step_effect h
  intro slot hslot
  simp only [clearX0_ld, refetch_ld] at hslot
  obtain hld | ⟨r, v, hld⟩ := he.ld_cases <;> rw [hld] at hslot
  · simp only [advance_ld, checkFetch_ld] at hslot
    exact retireLoad_ld_remaining hs hslot
  · cases hslot
    exact le_rfl

end Sys2Proof.Machine
end

section
/-! The invariant of the state is kept by every step, and no step changes the BIOS. -/

namespace Sys2Proof.Machine

/-- An aligned store in RAM or the scratchpad lists bytes of that region only (R71, R73). -/
theorem Memory.inArrays_writeLe {m : Memory} (hm : Memory.inArrays m) {n : Width} {a : Word} (v : Word)
    (ha : misaligned n a = false) (hr : regionOf (phys a) = .ram ∨ regionOf (phys a) = .scratchpad) :
    Memory.inArrays (m.writeLe n (phys a) v) := by
  intro c hc
  obtain hc | ⟨hle, hlt⟩ := Memory.mem_writeBytes hc
  · exact hm c hc
  · rw [bytesOfWord_take_length] at hlt
    have hreg : regionOf c.1 = regionOf (phys a) := by
      rw [← regionOf_aligned_byte ha (i := c.1 - phys a) (by omega), Nat.add_sub_cancel' hle]
    unfold Region.isArray
    rw [hreg]
    exact hr.imp_right .inl

/-- Settles O55: each field of the invariant follows from what a step can do to its part of the state. -/
theorem everyStepKeepsTheInvariant : Obligations.EveryStepKeepsTheInvariant := by
  intro s t hs h
  have hmem : Memory.wf t.mem ∧ Memory.inArrays t.mem := by
    obtain hm | ⟨n, a, v, ha, hr, hm⟩ := step_mem_cases h <;> rw [hm]
    · exact ⟨hs.memWf, hs.memInArrays⟩
    · exact ⟨Memory.wf_writeLe hs.memWf n (phys a) v, Memory.inArrays_writeLe hs.memInArrays v ha hr⟩
  have hgpu : Vram.wf t.gpu.vram ∧ Vram.inBounds t.gpu.vram ∧ t.gpu.portInv := by
    obtain hg | ⟨v, hg⟩ := step_gpu_cases h <;> rw [hg]
    · exact ⟨hs.vramWf, hs.vramInBounds, hs.port⟩
    · exact ⟨Gpu.wf_vram_gp0Write hs.vramWf v, Gpu.inBounds_vram_gp0Write hs.vramInBounds v,
        Gpu.portInv_gp0Write hs.port v⟩
  have hx0 : t.regs[0] = 0#32 := by
    obtain ⟨w, u, -, -, rfl⟩ := step_effect h
    exact clearX0_regs_zero _
  exact ⟨hmem.1, hmem.2, hgpu.1, hgpu.2.1, hx0, step_ld_remaining hs.loadSlot h, hgpu.2.2⟩

/-- Settles O47: the one store a step can make lies, with all its bytes, in RAM or the scratchpad. -/
theorem biosIsImmutable : Obligations.BiosIsImmutable := by
  intro s t hwf h p hp
  obtain hm | ⟨n, a, v, ha, hr, hm⟩ := step_mem_cases h
  · exact byteAt_of_mem_eq hm p
  · have hout : p < phys a ∨ phys a + n.bytes ≤ p := by
      by_contra hin
      have hreg := regionOf_aligned_byte ha (i := p - phys a) (by omega)
      rw [Nat.add_sub_cancel' (by omega), hp] at hreg
      simp [← hreg] at hr
    unfold State.byteAt
    rw [hm]
    exact Memory.read_writeLe_outside hwf n (phys a) v hout

end Sys2Proof.Machine
end

section
/-! SR reaches no result but through MFC0, SW's isolation bit and SR itself: each shared operation of the meanings, on a state
with another SR, answers the same but for SR. -/

namespace Sys2Proof.Claims

open Sys2Proof.Machine

/-- The state with another SR. -/
def withStatus (s : State) (sr : Word) : State := { s with cop0 := { s.cop0 with sr := sr } }

variable (s : State) (sr : Word)

theorem setX_withStatus (r : Reg) (v : Word) : (withStatus s sr).setX r v = withStatus (s.setX r v) sr := by
  unfold State.setX
  split <;> rfl

theorem flushLoad_withStatus : flushLoad (withStatus s sr) = withStatus (flushLoad s) sr := by
  unfold flushLoad
  rw [show (withStatus s sr).ld = s.ld from rfl]
  split
  · rfl
  · exact setX_withStatus ..

theorem installLoad_withStatus (r : Reg) (v : Word) :
    installLoad r v (withStatus s sr) = withStatus (installLoad r v s) sr := by
  unfold installLoad
  rw [flushLoad_withStatus]
  rfl

theorem forgetStatus_setX (r : Reg) (v : Word) :
    forgetStatus (.next ((withStatus s sr).setX r v)) = forgetStatus (.next (s.setX r v)) := by
  rw [setX_withStatus]
  rfl

theorem forgetStatus_trap (e : ExcCode) (a : Word) :
    forgetStatus (.next (takeException e a (withStatus s sr))) = forgetStatus (.next (takeException e a s)) := rfl

theorem forgetStatus_writeOrOverflow (b : Bool) (r : Reg) (v : Word) :
    forgetStatus (writeOrOverflow b r v (withStatus s sr)) = forgetStatus (writeOrOverflow b r v s) := by
  cases b
  · exact forgetStatus_setX s sr r v
  · exact forgetStatus_trap ..

theorem forgetStatus_branchIf (b : Bool) (off : Half) :
    forgetStatus (.next (branchIf b off (withStatus s sr))) = forgetStatus (.next (branchIf b off s)) := by
  cases b <;> rfl

theorem forgetStatus_branchIf_link (b : Bool) (off : Half) (r : Reg) (v : Word) :
    forgetStatus (.next ((branchIf b off (withStatus s sr)).linkTo r v)) =
      forgetStatus (.next ((branchIf b off s).linkTo r v)) := by
  cases b
  · exact forgetStatus_setX s sr r v
  · exact forgetStatus_setX (s.jumpTo (branchTarget s off)) sr r v

theorem busRead_withStatus (n : Width) (a : Word) : busRead (withStatus s sr) n a = busRead s n a := busRead_congr rfl rfl n a

/-- An access that answers the same on both states, with continuations that do, answers the same. -/
theorem forgetStatus_ofAccess {α : Type} (x : Except Refusal α) {k l : α → Result}
    (h : ∀ v, forgetStatus (k v) = forgetStatus (l v)) : forgetStatus (ofAccess x k) = forgetStatus (ofAccess x l) := by
  cases x with
  | ok v => exact h v
  | error q => rfl

theorem forgetStatus_installLoad (r : Reg) (v : Word) :
    forgetStatus (.next (installLoad r v (withStatus s sr))) = forgetStatus (.next (installLoad r v s)) := by
  rw [installLoad_withStatus]
  rfl

theorem forgetStatus_load (n : Width) (f : Word → Word) (r : Reg) (a : Word) :
    forgetStatus (load n f r a (withStatus s sr)) = forgetStatus (load n f r a s) := by
  unfold load
  split
  · exact forgetStatus_trap ..
  · rw [busRead_withStatus]
    exact forgetStatus_ofAccess _ fun v => forgetStatus_installLoad ..

theorem forgetStatus_loadMerged (f : Nat → Word → Word → Word) (r : Reg) (a : Word) :
    forgetStatus (loadMerged f r a (withStatus s sr)) = forgetStatus (loadMerged f r a s) := by
  unfold loadMerged
  rw [busRead_withStatus]
  exact forgetStatus_ofAccess _ fun v => forgetStatus_installLoad ..

theorem forgetStatus_busWrite (n : Width) (a v : Word) :
    forgetStatus (ofAccess (busWrite (withStatus s sr) n a v) .next) = forgetStatus (ofAccess (busWrite s n a v) .next) := by
  unfold busWrite
  rw [show (withStatus s sr).gpu = s.gpu from rfl]
  cases spansRegions n a
  · cases regionOf (phys a)
    case io => cases ioWrite s.gpu n (phys a) v <;> rfl
    all_goals rfl
  · rfl

theorem forgetStatus_store (n : Width) (v a : Word) :
    forgetStatus (store n v a (withStatus s sr)) = forgetStatus (store n v a s) := by
  unfold store
  split
  · exact forgetStatus_trap ..
  · exact forgetStatus_busWrite ..

theorem forgetStatus_storeMerged (f : Nat → Word → Word → Word) (r a : Word) :
    forgetStatus (storeMerged f r a (withStatus s sr)) = forgetStatus (storeMerged f r a s) := by
  unfold storeMerged
  rw [busRead_withStatus]
  exact forgetStatus_ofAccess _ fun m => forgetStatus_busWrite ..

/-- SW looks at the isolation bit, which both states share (R267). -/
theorem forgetStatus_sw (hsr : sr.getLsbD 16 = s.cop0.sr.getLsbD 16) (rt : Reg) (off : Half) (base : Reg) :
    forgetStatus (execSw rt off base (withStatus s sr)) = forgetStatus (execSw rt off base s) := by
  have hiso : (withStatus s sr).isolated = s.isolated := hsr
  have hea : ea (withStatus s sr) base off = ea s base off := rfl
  unfold execSw
  rw [hiso, hea]
  split
  · rfl
  · exact forgetStatus_store s sr .word (s.x rt) _

/-- MFC0 of any register but SR reads the same (R242). -/
theorem forgetStatus_mfc0 (rt : Reg) {rd : Reg} (hrd : rd ≠ 12) :
    forgetStatus (execMfc0 rt rd (withStatus s sr)) = forgetStatus (execMfc0 rt rd s) := by
  have hget : (withStatus s sr).cop0.get? rd = s.cop0.get? rd := by
    unfold Cop0.get?
    rw [if_neg hrd, if_neg hrd]
    rfl
  unfold execMfc0 readCop0
  rw [hget]
  cases s.cop0.get? rd with
  | none => exact forgetStatus_setX { s with draws := s.draws + 1 } sr rt _
  | some v => exact forgetStatus_setX s sr rt v

/-- MTC0 overwrites SR or leaves it alone (R243). -/
theorem forgetStatus_mtc0 (rt rd : Reg) :
    forgetStatus (execMtc0 rt rd (withStatus s sr)) = forgetStatus (execMtc0 rt rd s) := by
  have hx : (withStatus s sr).x rt = s.x rt := rfl
  unfold execMtc0 Cop0.set
  rw [hx]
  split_ifs <;> rfl

end Sys2Proof.Claims

namespace Sys2Proof.Claims

open Sys2Proof.Machine

/-- Settles O33: every instruction answers through one of the shared operations, each of which is blind to SR. -/
theorem statusBitsNeverMatter : Obligations.StatusBitsNeverMatter := by
  intro i s sr hread hsr
  cases i with
  | addi | add | sub => exact forgetStatus_writeOrOverflow s sr _ _ _
  | addiu | slti | sltiu | andi | ori | xori | lui => exact forgetStatus_setX s sr _ _
  | sll | srl | sra | sllv | srlv | srav => exact forgetStatus_setX s sr _ _
  | addu | subu | and | or | xor | nor | slt | sltu => exact forgetStatus_setX s sr _ _
  | mfhi | mflo => exact forgetStatus_setX s sr _ _
  | mthi | mtlo | mult | multu | div | divu | rfe | j | jr => rfl
  | syscall | brk => exact forgetStatus_trap s sr _ _
  | jal target => exact forgetStatus_setX (s.jumpTo (jtarget s.pc target)) sr _ _
  | jalr _ rs => exact forgetStatus_setX (s.jumpTo (s.x rs)) sr _ _
  | beq | bne | blez | bgtz | bltz | bgez => exact forgetStatus_branchIf s sr _ _
  | bltzal | bgezal => exact forgetStatus_branchIf_link s sr _ _ _ _
  | mfc0 rt rd => exact forgetStatus_mfc0 s sr rt (of_decide_eq_false hread)
  | mtc0 rt rd => exact forgetStatus_mtc0 s sr rt rd
  | lb | lbu => exact forgetStatus_load s sr .byte _ _ _
  | lh | lhu => exact forgetStatus_load s sr .half _ _ _
  | lw => exact forgetStatus_load s sr .word _ _ _
  | lwl | lwr => exact forgetStatus_loadMerged s sr _ _ _
  | sb => exact forgetStatus_store s sr .byte _ _
  | sh => exact forgetStatus_store s sr .half _ _
  | sw rt off base => exact forgetStatus_sw s sr hsr rt off base
  | swl | swr => exact forgetStatus_storeMerged s sr _ _ _

end Sys2Proof.Claims
end

section
/-! Reset, the host's reset, the refetch and the moves of register 0 and COP0. -/

namespace Sys2Proof.Machine

/-! ### The refetch -/

/-- The refetch holds the word the bus reads at `pc`, wherever the spec fixes it (R137, D28). -/
theorem refetch_instruction {s : State} {w : Word} (hpc : s.pc.toNat % 4 = 0 ∨ regionOf (phys s.pc) ≠ .io)
    (hr : busRead s .word s.pc = .ok w) : (refetch s).instruction = w := by
  have hfixed : ¬ (pcMisaligned s = true ∧ regionOf (phys s.pc) = .io) := by
    rintro ⟨hmis, hio⟩
    have halign : s.pc.toNat % 4 = 0 := hpc.resolve_right (fun hne => hne hio)
    rw [pcMisaligned_eq, (misaligned_eq_false_iff .word s.pc).mpr halign] at hmis
    cases hmis
  have hword : refetchWord s = some w := by
    unfold refetchWord
    rw [if_neg hfixed, hr]
  unfold refetch
  rw [hword]

/-- Settles O15: phase 6 is the last to touch `pc`, memory or the GPU. -/
theorem instructionRegisterShowsTheNextWord : Obligations.InstructionRegisterShowsTheNextWord := by
  intro s t w h hpc hr
  obtain ⟨_, u, -, -, rfl⟩ := step_effect h
  rw [busRead_congr (s := clearX0 (refetch u)) (t := u) (refetch_mem u) (congrArg Gpu.gpuread (refetch_gpu u))] at hr
  simp only [clearX0_pc, refetch_pc] at hpc hr
  exact refetch_instruction hpc hr

/-! ### Reset -/

theorem reset_x (r : Reg) : State.reset.x r = 0#32 := by
  simp [State.x, State.reset]

/-- A state with no listed cell, no pending load and the GPU at reset has the invariant if its memory does. -/
theorem inv_of_reset_parts {s : State} (hwf : Memory.wf s.mem) (harr : Memory.inArrays s.mem) (hx0 : s.regs[0] = 0#32)
    (hld : s.ld = none) {init : Word} (hgpu : s.gpu = Gpu.reset init) : s.Inv where
  memWf := hwf
  memInArrays := harr
  vramWf := by rw [hgpu]; exact Cells.wf_nil
  vramInBounds := by rw [hgpu]; exact fun c hc => nomatch hc
  x0 := hx0
  loadSlot := by rw [hld]; exact fun _ h => nomatch h
  port := by rw [hgpu]; exact Gpu.portInv_of_awaitingCommand rfl rfl

/-- Settles O56: at reset nothing is listed and no load is pending. -/
theorem invariantHoldsAtReset : Obligations.InvariantHoldsAtReset :=
  inv_of_reset_parts Cells.wf_nil (fun _ hc => nomatch hc) rfl rfl rfl

/-- Settles O57: registers by `reset_x`, the BIOS word by the bus's read of a memory that lists nothing. -/
theorem resetValues : Obligations.ResetValues := by
  have hbios : busRead State.reset .word 0xBFC00000#32 = .ok State.reset.instruction := rfl
  exact ⟨reset_x, rfl, rfl, rfl, rfl, rfl, hbios, rfl, rfl, rfl, rfl, fun _ _ => rfl, fun _ => rfl, rfl, rfl, rfl, rfl⟩

/-! ### The host's reset -/

/-- A cell is a BIOS cell exactly when its address is in the BIOS region (R71). -/
theorem isBiosCell_iff (c : Host.Cell) : isBiosCell c = true ↔ regionOf c.1 = .bios := by
  simp only [isBiosCell, regionOf, ramSize, scratchpadBase, biosBase, biosSize, decide_eq_true_eq]
  split_ifs <;> simp only [iff_false, iff_true] <;> omega

/-- What a read finds once only the cells at some addresses are kept. -/
theorem Cells.read_filter {w : Nat} {keep : Nat × BitVec w → Bool} {P : Nat → Prop} [DecidablePred P]
    (hkeep : ∀ c, keep c = true ↔ P c.1) (m : List (Nat × BitVec w)) (a : Nat) :
    Cells.read (m.filter keep) a = if P a then Cells.read m a else 0#w := by
  induction m with
  | nil => simp
  | cons c rest ih =>
    by_cases hc : keep c = true
    · have hP := (hkeep c).mp hc
      rw [List.filter_cons_of_pos hc]
      simp only [Cells.read]
      by_cases ha : a = c.1
      · simp [ha, hP]
      · simp [ha, ih]
    · have hP := fun h => hc ((hkeep c).mpr h)
      rw [List.filter_cons_of_neg hc, ih]
      by_cases ha : a = c.1
      · simp [ha, if_neg hP]
      · simp [Cells.read, ha]

theorem Cells.wf_filter {w : Nat} {m : List (Nat × BitVec w)} (hm : Cells.WF m) (keep : Nat × BitVec w → Bool) :
    Cells.WF (m.filter keep) :=
  ⟨hm.1.filter keep, fun c hc => hm.2 c (List.mem_of_mem_filter hc)⟩

/-- The host's reset before its prefetch (R360). -/
def State.beforePrefetch (s : State) (init : Word) : State :=
  { State.reset with mem := s.mem.filter isBiosCell, gpu := Gpu.reset init, draws := s.draws }

theorem hostReset_eq (s : State) (init : Word) : s.hostReset init = refetch (s.beforePrefetch init) := rfl

/-- The host's reset prefetches what the bus reads at the reset vector (R360). -/
theorem hostReset_instruction (s : State) (init : Word) :
    busRead (s.hostReset init) .word 0xBFC00000#32 = .ok (s.hostReset init).instruction := by
  obtain ⟨w, hw⟩ := busRead_word_ok (s.beforePrefetch init) (a := 0xBFC00000#32) (by decide)
  have haligned : (0xBFC00000#32 : Word).toNat % 4 = 0 := by decide
  have hinstr : (s.hostReset init).instruction = w := refetch_instruction (.inl haligned) hw
  rw [hinstr, hostReset_eq, busRead_congr (refetch_mem _) (congrArg Gpu.gpuread (refetch_gpu _)), hw]

/-- The host's reset keeps the BIOS bytes alone (R361). -/
theorem hostReset_byteAt (s : State) (init : Word) (p : Nat) :
    (s.hostReset init).byteAt p = if regionOf p = .bios then s.byteAt p else 0#8 := by
  unfold State.byteAt
  rw [hostReset_eq, refetch_mem]
  exact Cells.read_filter (P := fun a => regionOf a = .bios) isBiosCell_iff s.mem p

theorem hostReset_inv {s : State} (hs : s.Inv) (init : Word) : (s.hostReset init).Inv := by
  rw [hostReset_eq]
  refine inv_of_reset_parts (init := init) ?_ ?_ ?_ (refetch_ld _) (refetch_gpu _)
  · rw [refetch_mem]
    exact Cells.wf_filter hs.memWf isBiosCell
  · rw [refetch_mem]
    exact fun c hc => hs.memInArrays c (List.mem_of_mem_filter hc)
  · simp only [refetch_regs]
    rfl

/-- Settles O58: the prefetch changes `instruction` alone, so every other part is what reset, or the filter of the memory,
leaves. -/
theorem hostResetKeepsOnlyTheBios : Obligations.HostResetKeepsOnlyTheBios := by
  intro s init hs t
  have hx : ∀ r, t.x r = 0#32 := fun r => (refetch_x _ r).trans (reset_x r)
  have hcop0 : t.cop0 = Cop0.reset := refetch_cop0 _
  have hgpu : t.gpu = Gpu.reset init := refetch_gpu _
  refine ⟨hx, refetch_hi _, refetch_lo _, refetch_pc _, refetch_nextPc _, refetch_ld _, ?_, ?_, ?_, ?_, ?_, ?_, ?_, ?_, ?_,
    hostReset_byteAt s init, hostReset_instruction s init, hostReset_inv hs init⟩
  iterate 4 rw [hcop0]; rfl
  · intro i
    unfold State.pixelAt
    rw [hgpu]
    rfl
  all_goals rw [hgpu]; rfl

/-! ### Register 0 -/

/-- Settles O8: a slot for register 0 retires and flushes through a discarded write. -/
theorem registerZeroDiscardsWrites : Obligations.RegisterZeroDiscardsWrites := by
  intro s v
  refine ⟨x_zero s, fun q => by rw [setX_zero], fun slot hld hreg q => ⟨?_, ?_⟩⟩
  · simp [x_retireLoad, hld, hreg]
  · simp [x_flushLoad, hld, hreg]

end Sys2Proof.Machine
end

section
/-! MFC0 and MTC0, for every COP0 index (R242, R243). -/

namespace Sys2Proof.Claims

open Sys2Proof.Machine

theorem decode_of_cop0 {w : Word} (h : opOf w = 0x10#6) : decode w = decodeCop0 w := by
  unfold decode
  rw [h]
  rfl

theorem SameOutside.of_fields {s t : State} (hm : t.mem = s.mem) (hg : t.gpu = s.gpu) (hi : t.instruction = s.instruction)
    (hd : t.draws = s.draws) : SameOutside s t :=
  ⟨byteAt_of_mem_eq hm, hg, hi, hd⟩

theorem regBecomes_setX (s : State) (r : Reg) (v : Word) : RegBecomes s r v (s.setX r v) where
  value := by
    by_cases hr : r = 0 <;> simp [hr]
  others q hq := x_setX_of_ne s hq v

theorem sameCpu_setX (s : State) (r : Reg) (v : Word) : SameCpu s (s.setX r v) :=
  ⟨setX_hi .., setX_lo .., setX_ld .., setX_cop0 ..⟩

theorem writesReg_setX (s : State) (r : Reg) (v : Word) : WritesReg s r v (s.setX r v) :=
  ⟨regBecomes_setX s r v, setX_pc .., setX_nextPc .., sameCpu_setX s r v,
    .of_fields (setX_mem ..) (setX_gpu ..) (setX_instruction ..) (setX_draws ..)⟩

/-- MFC0 of an index with storage writes what is stored. -/
theorem exec_mfc0_of_some {s : State} {rd : Reg} {v : Word} (h : s.cop0.get? rd = some v) (rt : Reg) :
    exec (.mfc0 rt rd) s = .next (s.setX rt v) := by
  simp only [exec, execMfc0, readCop0, h]

/-- MFC0 of an index without storage writes a draw (R40, D6). -/
theorem exec_mfc0_of_none {s : State} {rd : Reg} (h : s.cop0.get? rd = none) (rt : Reg) :
    exec (.mfc0 rt rd) s = .next ({ s with draws := s.draws + 1 }.setX rt (Config.cop0Scratch s.draws)) := by
  simp only [exec, execMfc0, readCop0, h]

theorem get?_eq_none {rd : Reg} (c : Cop0) (h8 : rd ≠ 8) (h12 : rd ≠ 12) (h13 : rd ≠ 13) (h14 : rd ≠ 14) :
    c.get? rd = none := by
  simp [Cop0.get?, h8, h12, h13, h14]

theorem mfc0_of_some_writesReg {s : State} {rd : Reg} {v : Word} (h : s.cop0.get? rd = some v) (rt : Reg) :
    Answers (exec (.mfc0 rt rd) s) (WritesReg s rt v) :=
  ⟨_, exec_mfc0_of_some h rt, writesReg_setX s rt v⟩

/-! ### Each COP0 register after an MTC0 -/

theorem set_badA (c : Cop0) (rd : Reg) (v : Word) : (c.set rd v).badA = if rd = 8 then v else c.badA := by
  unfold Cop0.set
  split_ifs <;> rfl

theorem set_sr (c : Cop0) (rd : Reg) (v : Word) : (c.set rd v).sr = if rd = 12 then v else c.sr := by
  unfold Cop0.set
  split_ifs <;> simp_all

theorem set_cause (c : Cop0) (rd : Reg) (v : Word) : (c.set rd v).cause = if rd = 13 then v else c.cause := by
  unfold Cop0.set
  split_ifs <;> simp_all

theorem set_epc (c : Cop0) (rd : Reg) (v : Word) : (c.set rd v).epc = if rd = 14 then v else c.epc := by
  unfold Cop0.set
  split_ifs <;> simp_all

/-- Settles O30: a read by whether the index has storage, a write register by register. -/
theorem cop0Moves : Obligations.Cop0Moves := by
  refine ⟨fun w hop => ⟨fun hrs => ?_, fun hrs => ?_⟩, fun s rt rd => ⟨?_, ?_, ?_, ?_, fun h8 h12 h13 h14 => ?_, ?_⟩⟩
  · rw [decode_of_cop0 hop, decodeCop0, if_pos hrs]
  · rw [decode_of_cop0 hop, decodeCop0, hrs]
    rfl
  iterate 4 exact mfc0_of_some_writesReg rfl rt
  · obtain ⟨hvalue, hothers⟩ := regBecomes_setX { s with draws := s.draws + 1 } rt (Config.cop0Scratch s.draws)
    exact ⟨_, exec_mfc0_of_none (get?_eq_none _ h8 h12 h13 h14) rt, _, ⟨hvalue, hothers⟩, setX_pc .., setX_nextPc ..,
      ⟨setX_hi .., setX_lo .., setX_ld .., setX_cop0 ..⟩, setX_gpu .., setX_instruction .., byteAt_of_mem_eq (setX_mem ..)⟩
  · exact ⟨_, rfl, set_badA .., set_sr .., set_cause .., set_epc .., fun _ => rfl, rfl, rfl, rfl, rfl, rfl,
      .of_fields rfl rfl rfl rfl⟩

end Sys2Proof.Claims
end

section
/-! The bus: the address fold, the regions, and what a read and a write of any width answer (R70-R83). -/

namespace Sys2Proof.Machine

open Sys2Proof.Claims

/-! ### Addresses and regions -/

/-- The fold of an address a few bytes further depends on the fold of the address alone (R70). -/
theorem phys_add (a k : Word) : phys (a + k) = (phys a + k.toNat) % 2 ^ 29 := by
  simp only [phys_eq, BitVec.toNat_add]
  omega

theorem spansRegions_congr {a b : Word} (h : phys a = phys b) (n : Width) : spansRegions n a = spansRegions n b := by
  unfold spansRegions
  rw [phys_add, phys_add, h]

theorem busRead_phys_congr (s : State) (n : Width) {a b : Word} (h : phys a = phys b) :
    busRead s n a = busRead s n b := by
  unfold busRead
  rw [spansRegions_congr h, h]

theorem busWrite_phys_congr (s : State) (n : Width) {a b : Word} (h : phys a = phys b) (v : Word) :
    busWrite s n a v = busWrite s n b v := by
  unfold busWrite
  rw [spansRegions_congr h, h]

/-- A store stores in RAM and the scratchpad (R71, R75). -/
theorem writable_iff (p : Nat) : writable p ↔ regionOf p = .ram ∨ regionOf p = .scratchpad := by
  simp only [writable, regionOf, ramSize, scratchpadBase, biosBase, biosSize]
  split_ifs <;> simp only [or_self, or_true, true_or, iff_true, iff_false] <;> omega

theorem ne_io_of_ram_or_scratchpad {p : Nat} (h : regionOf p = .ram ∨ regionOf p = .scratchpad) : regionOf p ≠ .io := by
  obtain h | h := h <;> simp [h]

theorem not_spansRegions_iff (n : Width) (a : Word) :
    spansRegions n a = false ↔ regionOf (phys (a + BitVec.ofNat 32 (n.bytes - 1))) = regionOf (phys a) := by
  rw [spansRegions, bne_eq_false_iff_eq, eq_comm]

/-- The access is clear of both port words exactly when it touches neither (R82). -/
theorem clearOfPorts_iff (n : Width) (a : Word) : clearOfPorts n a ↔ touchesGpuPort n (phys a) = false := by
  simp only [clearOfPorts, touchesGpuPort, gp0Port, gp1Port, decide_eq_false_iff_not]
  omega

theorem Width.bytes_pos (n : Width) : 0 < n.bytes := by cases n <;> decide

theorem ne_port_of_clearOfPorts {n : Width} {a : Word} (h : clearOfPorts n a) : phys a ≠ gp0Port ∧ phys a ≠ gp1Port := by
  have hpos := n.bytes_pos
  simp only [clearOfPorts] at h
  simp only [gp0Port, gp1Port]
  omega

theorem touches_of_not_clearOfPorts {n : Width} {a : Word} (h : ¬ clearOfPorts n a) : touchesGpuPort n (phys a) = true := by
  rwa [clearOfPorts_iff, Bool.not_eq_false] at h

theorem word_aligned_of_phys {a : Word} (h : phys a % 4 = 0) : misaligned .word a = false := by
  rw [misaligned_eq_false_iff]
  rw [phys_eq] at h
  simp only [Width.bytes]
  omega

/-! ### Reads -/

theorem busRead_of_isArray (s : State) {n : Width} {a : Word} (hspan : spansRegions n a = false)
    (h : (regionOf (phys a)).isArray) : busRead s n a = .ok (s.mem.readLe n (phys a)) := by
  unfold busRead
  rw [hspan]
  obtain h | h | h := h <;> rw [h] <;> rfl

theorem busRead_of_unmapped (s : State) {n : Width} {a : Word} (hspan : spansRegions n a = false)
    (h : regionOf (phys a) = .unmapped) : busRead s n a = .ok 0#32 := by
  unfold busRead
  rw [hspan, h]
  rfl

/-- An aligned access that touches no port, unless it is a word, is read (R73, R82). -/
theorem busRead_ok_of_clear (s : State) {n : Width} {a : Word} (ha : misaligned n a = false)
    (hclear : n = .word ∨ touchesGpuPort n (phys a) = false) : ∃ v, busRead s n a = .ok v := by
  cases hr : busRead s n a with
  | ok v => exact ⟨v, rfl⟩
  | error q =>
    obtain ⟨-, hn, -, ht⟩ := (busRead_error_iff s ha q).mp hr
    obtain hw | hc := hclear
    · exact absurd hw hn
    · rw [hc] at ht
      cases ht

theorem busRead_narrow_port (s : State) {n : Width} {a : Word} (ha : misaligned n a = false) (hn : n ≠ .word)
    (ht : touchesGpuPort n (phys a) = true) : busRead s n a = .error .narrowGpuPort :=
  (busRead_error_iff s ha _).mpr ⟨rfl, hn, io_of_touchesGpuPort ha ht, ht⟩

theorem toNat_append_eq_add {m k : Nat} (x : BitVec m) (y : BitVec k) : (x ++ y).toNat = x.toNat * 2 ^ k + y.toNat := by
  rw [BitVec.toNat_append, ← Nat.shiftLeft_add_eq_or_of_lt y.isLt, Nat.shiftLeft_eq]

/-- A little-endian read is the sum of its bytes, each at its power of 256 (R74, R84). -/
theorem readLe_toNat (m : Memory) (n : Width) (p : Nat) :
    (m.readLe n p).toNat = ∑ i ∈ Finset.range n.bytes, (Cells.read m (p + i)).toNat * 256 ^ i := by
  have hbyte : ∀ q, (Cells.read m q).toNat < 256 := fun q => (Cells.read m q).isLt
  cases n with
  | byte =>
    have h0 := hbyte p
    simp only [Memory.readLe, Width.bytes, Finset.sum_range_one, Nat.add_zero, BitVec.toNat_setWidth]
    omega
  | half =>
    have h0 := hbyte p
    have h1 := hbyte (p + 1)
    simp only [Memory.readLe, Width.bytes, Finset.sum_range_succ, Finset.sum_range_zero, Nat.add_zero,
      BitVec.toNat_setWidth, toNat_append_eq_add]
    omega
  | word =>
    simp only [Memory.readLe, wordOfBytes, Width.bytes, Finset.sum_range_succ, Finset.sum_range_zero,
      Nat.add_zero, toNat_append_eq_add]
    omega

/-! ### Writes -/

/-- The state a write leaves where the bus answers: the bytes in RAM and the scratchpad, a packet for a word at the GP0 port,
and nothing elsewhere (R75-R83). -/
def afterWrite (s : State) (n : Width) (a v : Word) : State :=
  { s with
    mem := if regionOf (phys a) = .ram ∨ regionOf (phys a) = .scratchpad then s.mem.writeLe n (phys a) v else s.mem
    gpu := if n = .word ∧ phys a = gp0Port then s.gpu.gp0Write v else s.gpu }

theorem regionOf_gp0Port : regionOf gp0Port = .io := by decide

theorem afterWrite_of_writable (s : State) {n : Width} {a : Word} (v : Word)
    (h : regionOf (phys a) = .ram ∨ regionOf (phys a) = .scratchpad) :
    afterWrite s n a v = { s with mem := s.mem.writeLe n (phys a) v } := by
  have hport : ¬ (n = .word ∧ phys a = gp0Port) := fun hp => ne_io_of_ram_or_scratchpad h (hp.2 ▸ regionOf_gp0Port)
  unfold afterWrite
  rw [if_pos h, if_neg hport]

theorem afterWrite_of_gp0Port (s : State) {a : Word} (v : Word) (h : phys a = gp0Port) :
    afterWrite s .word a v = { s with gpu := s.gpu.gp0Write v } := by
  have hw : ¬ (regionOf (phys a) = .ram ∨ regionOf (phys a) = .scratchpad) := fun hr =>
    ne_io_of_ram_or_scratchpad hr (h ▸ regionOf_gp0Port)
  unfold afterWrite
  rw [if_neg hw, if_pos ⟨rfl, h⟩]

theorem afterWrite_of_dropped (s : State) {n : Width} {a : Word} (v : Word)
    (hw : ¬ (regionOf (phys a) = .ram ∨ regionOf (phys a) = .scratchpad)) (hp : ¬ (n = .word ∧ phys a = gp0Port)) :
    afterWrite s n a v = s := by
  unfold afterWrite
  rw [if_neg hw, if_neg hp]

/-- Inside one region other than the I/O page every write answers (R73). -/
theorem busWrite_of_not_io (s : State) {n : Width} {a : Word} (v : Word) (hspan : spansRegions n a = false)
    (hio : regionOf (phys a) ≠ .io) : busWrite s n a v = .ok (afterWrite s n a v) := by
  have hport : ¬ (n = .word ∧ phys a = gp0Port) := fun h => hio (h.2 ▸ regionOf_gp0Port)
  unfold busWrite afterWrite
  rw [hspan, if_neg hport]
  cases hr : regionOf (phys a)
  case io => exact absurd hr hio
  all_goals simp

/-- Unmapped space and the BIOS drop every write (R76, R77). -/
theorem busWrite_of_unmapped_or_bios (s : State) {n : Width} {a : Word} (v : Word) (hspan : spansRegions n a = false)
    (h : regionOf (phys a) = .unmapped ∨ regionOf (phys a) = .bios) : busWrite s n a v = .ok s := by
  unfold busWrite
  rw [hspan]
  obtain h | h := h <;> rw [h] <;> rfl

theorem not_spansRegions_of_busWrite {s t : State} {n : Width} {a v : Word} (h : busWrite s n a v = .ok t) :
    spansRegions n a = false := by
  unfold busWrite at h
  split at h
  · cases h
  · exact Bool.eq_false_of_not_eq_true ‹_›

/-- A word at the GP0 port is a packet (R78). -/
theorem busWrite_of_gp0Port (s : State) {a : Word} (v : Word) (h : phys a = gp0Port) :
    busWrite s .word a v = .ok { s with gpu := s.gpu.gp0Write v } := by
  have hspan := spansRegions_of_aligned (word_aligned_of_phys (a := a) (by simp [h, gp0Port]))
  unfold busWrite
  rw [hspan, h, regionOf_gp0Port]
  simp [ioWrite]

/-- Whatever its region, a write that answers leaves `afterWrite`. -/
theorem busWrite_ok {s t : State} {n : Width} {a v : Word} (h : busWrite s n a v = .ok t) : t = afterWrite s n a v := by
  by_cases hio : regionOf (phys a) = .io
  · by_cases hp : n = .word ∧ phys a = gp0Port
    · obtain ⟨rfl, hp⟩ := hp
      rw [busWrite_of_gp0Port s v hp] at h
      rw [afterWrite_of_gp0Port s v hp]
      cases h
      rfl
    · rw [afterWrite_of_dropped s v (by simp [hio]) hp]
      obtain ⟨hr, -⟩ | ⟨hn, ha, -⟩ | ht := busWrite_cases h
      · simp [hio] at hr
      · exact absurd ⟨hn, ha⟩ hp
      · exact ht
  · rw [busWrite_of_not_io s v (not_spansRegions_of_busWrite h) hio] at h
    cases h
    rfl

/-- An aligned access that touches no port, unless it is a word, is written (R73, R82). -/
theorem busWrite_of_clear (s : State) {n : Width} {a : Word} (v : Word) (ha : misaligned n a = false)
    (hclear : n = .word ∨ touchesGpuPort n (phys a) = false) : busWrite s n a v = .ok (afterWrite s n a v) := by
  cases hw : busWrite s n a v with
  | ok t => rw [busWrite_ok hw]
  | error q =>
    obtain ⟨-, hn, -, ht⟩ := (busWrite_error_iff s ha v q).mp hw
    obtain hword | hc := hclear
    · exact absurd hword hn
    · rw [hc] at ht
      cases ht

theorem busWrite_narrow_port (s : State) {n : Width} {a : Word} (v : Word) (ha : misaligned n a = false) (hn : n ≠ .word)
    (ht : touchesGpuPort n (phys a) = true) : busWrite s n a v = .error .narrowGpuPort :=
  (busWrite_error_iff s ha v _).mpr ⟨rfl, hn, io_of_touchesGpuPort ha ht, ht⟩

/-- What a write that answers leaves is a store of its bytes, and nothing else (R74-R78). -/
theorem afterWrite_storesBytes {s : State} (hwf : Memory.wf s.mem) (n : Width) (a v : Word) :
    StoresBytes s n a v (afterWrite s n a v) where
  stored hw i hi := by
    rw [afterWrite_of_writable s v ((writable_iff _).mp hw)]
    exact Memory.read_writeLe_inside hwf n (phys a) v hi
  outside p hp := by
    unfold afterWrite State.byteAt
    dsimp only
    split
    · exact Memory.read_writeLe_outside hwf n (phys a) v hp
    · rfl
  dropped hw p := byteAt_of_mem_eq (if_neg (mt (writable_iff _).mpr hw)) p
  packet hp := if_pos hp
  noPacket hp := if_neg hp
  regs _ := rfl
  pc := rfl
  nextPc := rfl
  cpu := ⟨rfl, rfl, rfl, rfl⟩
  instruction := rfl
  draws := rfl

end Sys2Proof.Machine
end

section
/-! The statements about the bus: the fold and the region map, bytes of the arrays, and the I/O page. -/

namespace Sys2Proof.Machine

open Sys2Proof.Claims

/-- Settles O44: an access looks at its address through `phys` alone; the regions are the ranges `regionOf` tests. -/
theorem addressFoldAndRegionMap : Obligations.AddressFoldAndRegionMap := by
  refine ⟨fun s n a b v h => ?_, fun p hp => ?_⟩
  · have hphys : phys a = phys b := by rw [phys_eq, phys_eq, h]
    exact ⟨phys_eq a, busRead_phys_congr s n hphys, busWrite_phys_congr s n hphys v⟩
  · simp only [regionOf, ramSize, scratchpadBase, biosBase, biosSize, Nat.reduceAdd]
    split_ifs <;> simp only [true_iff, false_iff] <;> omega

/-- Settles O45: region by region, with `afterWrite` for the writes. -/
theorem busReadsAndWritesBytes : Obligations.BusReadsAndWritesBytes := by
  intro s n a v hwf hlast
  have hspan := (not_spansRegions_iff n a).mpr hlast
  refine ⟨fun harr => ?_, fun hr => ⟨?_, ?_⟩, fun hr => ?_, fun hr => ?_⟩
  · exact ⟨_, busRead_of_isArray s hspan harr, readLe_toNat s.mem n (phys a)⟩
  · exact busRead_of_unmapped s hspan hr
  · exact busWrite_of_unmapped_or_bios s v hspan (.inl hr)
  · exact busWrite_of_unmapped_or_bios s v hspan (.inr hr)
  · exact ⟨_, busWrite_of_not_io s v hspan (ne_io_of_ram_or_scratchpad hr), afterWrite_storesBytes hwf n a v⟩

theorem regionOf_gp1Port : regionOf gp1Port = .io := by decide

/-- Settles O46: the two ports as words; a narrow access that touches them; everything else in the page. -/
theorem ioPage : Obligations.IoPage := by
  intro s n a v
  refine ⟨fun h => ⟨?_, busWrite_of_gp0Port s v h⟩, fun h => ⟨?_, ?_⟩, fun ha hn hport => ?_,
    fun ha hio hclear => ⟨?_, ?_⟩⟩
  · rw [busRead_aligned s (word_aligned_of_phys (by simp [h])), h, regionOf_gp0Port]
    simp [ioRead]
  · rw [busRead_aligned s (word_aligned_of_phys (by simp [h])), h, regionOf_gp1Port]
    simp [ioRead]
  · rw [busWrite_of_clear s v (word_aligned_of_phys (by simp [h])) (.inl rfl),
      afterWrite_of_dropped s v (by simp [h, regionOf_gp1Port]) (by simp [h])]
  · have ht := touches_of_not_clearOfPorts hport
    exact ⟨busRead_narrow_port s ha hn ht, busWrite_narrow_port s v ha hn ht⟩
  · obtain ⟨h0, h1⟩ := ne_port_of_clearOfPorts hclear
    rw [busRead_aligned s ha, hio]
    simp [ioRead, h0, h1, (clearOfPorts_iff n a).mp hclear]
  · rw [busWrite_of_clear s v ha (.inr ((clearOfPorts_iff n a).mp hclear)),
      afterWrite_of_dropped s v (by simp [hio]) (fun hp => (ne_port_of_clearOfPorts hclear).1 hp.2)]

end Sys2Proof.Machine
end

section
/-! What the shared operations of loads and stores answer, case by case (R255-R270). -/

namespace Sys2Proof.Machine

section
variable {n : Width} {a : Word} {s : State}

theorem load_of_misaligned (ha : misaligned n a = true) (f : Word → Word) (rt : Reg) :
    load n f rt a s = .next (takeException .adEL a s) := by
  unfold load
  exact if_pos ha

theorem load_of_ok {v : Word} (ha : misaligned n a = false) (hr : busRead s n a = .ok v) (f : Word → Word) (rt : Reg) :
    load n f rt a s = .next (installLoad rt (f v) s) := by
  unfold load
  rw [ha, hr]
  rfl

theorem load_of_error {q : Refusal} (ha : misaligned n a = false) (hr : busRead s n a = .error q) (f : Word → Word)
    (rt : Reg) : load n f rt a s = .refused q := by
  unfold load
  rw [ha, hr]
  rfl

theorem store_of_misaligned (ha : misaligned n a = true) (v : Word) :
    store n v a s = .next (takeException .adES a s) := by
  unfold store
  exact if_pos ha

theorem store_of_ok {t : State} {v : Word} (ha : misaligned n a = false) (hw : busWrite s n a v = .ok t) :
    store n v a s = .next t := by
  unfold store
  rw [ha, hw]
  rfl

theorem store_of_error {q : Refusal} {v : Word} (ha : misaligned n a = false) (hw : busWrite s n a v = .error q) :
    store n v a s = .refused q := by
  unfold store
  rw [ha, hw]
  rfl

/-- An aligned store that touches no port, unless it is a word, answers what the write leaves (R82). -/
theorem store_of_clear (ha : misaligned n a = false) (hclear : n = .word ∨ touchesGpuPort n (phys a) = false) (v : Word) :
    store n v a s = .next (afterWrite s n a v) :=
  store_of_ok ha (busWrite_of_clear s v ha hclear)

/-- An aligned narrow load that touches a port is refused (R82, D8). -/
theorem load_of_narrow_port (ha : misaligned n a = false) (hn : n ≠ .word) (ht : touchesGpuPort n (phys a) = true)
    (f : Word → Word) (rt : Reg) : load n f rt a s = .refused .narrowGpuPort :=
  load_of_error ha (busRead_narrow_port s ha hn ht) f rt

/-- An aligned narrow store that touches a port is refused (R82, D8). -/
theorem store_of_narrow_port (ha : misaligned n a = false) (hn : n ≠ .word) (ht : touchesGpuPort n (phys a) = true)
    (v : Word) : store n v a s = .refused .narrowGpuPort :=
  store_of_error ha (busWrite_narrow_port s v ha hn ht)

/-- Every other load answers: with the trap, or with the slot. -/
theorem load_answers (hclear : misaligned n a = false → n = .word ∨ touchesGpuPort n (phys a) = false)
    (f : Word → Word) (rt : Reg) : ∃ t, load n f rt a s = .next t := by
  cases ha : misaligned n a with
  | true => exact ⟨_, load_of_misaligned ha f rt⟩
  | false =>
    obtain ⟨v, hv⟩ := busRead_ok_of_clear s ha (hclear ha)
    exact ⟨_, load_of_ok ha hv f rt⟩

/-- Every other store answers: with the trap, or with what the write leaves. -/
theorem store_answers (hclear : misaligned n a = false → n = .word ∨ touchesGpuPort n (phys a) = false)
    (v : Word) : ∃ t, store n v a s = .next t := by
  cases ha : misaligned n a with
  | true => exact ⟨_, store_of_misaligned ha v⟩
  | false => exact ⟨_, store_of_clear ha (hclear ha) v⟩

end

/-- A merged load accesses an aligned word, so it always answers (R263, R264). -/
theorem loadMerged_answers (f : Nat → Word → Word → Word) (rt : Reg) (a : Word) (s : State) :
    ∃ t, loadMerged f rt a s = .next t := by
  obtain ⟨w, hw⟩ := busRead_word_ok s (alignedWord_aligned a)
  unfold loadMerged
  rw [hw]
  exact ⟨_, rfl⟩

/-- A merged store accesses an aligned word, so it always answers (R268, R269). -/
theorem storeMerged_answers (f : Nat → Word → Word → Word) (r a : Word) (s : State) :
    ∃ t, storeMerged f r a s = .next t := by
  obtain ⟨m, hm⟩ := busRead_word_ok s (alignedWord_aligned a)
  unfold storeMerged
  rw [hm]
  obtain ⟨t, ht⟩ := busWrite_word_ok s (alignedWord_aligned a) (f (lane a) m r)
  exact ⟨t, by rw [ofAccess, ht]; rfl⟩

theorem misaligned_iff (n : Width) (a : Word) : misaligned n a = true ↔ a.toNat % n.bytes ≠ 0 := by
  rw [← Bool.not_eq_false, not_iff_not]
  exact misaligned_eq_false_iff n a

/-! ### SW, the one instruction that looks at IsC (R267, D24) -/

section
variable {rt base : Reg} {off : Half} {s : State}

theorem execSw_of_isolated (hiso : s.isolated = true) (ha : misaligned .word (ea s base off) = false) :
    execSw rt off base s = .next s := by
  unfold execSw
  exact if_pos ⟨hiso, ha⟩

theorem execSw_of_not_isolated (hiso : s.isolated = false) :
    execSw rt off base s = store .word (s.x rt) (ea s base off) s := by
  unfold execSw
  rw [hiso]
  exact if_neg (fun h => nomatch h.1)

theorem execSw_of_misaligned (ha : misaligned .word (ea s base off) = true) :
    execSw rt off base s = .next (takeException .adES (ea s base off) s) := by
  unfold execSw
  rw [if_neg (fun h => by rw [ha] at h; cases h.2), store_of_misaligned ha]

theorem execSw_answers (rt base : Reg) (off : Half) (s : State) : ∃ t, execSw rt off base s = .next t := by
  unfold execSw
  split
  · exact ⟨s, rfl⟩
  · exact store_answers (fun _ => .inl rfl) _

end

end Sys2Proof.Machine
end

section
/-! The statements about loads and stores: misaligned ones, the narrow stores and SW, and the round trip. -/

namespace Sys2Proof.Claims

open Sys2Proof.Machine

/-- The trap entry is exactly R321's, field by field. -/
theorem traps_takeException (s : State) (e : ExcCode) (a : Word) : Traps s e a (takeException e a s) :=
  ⟨rfl, rfl, rfl, rfl, rfl, rfl, fun _ => rfl, rfl, rfl, rfl, .of_fields rfl rfl rfl rfl⟩

/-- Settles O35: the alignment check comes before the access, for SW before IsC too. -/
theorem misalignedAccessTraps : Obligations.MisalignedAccessTraps := by
  intro s rt base off a
  refine ⟨fun h => ?_, fun h => ?_⟩
  · have ha : misaligned .half a = true := (misaligned_iff .half a).mpr h
    exact ⟨⟨_, load_of_misaligned ha _ rt, traps_takeException s .adEL a⟩,
      ⟨_, load_of_misaligned ha _ rt, traps_takeException s .adEL a⟩,
      ⟨_, store_of_misaligned ha _, traps_takeException s .adES a⟩⟩
  · have ha : misaligned .word a = true := (misaligned_iff .word a).mpr h
    exact ⟨⟨_, load_of_misaligned ha _ rt, traps_takeException s .adEL a⟩,
      ⟨_, execSw_of_misaligned ha, traps_takeException s .adES a⟩⟩

/-- Settles O36: the bus refuses exactly these accesses. -/
theorem narrowPortAccessIsRefused : Obligations.NarrowPortAccessIsRefused := by
  intro s rt base off a
  refine ⟨fun hport => ?_, fun heven hport => ?_⟩
  · have ht := touches_of_not_clearOfPorts hport
    exact ⟨load_of_narrow_port rfl (by decide) ht _ rt, load_of_narrow_port rfl (by decide) ht _ rt,
      store_of_narrow_port rfl (by decide) ht _⟩
  · have ht := touches_of_not_clearOfPorts hport
    have ha : misaligned .half a = false := (misaligned_eq_false_iff .half a).mpr heven
    exact ⟨load_of_narrow_port ha (by decide) ht _ rt, load_of_narrow_port ha (by decide) ht _ rt,
      store_of_narrow_port ha (by decide) ht _⟩

theorem decode_of_sb {w : Word} (h : opOf w = 0x28#6) : decode w = .ok (.sb (rtOf w) (immOf w) (rsOf w)) := by
  unfold decode
  rw [h]
  rfl

theorem decode_of_sh {w : Word} (h : opOf w = 0x29#6) : decode w = .ok (.sh (rtOf w) (immOf w) (rsOf w)) := by
  unfold decode
  rw [h]
  rfl

theorem decode_of_sw {w : Word} (h : opOf w = 0x2B#6) : decode w = .ok (.sw (rtOf w) (immOf w) (rsOf w)) := by
  unfold decode
  rw [h]
  rfl

/-- Settles O38: a store clear of the ports leaves `afterWrite`, whatever IsC. -/
theorem narrowStores : Obligations.NarrowStores := by
  refine ⟨fun w => ⟨decode_of_sb, decode_of_sh⟩, fun s rt base off hwf => ⟨fun hclear => ?_, fun heven hclear => ?_⟩⟩
  · exact ⟨_, store_of_clear rfl (.inr ((clearOfPorts_iff _ _).mp hclear)) _, afterWrite_storesBytes hwf ..⟩
  · exact ⟨_, store_of_clear ((misaligned_eq_false_iff .half _).mpr heven) (.inr ((clearOfPorts_iff _ _).mp hclear)) _,
      afterWrite_storesBytes hwf ..⟩

/-- Settles O39: SW leaves `afterWrite`, or with IsC set the state itself. -/
theorem storeWordAndCacheIsolation : Obligations.StoreWordAndCacheIsolation := by
  refine ⟨fun w => decode_of_sw, fun s rt base off hwf h4 => ?_⟩
  have ha : misaligned .word (ea s base off) = false := (misaligned_eq_false_iff .word _).mpr h4
  refine ⟨fun hiso => ?_, fun hiso => execSw_of_isolated hiso ha⟩
  exact ⟨_, (execSw_of_not_isolated hiso).trans (store_of_clear ha (.inl rfl) _), afterWrite_storesBytes hwf ..⟩

theorem sextByte_mask (v : Word) : sextByte (Width.byte.mask v) = (v.setWidth 8).signExtend 32 := by
  unfold sextByte Width.mask
  rw [BitVec.setWidth_setWidth_of_le _ (by decide), BitVec.setWidth_eq]

theorem sextHalf_mask (v : Word) : sextHalf (Width.half.mask v) = (v.setWidth 16).signExtend 32 := by
  unfold sextHalf Width.mask
  rw [BitVec.setWidth_setWidth_of_le _ (by decide), BitVec.setWidth_eq]

/-- A store to RAM or the scratchpad, then a load of the same width with the same operands, puts the low bits stored, extended
as the load says, in the slot (R98, R272). -/
theorem load_after_store {s t : State} {n : Width} {base : Reg} {off : Half} {v : Word} (hwf : Memory.wf s.mem)
    (hw : writable (phys (ea s base off))) (ha : misaligned n (ea s base off) = false)
    (hstore : store n v (ea s base off) s = .next t) {f : Word → Word} {r : Word} (hf : f (n.mask v) = r) (rt : Reg) :
    Answers (load n f rt (ea t base off) t) (fun u => u.ld = some ⟨rt, r, 1⟩) := by
  have hreg := (writable_iff _).mp hw
  rw [store_of_ok ha (busWrite_of_not_io s v (spansRegions_of_aligned ha) (ne_io_of_ram_or_scratchpad hreg))] at hstore
  cases hstore
  have hread := busRead_of_isArray (afterWrite s n (ea s base off) v) (spansRegions_of_aligned ha) (hreg.imp_right .inl)
  rw [show (afterWrite s n (ea s base off) v).mem = _ from if_pos hreg, Memory.readLe_writeLe hwf] at hread
  exact ⟨_, load_of_ok ha hread f rt, hf ▸ rfl⟩

/-- Settles O42: the round trip width by width; SW with IsC clear is a plain store. -/
theorem storeThenLoadGivesTheValueBack : Obligations.StoreThenLoadGivesTheValueBack := by
  intro s t rt rt' base off hwf hw
  refine ⟨fun h => ⟨?_, ?_⟩, fun h2 h => ⟨?_, ?_⟩, fun h4 hiso h => ?_⟩
  · exact load_after_store (n := .byte) hwf hw rfl h (sextByte_mask _) rt'
  · exact load_after_store (n := .byte) hwf hw rfl h rfl rt'
  · exact load_after_store hwf hw ((misaligned_eq_false_iff .half _).mpr h2) h (sextHalf_mask _) rt'
  · exact load_after_store hwf hw ((misaligned_eq_false_iff .half _).mpr h2) h rfl rt'
  · have hstore : store .word (s.x rt) (ea s base off) s = .next t := (execSw_of_not_isolated hiso).symm.trans h
    exact load_after_store hwf hw ((misaligned_eq_false_iff .word _).mpr h4) hstore rfl rt'

end Sys2Proof.Claims
end

section
/-! Which steps complete, what a misaligned fetch does, and which instructions reach memory and the GPU. -/

namespace Sys2Proof.Claims

open Sys2Proof.Machine

/-! ### Completion (R82, R143) -/

/-- A narrow access the spec refuses is refused, load or store (R82, D8). -/
theorem exec_of_refusedNarrow {i : Instr} {s : State} (h : refusedNarrow i s) : exec i s = .refused .narrowGpuPort := by
  obtain ⟨n, a, hn, ha, ht⟩ := h
  cases i with
  | lb | lbu | lh | lhu => cases hn; exact load_of_narrow_port ha (by decide) ht _ _
  | sb | sh => cases hn; exact store_of_narrow_port ha (by decide) ht _
  | _ => cases hn

/-- A narrow access that is not refused is misaligned or clear of the ports. -/
theorem clear_of_not_refusedNarrow {i : Instr} {s : State} (h : ¬ refusedNarrow i s) {n : Width} {a : Word}
    (hn : narrowAccess s i = some (n, a)) (ha : misaligned n a = false) :
    n = .word ∨ touchesGpuPort n (phys a) = false :=
  .inr (Bool.eq_false_of_not_eq_true fun ht => h ⟨n, a, hn, ha, ht⟩)

theorem writeOrOverflow_answers (b : Bool) (r : Reg) (v : Word) (s : State) : ∃ t, writeOrOverflow b r v s = .next t := by
  unfold writeOrOverflow
  split <;> exact ⟨_, rfl⟩

/-- Every other instruction answers a next state (R143). -/
theorem exec_of_not_refusedNarrow {i : Instr} {s : State} (h : ¬ refusedNarrow i s) : ∃ t, exec i s = .next t := by
  cases i with
  | lb | lbu | lh | lhu => exact load_answers (clear_of_not_refusedNarrow h rfl) _ _
  | sb | sh => exact store_answers (clear_of_not_refusedNarrow h rfl) _
  | lw => exact load_answers (fun _ => .inl rfl) _ _
  | sw rt off base => exact execSw_answers rt base off s
  | lwl | lwr => exact loadMerged_answers _ _ _ s
  | swl | swr => exact storeMerged_answers _ _ _ s
  | addi | add | sub => exact writeOrOverflow_answers _ _ _ s
  | _ => exact ⟨_, rfl⟩

/-- Settles O14: phase 5 decides, since the fetch always answers and the phases after it are total. -/
theorem everyStepCompletesButNarrowPortAccess : Obligations.EveryStepCompletesButNarrowPortAccess := by
  intro s w hw
  have hstep : step s = finishStep (execWord w (atPhase5 s w)) := step_eq hw
  rw [hstep]
  unfold execWord
  refine ⟨fun ⟨i, hi, hrefused⟩ => ?_, fun hnot => ?_⟩
  · rw [hi]
    exact congrArg finishStep (exec_of_refusedNarrow hrefused)
  · cases hdec : decode w with
    | error e => exact ⟨_, rfl⟩
    | ok i =>
      obtain ⟨u, hu⟩ := exec_of_not_refusedNarrow fun hr => hnot ⟨i, hdec, hr⟩
      exact ⟨_, congrArg finishStep hu⟩

/-! ### The misaligned fetch (R132) -/

/-- Settles O10: the check traps and the fetch at the vector always answers. -/
theorem misalignedFetchTrapsAndGoesOn : Obligations.MisalignedFetchTrapsAndGoesOn := by
  intro s hpc
  have hmis : pcMisaligned (retireLoad s) = true := by
    rw [pcMisaligned_eq, retireLoad_pc]
    exact (misaligned_iff .word s.pc).mpr hpc
  have hcheck := checkFetch_of_misaligned hmis
  rw [retireLoad_pc] at hcheck
  obtain ⟨w, hw⟩ := fetch_ok (retireLoad s)
  have hstep := step_eq hw
  rw [hcheck] at hw hstep
  exact ⟨_, w, traps_takeException (retireLoad s) .adEL s.pc, hw, hstep⟩

/-! ### Memory and the GPU (R90) -/

/-- An effect changes the GPU by one packet, and then not memory, or leaves it alone. -/
theorem packet_or_same_gpu_of_effect {s t : State} (h : Effect s t) :
    t.gpu = s.gpu ∨ ∃ v, t.gpu = s.gpu.gp0Write v ∧ t.mem = s.mem := by
  cases h with
  | packet v => exact .inr ⟨v, rfl, rfl⟩
  | writeReg | drawReg | jumpLink => exact .inl (setX_gpu ..)
  | loadSlot => exact .inl (installLoad_gpu ..)
  | nothing | writeHiLo | jump | trap | writeCop0 | writeMem => exact .inl rfl

/-- Memory and the GPU are the same data. -/
def SameStore (s t : State) : Prop := t.mem = s.mem ∧ t.gpu = s.gpu

theorem sameStore_setX (s : State) (r : Reg) (v : Word) : SameStore s (s.setX r v) := ⟨setX_mem .., setX_gpu ..⟩

theorem sameStore_installLoad (s : State) (r : Reg) (v : Word) : SameStore s (installLoad r v s) :=
  ⟨installLoad_mem .., installLoad_gpu ..⟩

theorem sameStore_branchIf (s : State) (b : Bool) (off : Half) : SameStore s (branchIf b off s) := by
  cases b <;> exact ⟨rfl, rfl⟩

theorem sameStore_branchIf_link (s : State) (b : Bool) (off : Half) (r : Reg) (v : Word) :
    SameStore s ((branchIf b off s).linkTo r v) := by
  cases b
  · exact sameStore_setX s r v
  · exact sameStore_setX (s.jumpTo (branchTarget s off)) r v

theorem sameStore_of_load {n : Width} {f : Word → Word} {r : Reg} {a : Word} {s t : State} (h : load n f r a s = .next t) :
    SameStore s t := by
  obtain ⟨-, rfl⟩ | ⟨-, v, -, rfl⟩ := load_next h
  · exact ⟨rfl, rfl⟩
  · exact sameStore_installLoad ..

theorem sameStore_of_loadMerged {f : Nat → Word → Word → Word} {r : Reg} {a : Word} {s t : State}
    (h : loadMerged f r a s = .next t) : SameStore s t := by
  obtain ⟨w, -, rfl⟩ := loadMerged_next h
  exact sameStore_installLoad ..

theorem sameStore_of_writeOrOverflow {b : Bool} {r : Reg} {v : Word} {s t : State}
    (h : writeOrOverflow b r v s = .next t) : SameStore s t := by
  obtain ⟨-, rfl⟩ | ⟨-, rfl⟩ := writeOrOverflow_next h
  · exact ⟨rfl, rfl⟩
  · exact sameStore_setX ..

theorem sameStore_of_mfc0 {rt rd : Reg} {s t : State} (h : execMfc0 rt rd s = .next t) : SameStore s t := by
  cases h
  unfold readCop0
  split <;> exact sameStore_setX ..

/-- An instruction that is no store leaves memory and the GPU as they are. -/
theorem sameStore_of_not_isStore {i : Instr} {s t : State} (hi : isStore i = false) (h : exec i s = .next t) :
    SameStore s t := by
  cases i with
  | sb | sh | swl | sw | swr => cases hi
  | lb | lbu => exact sameStore_of_load (n := .byte) h
  | lh | lhu => exact sameStore_of_load (n := .half) h
  | lw => exact sameStore_of_load (n := .word) h
  | lwl | lwr => exact sameStore_of_loadMerged h
  | addi | add | sub => exact sameStore_of_writeOrOverflow h
  | mfc0 => exact sameStore_of_mfc0 h
  | beq | bne | blez | bgtz | bltz | bgez => cases h; exact sameStore_branchIf ..
  | bltzal | bgezal => cases h; exact sameStore_branchIf_link ..
  | jal target => cases h; exact sameStore_setX (s.jumpTo _) ..
  | jalr => cases h; exact sameStore_setX (s.jumpTo _) ..
  | j | jr | syscall | brk | mthi | mtlo | mult | multu | div | divu | mtc0 | rfe => cases h; exact ⟨rfl, rfl⟩
  | _ => cases h; exact sameStore_setX ..

/-- Settles O48: by `sameStore_of_not_isStore`, and by what an effect can do. -/
theorem onlyStoresTouchMemoryAndGpu : Obligations.OnlyStoresTouchMemoryAndGpu := by
  intro i s t h
  refine ⟨fun hi => ?_, ?_⟩
  · obtain ⟨hmem, hgpu⟩ := sameStore_of_not_isStore hi h
    exact ⟨byteAt_of_mem_eq hmem, hgpu⟩
  · obtain hgpu | ⟨v, hgpu, hmem⟩ := packet_or_same_gpu_of_effect (exec_effect h)
    · exact .inl hgpu
    · exact .inr ⟨v, hgpu, byteAt_of_mem_eq hmem⟩

end Sys2Proof.Claims
end

section
/-! The host's BIOS load, `set_pc` and EXE injection (R362, R365, R367). -/

namespace Sys2Proof.Claims

open Sys2Proof.Machine

/-! ### The BIOS load -/

theorem loadBios_of_length {image : List Byte} (h : image.length = biosSize) (s : State) :
    loadBios image s = .next { s with mem := s.mem.writeBytes biosBase image } := by
  unfold loadBios
  exact if_pos h

theorem loadBios_of_length_ne {image : List Byte} (h : image.length ≠ biosSize) (s : State) :
    loadBios image s = .refused .badBiosImage := by
  unfold loadBios
  exact if_neg h

theorem regionOf_eq_bios_iff (p : Nat) : regionOf p = .bios ↔ biosBase ≤ p ∧ p < biosBase + biosSize := by
  rw [← isBiosCell_iff (p, 0#8), isBiosCell, decide_eq_true_eq]

/-! ### `set_pc` -/

/-- A bus read looks at nothing the counters change. -/
theorem busRead_setCounters (s : State) (p q : Word) (n : Width) (a : Word) :
    busRead { s with pc := p, nextPc := q } n a = busRead s n a := busRead_congr rfl rfl n a

theorem setPc_of_ok {s : State} {a w : Word} (h : busRead s .word a = .ok w) :
    setPc a s = .next { s with pc := a, nextPc := a + 4#32, instruction := w } :=
  prefetch_of_ok ((busRead_setCounters s a (a + 4#32) .word a).trans h)

theorem setPc_of_error {s : State} {a : Word} {q : Refusal} (h : busRead s .word a = .error q) :
    setPc a s = .refused q :=
  prefetch_of_error ((busRead_setCounters s a (a + 4#32) .word a).trans h)

theorem setPc_next {s t : State} {a : Word} (h : setPc a s = .next t) :
    ∃ w, busRead s .word a = .ok w ∧ t = { s with pc := a, nextPc := a + 4#32, instruction := w } := by
  cases hr : busRead s .word a with
  | ok w =>
    rw [setPc_of_ok hr] at h
    cases h
    exact ⟨w, rfl, rfl⟩
  | error q =>
    rw [setPc_of_error hr] at h
    cases h

/-- The bus has no refusal of the host's own (R16). -/
theorem busRead_ne_badExeImage (s : State) (n : Width) (a : Word) : busRead s n a ≠ .error .badExeImage := by
  unfold busRead ioRead
  split_ifs
  · simp
  all_goals split <;> simp

theorem setPc_ne_badExeImage (a : Word) (s : State) : setPc a s ≠ .refused .badExeImage := by
  intro h
  cases hr : busRead s .word a with
  | ok w =>
    rw [setPc_of_ok hr] at h
    cases h
  | error q =>
    rw [setPc_of_error hr] at h
    cases h
    exact busRead_ne_badExeImage s .word a hr

/-- A word that is aligned, or in one region other than the I/O page, is read (R73). -/
theorem busRead_word_of_aligned_or_plain (s : State) {a : Word}
    (h : a.toNat % 4 = 0 ∨ (spansRegions .word a = false ∧ regionOf (phys a) ≠ .io)) :
    ∃ w, busRead s .word a = .ok w := by
  obtain h4 | ⟨hspan, hio⟩ := h
  · exact busRead_word_ok s ((misaligned_eq_false_iff .word a).mpr h4)
  · cases hr : regionOf (phys a) with
    | ram => exact ⟨_, busRead_of_isArray s hspan (.inl hr)⟩
    | scratchpad => exact ⟨_, busRead_of_isArray s hspan (.inr (.inl hr))⟩
    | bios => exact ⟨_, busRead_of_isArray s hspan (.inr (.inr hr))⟩
    | unmapped => exact ⟨_, busRead_of_unmapped s hspan hr⟩
    | io => exact absurd hr hio

/-! ### The EXE injection -/

/-- The bytes an injection copies: `size` bytes of the file after its header (R365). -/
def exePayload (file : List Byte) : List Byte := (file.drop 0x800).take (exeField file 0x1C).toNat

theorem exePayload_length {file : List Byte} (h : 0x800 + (exeField file 0x1C).toNat ≤ file.length) :
    (exePayload file).length = (exeField file 0x1C).toNat := by
  simp only [exePayload, List.length_take, List.length_drop]
  omega

theorem exePayload_getD {file : List Byte} {i : Nat} (h : i < (exeField file 0x1C).toNat) :
    (exePayload file).getD i 0#8 = file.getD (0x800 + i) 0#8 := by
  simp only [exePayload, List.getD_eq_getElem?_getD, List.getElem?_take, if_pos h, List.getElem?_drop]

/-- The state an injection sets `pc` in: the payload copied to its destination. -/
def withPayload (file : List Byte) (s : State) : State :=
  { s with mem := s.mem.writeBytes (phys (exeField file 0x18)) (exePayload file) }

theorem injectExe_of_bad {file : List Byte}
    (h : file.length < 0x800 + (exeField file 0x1C).toNat ∨
      ramSize < phys (exeField file 0x18) + (exeField file 0x1C).toNat) (s : State) :
    injectExe file s = .refused .badExeImage := by
  unfold injectExe
  exact if_pos h

/-- The bytes after a copy: the payload's in its range, the old ones elsewhere. -/
theorem withPayload_byteAt {file : List Byte} {s : State} (hwf : Memory.wf s.mem)
    (h : 0x800 + (exeField file 0x1C).toNat ≤ file.length) (p : Nat) :
    (withPayload file s).byteAt p =
      if phys (exeField file 0x18) ≤ p ∧ p < phys (exeField file 0x18) + (exeField file 0x1C).toNat
      then file.getD (0x800 + (p - phys (exeField file 0x18))) 0#8 else s.byteAt p := by
  unfold State.byteAt withPayload
  rw [Memory.read_writeBytes hwf, exePayload_length h]
  split
  · exact exePayload_getD (by omega)
  · rfl

/-- Settles O59: the loads write their bytes at once, and `set_pc` is the bus read at the new `pc`. -/
theorem hostLoads : Obligations.HostLoads := by
  intro s image file a hwf
  refine ⟨fun h => loadBios_of_length_ne h s, fun h => ?_, ⟨fun w hw => ?_, fun q hq => setPc_of_error hq, fun h4 => ?_⟩,
    ?_⟩
  · refine ⟨_, loadBios_of_length h s, rfl, fun p => ?_⟩
    simp only [State.byteAt, regionOf_eq_bios_iff]
    rw [Memory.read_writeBytes hwf, h]
  · exact ⟨_, setPc_of_ok hw, rfl, rfl, rfl, rfl⟩
  · exact busRead_word_of_aligned_or_plain s (.inl h4)
  · intro size dest init started
    have hdest : phys (exeField file 0x18) = dest := phys_eq _
    refine ⟨fun hbad => injectExe_of_bad (hdest ▸ hbad) s, fun hlen hfit => ?_⟩
    have hinj : injectExe file s = setPc init (withPayload file s) := injectExe_of_fits s hlen (hdest ▸ hfit)
    have hstarted (t : State) (ht : injectExe file s = .next t) : started t := by
      rw [hinj] at ht
      obtain ⟨w, hw, rfl⟩ := setPc_next ht
      refine ⟨rfl, rfl, (busRead_congr rfl rfl _ _).trans hw, fun _ => rfl, rfl, rfl, rfl, rfl, rfl, rfl, fun p => ?_⟩
      exact (withPayload_byteAt hwf hlen p).trans (by rw [hdest])
    refine ⟨fun hinit => ?_, hstarted, hinj ▸ setPc_ne_badExeImage init _⟩
    obtain ⟨w, hw⟩ := busRead_word_of_aligned_or_plain (withPayload file s) hinit
    have ht := hinj.trans (setPc_of_ok hw)
    exact ⟨_, ht, hstarted _ ht⟩

end Sys2Proof.Claims
end

section
/-! The round trip of the encoder and the decoder (R100, R112). -/

namespace Sys2Proof.Claims

open Sys2Proof.Laws

/-- Every instruction survives its canonical word. -/
theorem decode_encode : ∀ i : Instr, RoundTrip.Statement i
  | .addi .. => RoundTrip.addi _ _ _ | .addiu .. => RoundTrip.addiu _ _ _ | .slti .. => RoundTrip.slti _ _ _
  | .sltiu .. => RoundTrip.sltiu _ _ _ | .andi .. => RoundTrip.andi _ _ _ | .ori .. => RoundTrip.ori _ _ _
  | .xori .. => RoundTrip.xori _ _ _ | .lui .. => RoundTrip.lui _ _ | .sll .. => RoundTrip.sll _ _ _
  | .srl .. => RoundTrip.srl _ _ _ | .sra .. => RoundTrip.sra _ _ _ | .sllv .. => RoundTrip.sllv _ _ _
  | .srlv .. => RoundTrip.srlv _ _ _ | .srav .. => RoundTrip.srav _ _ _ | .jr .. => RoundTrip.jr _
  | .jalr .. => RoundTrip.jalr _ _ | .syscall => RoundTrip.syscall | .brk => RoundTrip.brk | .mfhi .. => RoundTrip.mfhi _
  | .mthi .. => RoundTrip.mthi _ | .mflo .. => RoundTrip.mflo _ | .mtlo .. => RoundTrip.mtlo _
  | .mult .. => RoundTrip.mult _ _ | .multu .. => RoundTrip.multu _ _ | .div .. => RoundTrip.div _ _
  | .divu .. => RoundTrip.divu _ _ | .add .. => RoundTrip.add _ _ _ | .addu .. => RoundTrip.addu _ _ _
  | .sub .. => RoundTrip.sub _ _ _ | .subu .. => RoundTrip.subu _ _ _ | .and .. => RoundTrip.and _ _ _
  | .or .. => RoundTrip.or _ _ _ | .xor .. => RoundTrip.xor _ _ _ | .nor .. => RoundTrip.nor _ _ _
  | .slt .. => RoundTrip.slt _ _ _ | .sltu .. => RoundTrip.sltu _ _ _ | .j .. => RoundTrip.j _
  | .jal .. => RoundTrip.jal _ | .beq .. => RoundTrip.beq _ _ _ | .bne .. => RoundTrip.bne _ _ _
  | .blez .. => RoundTrip.blez _ _ | .bgtz .. => RoundTrip.bgtz _ _ | .bltz .. => RoundTrip.bltz _ _
  | .bgez .. => RoundTrip.bgez _ _ | .bltzal .. => RoundTrip.bltzal _ _ | .bgezal .. => RoundTrip.bgezal _ _
  | .mfc0 .. => RoundTrip.mfc0 _ _ | .mtc0 .. => RoundTrip.mtc0 _ _ | .rfe => RoundTrip.rfe
  | .lb .. => RoundTrip.lb _ _ _ | .lh .. => RoundTrip.lh _ _ _ | .lwl .. => RoundTrip.lwl _ _ _
  | .lw .. => RoundTrip.lw _ _ _ | .lbu .. => RoundTrip.lbu _ _ _ | .lhu .. => RoundTrip.lhu _ _ _
  | .lwr .. => RoundTrip.lwr _ _ _ | .sb .. => RoundTrip.sb _ _ _ | .sh .. => RoundTrip.sh _ _ _
  | .swl .. => RoundTrip.swl _ _ _ | .sw .. => RoundTrip.sw _ _ _ | .swr .. => RoundTrip.swr _ _ _

/-- Settles O3: the four bytes are those of the canonical word, which decodes back. -/
theorem decodeOfEncode : Obligations.DecodeOfEncode := by
  intro i rest hwf
  unfold encodeBytes
  rw [decodeBytes_bytesOfWord, decode_encode i hwf]

end Sys2Proof.Claims
end

section
/-! The decoder and the rows of the opcode table (R104-R107): which words a row's mask and match select, field by field, and what
the decoder answers on them. -/

namespace Sys2Proof.Claims

open Sys2Proof.Machine

/-! ### A word under a row's mask: the table has four masks -/

/-- A word is its six fields (R101). -/
theorem rWord_fields (w : Word) :
    rWord (opOf w) (rsBits w) (rtBits w) (rdBits w) (shamtBits w) (functOf w) = w := by
  unfold rWord opOf rsBits rtBits rdBits shamtBits functOf
  rw [BitVec.extractLsb'_append_extractLsb'_eq_extractLsb' (rfl : 26 = 21 + 5),
    BitVec.extractLsb'_append_extractLsb'_eq_extractLsb' (rfl : 21 = 16 + 5),
    BitVec.extractLsb'_append_extractLsb'_eq_extractLsb' (rfl : 16 = 11 + 5),
    BitVec.extractLsb'_append_extractLsb'_eq_extractLsb' (rfl : 11 = 6 + 5),
    BitVec.extractLsb'_append_extractLsb'_eq_extractLsb' (rfl : 6 = 0 + 6)]
  exact BitVec.extractLsb'_eq_self

/-- A masked word is its masked fields. -/
theorem and_eq_rWord (w m : Word) :
    w &&& m = rWord (opOf w &&& opOf m) (rsBits w &&& rsBits m) (rtBits w &&& rtBits m) (rdBits w &&& rdBits m)
      (shamtBits w &&& shamtBits m) (functOf w &&& functOf m) := by
  rw [← rWord_fields (w &&& m)]
  unfold opOf rsBits rtBits rdBits shamtBits functOf
  simp only [BitVec.extractLsb'_and]

theorem and_opMask (w : Word) : w &&& 0xFC000000#32 = rWord (opOf w) 0#5 0#5 0#5 0#5 0#6 := by
  rw [and_eq_rWord]
  congr
  exacts [BitVec.and_allOnes, BitVec.and_zero, BitVec.and_zero, BitVec.and_zero, BitVec.and_zero, BitVec.and_zero]

theorem and_functMask (w : Word) : w &&& 0xFC00003F#32 = rWord (opOf w) 0#5 0#5 0#5 0#5 (functOf w) := by
  rw [and_eq_rWord]
  congr
  exacts [BitVec.and_allOnes, BitVec.and_zero, BitVec.and_zero, BitVec.and_zero, BitVec.and_zero, BitVec.and_allOnes]

theorem and_rsMask (w : Word) : w &&& 0xFFE00000#32 = rWord (opOf w) (rsBits w) 0#5 0#5 0#5 0#6 := by
  rw [and_eq_rWord]
  congr
  exacts [BitVec.and_allOnes, BitVec.and_allOnes, BitVec.and_zero, BitVec.and_zero, BitVec.and_zero, BitVec.and_zero]

theorem and_bcondMask (w : Word) : w &&& 0xFC110000#32 = rWord (opOf w) 0#5 (rtBits w &&& 0x11#5) 0#5 0#5 0#6 := by
  rw [and_eq_rWord]
  congr
  exacts [BitVec.and_allOnes, BitVec.and_zero, BitVec.and_zero, BitVec.and_zero, BitVec.and_zero]

section
variable {w v : Word}

theorem opOf_of_opMask (h : w &&& 0xFC000000#32 = v) : opOf w = opOf v := by
  rw [← h, and_opMask, opOf_rWord]

theorem fields_of_functMask (h : w &&& 0xFC00003F#32 = v) : opOf w = opOf v ∧ functOf w = functOf v := by
  rw [← h, and_functMask, opOf_rWord, functOf_rWord]
  exact ⟨rfl, rfl⟩

theorem fields_of_rsMask (h : w &&& 0xFFE00000#32 = v) : opOf w = opOf v ∧ rsBits w = rsBits v := by
  rw [← h, and_rsMask, opOf_rWord, rsBits_rWord]
  exact ⟨rfl, rfl⟩

theorem fields_of_bcondMask (h : w &&& 0xFC110000#32 = v) :
    opOf w = opOf v ∧ (rtBits w).getLsbD 4 = (rtBits v).getLsbD 4 ∧ (rtBits w).getLsbD 0 = (rtBits v).getLsbD 0 := by
  rw [← h, and_bcondMask, opOf_rWord, rtBits_rWord]
  simp

end

/-! ### The maps the decoder goes through -/

theorem decode_of_special {w : Word} (h : opOf w = 0x00#6) : decode w = decodeSpecial w := by
  rw [decode, h]
  rfl

theorem decode_of_bcond {w : Word} (h : opOf w = 0x01#6) : decode w = .ok (decodeBcond w) := by
  rw [decode, h]
  rfl

/-- A word that matches a row decodes to an instruction of that row. -/
theorem decode_of_matchesRow {w : Word} {i : Instr} (h : matchesRow w i) :
    ∃ j, decode w = .ok j ∧ tableRow j = tableRow i := by
  obtain ⟨hmask, hrfe⟩ := h
  cases i <;> dsimp only [tableRow] at hmask
  case bltz | bgez | bltzal | bgezal =>
    obtain ⟨hop, hlink, hsense⟩ := fields_of_bcondMask hmask
    rw [decode_of_bcond hop, decodeBcond, hlink, hsense]
    exact ⟨_, rfl, rfl⟩
  case mfc0 | mtc0 =>
    obtain ⟨hop, hrs⟩ := fields_of_rsMask hmask
    rw [decode_of_cop0 hop, decodeCop0, hrs]
    exact ⟨_, rfl, rfl⟩
  case rfe =>
    obtain ⟨hop, hfunct⟩ := fields_of_functMask hmask
    obtain ⟨h0, h4⟩ := hrfe rfl
    rw [decode_of_cop0 hop, decodeCop0, if_neg h0, if_neg h4]
    exact ⟨_, if_pos hfunct, rfl⟩
  case sll | srl | sra | sllv | srlv | srav | jr | jalr | syscall | brk | mfhi | mthi | mflo | mtlo | mult | multu | div | divu
      | add | addu | sub | subu | and | or | xor | nor | slt | sltu =>
    obtain ⟨hop, hfunct⟩ := fields_of_functMask hmask
    rw [decode_of_special hop, decodeSpecial, hfunct]
    exact ⟨_, rfl, rfl⟩
  all_goals
    rw [decode, opOf_of_opMask hmask]
    exact ⟨_, rfl, rfl⟩

/-! ### What the decoder answers -/

/-- What the table and the lists of R108 say of an answer to the word `w`: an instruction is well formed, `w` matches its row and
is not illegal; only an illegal word is rejected. -/
def FollowsTable (w : Word) : Except Illegal Instr → Prop
  | .ok i => matchesRow w i ∧ i.wf = true ∧ ¬ illegalWord w
  | .error _ => illegalWord w

theorem shamtFits_shamtOf (w : Word) : shamtFits (shamtOf w) = true := decide_eq_true (shamtBits w).isLt

/-- The opcodes of the table's rows (R104, D15). -/
def opcodes : List (BitVec 6) :=
  [0x00#6, 0x01#6, 0x02#6, 0x03#6, 0x04#6, 0x05#6, 0x06#6, 0x07#6, 0x08#6, 0x09#6, 0x0A#6, 0x0B#6, 0x0C#6, 0x0D#6, 0x0E#6, 0x0F#6,
    0x10#6, 0x20#6, 0x21#6, 0x22#6, 0x23#6, 0x24#6, 0x25#6, 0x26#6, 0x28#6, 0x29#6, 0x2A#6, 0x2B#6, 0x2E#6]

/-- The functs of SPECIAL's rows (R105). -/
def specialFuncts : List (BitVec 6) :=
  [0x00#6, 0x02#6, 0x03#6, 0x04#6, 0x06#6, 0x07#6, 0x08#6, 0x09#6, 0x0C#6, 0x0D#6, 0x10#6, 0x11#6, 0x12#6, 0x13#6, 0x18#6, 0x19#6,
    0x1A#6, 0x1B#6, 0x20#6, 0x21#6, 0x22#6, 0x23#6, 0x24#6, 0x25#6, 0x26#6, 0x27#6, 0x2A#6, 0x2B#6]

/-- An opcode of no row is in the list of R108. -/
theorem illegalWord_of_op {w : Word} (h : opOf w ∉ opcodes) : illegalWord w := by
  have hlist : ∀ o ∉ opcodes, (0x11 ≤ o.toNat ∧ o.toNat ≤ 0x1F) ∨ o.toNat = 0x27 ∨ o.toNat = 0x2C ∨ o.toNat = 0x2D ∨
      o.toNat = 0x2F ∨ 0x30 ≤ o.toNat := by decide
  exact (hlist _ h).imp_right <| Or.imp_right <| Or.imp_right <| Or.imp_right <| Or.imp_right Or.inl

/-- A SPECIAL funct of no row is in the list of R108. -/
theorem illegalWord_of_funct {w : Word} (hop : opOf w = 0x00#6) (h : functOf w ∉ specialFuncts) : illegalWord w := by
  have hlist : ∀ f ∉ specialFuncts, illegalWord (rWord 0x00#6 0#5 0#5 0#5 0#5 f) := by
    unfold illegalWord
    decide
  simpa [illegalWord, hop] using hlist _ h

/-- Arm by arm; the first three hold a shift amount, the last rejects. -/
theorem decodeSpecial_followsTable {w : Word} (hop : opOf w = 0x00#6) : FollowsTable w (decodeSpecial w) := by
  have hmask := and_functMask w
  rw [hop] at hmask
  unfold decodeSpecial
  split
  case h_1 hf | h_2 hf | h_3 hf =>
    exact ⟨⟨hmask.trans (by rw [hf]; rfl), nofun⟩, shamtFits_shamtOf w, by simp [illegalWord, hop, hf]⟩
  case h_29 =>
    simp only [imp_false] at *
    exact illegalWord_of_funct hop (by simp [specialFuncts, *])
  all_goals
    next hf => exact ⟨⟨hmask.trans (by rw [hf]; rfl), nofun⟩, rfl, by simp [illegalWord, hop, hf]⟩

/-- The bits of `rt` that decode, link and sense, in their places (R106). -/
theorem and_linkSense : ∀ rt : BitVec 5,
    rt &&& 0x11#5 = (if rt.getLsbD 4 then 0x10#5 else 0#5) ||| (if rt.getLsbD 0 then 0x01#5 else 0#5) := by decide

theorem decodeBcond_followsTable {w : Word} (hop : opOf w = 0x01#6) : FollowsTable w (.ok (decodeBcond w)) := by
  have hmask := and_bcondMask w
  have hlegal : ¬ illegalWord w := by simp [illegalWord, hop]
  rw [hop, and_linkSense] at hmask
  unfold decodeBcond
  split
  all_goals
    next hlink hsense => exact ⟨⟨hmask.trans (by rw [hlink, hsense]; rfl), nofun⟩, rfl, hlegal⟩

theorem decodeCop0_followsTable {w : Word} (hop : opOf w = 0x10#6) : FollowsTable w (decodeCop0 w) := by
  have hillegal : illegalWord w ↔ rsBits w ≠ 0x00#5 ∧ rsBits w ≠ 0x04#5 ∧ functOf w ≠ 0x10#6 := by
    simp [illegalWord, hop, BitVec.toNat_eq]
  unfold decodeCop0
  split_ifs with h0 h4 hf
  · exact ⟨⟨(and_rsMask w).trans (by rw [hop, h0]; rfl), nofun⟩, rfl, by simp [hillegal, h0]⟩
  · exact ⟨⟨(and_rsMask w).trans (by rw [hop, h4]; rfl), nofun⟩, rfl, by simp [hillegal, h4]⟩
  · exact ⟨⟨(and_functMask w).trans (by rw [hop, hf]; rfl), fun _ => ⟨h0, h4⟩⟩, rfl, by simp [hillegal, hf]⟩
  · exact hillegal.mpr ⟨h0, h4, hf⟩

/-- Arm by arm; three of them go on to another map, the last rejects. -/
theorem decode_followsTable (w : Word) : FollowsTable w (decode w) := by
  unfold decode
  split
  case h_1 hop => exact decodeSpecial_followsTable hop
  case h_2 hop => exact decodeBcond_followsTable hop
  case h_17 hop => exact decodeCop0_followsTable hop
  case h_30 =>
    simp only [imp_false] at *
    exact illegalWord_of_op (by simp [opcodes, *])
  all_goals
    next hop => exact ⟨⟨(and_opMask w).trans (by rw [hop]; rfl), nofun⟩, rfl, by simp [illegalWord, hop]⟩

/-! ### The statements -/

/-- A word is rejected exactly when it is illegal. -/
theorem decode_error_iff (w : Word) : (∃ e, decode w = .error e) ↔ illegalWord w := by
  have h := decode_followsTable w
  cases hdec : decode w with
  | ok i =>
    rw [hdec] at h
    obtain ⟨-, -, hlegal⟩ := h
    exact ⟨nofun, fun hillegal => absurd hillegal hlegal⟩
  | error e =>
    rw [hdec] at h
    exact ⟨fun _ => h, fun _ => ⟨e, rfl⟩⟩

theorem matchesRow_of_decode {w : Word} {i : Instr} (h : decode w = .ok i) : matchesRow w i ∧ i.wf = true := by
  obtain ⟨hmatch, hwf, -⟩ : FollowsTable w (.ok i) := h ▸ decode_followsTable w
  exact ⟨hmatch, hwf⟩

/-- Settles O4: the third clause is the first two together. -/
theorem decoderFollowsOpcodeTable : Obligations.DecoderFollowsOpcodeTable := by
  intro w
  refine ⟨fun _ => matchesRow_of_decode, fun _ => decode_of_matchesRow, fun ⟨e, he⟩ i hi => ?_, fun hnone => ?_⟩
  · obtain ⟨j, hj, -⟩ := decode_of_matchesRow hi
    rw [he] at hj
    cases hj
  · cases hdec : decode w with
    | ok i => exact absurd (matchesRow_of_decode hdec).1 (hnone i)
    | error e => exact ⟨e, rfl⟩

theorem execWord_of_illegal {w : Word} (h : illegalWord w) (s : State) : execWord w s = .next s := by
  obtain ⟨e, he⟩ := (decode_error_iff w).mpr h
  rw [execWord, he]
  rfl

/-- The word 0 is SLL of register 0, which writes nothing (R31). -/
theorem execWord_zero (s : State) : execWord 0#32 s = .next s := rfl

/-- Settles O5: an illegal word decodes to nothing, and the other phases do not look at it. -/
theorem illegalWordsAreNops : Obligations.IllegalWordsAreNops := by
  intro w
  refine ⟨decode_error_iff w, fun h s => ⟨execWord_of_illegal h s, ?_⟩, fun h s hs => ?_⟩
  · rw [execWord_of_illegal h, execWord_zero]
  · rw [step_eq hs, execWord_of_illegal h]
    rfl

end Sys2Proof.Claims
end

section
/-! The fields of a word as numbers (R101). -/

namespace Sys2Proof.Claims

/-- A slice is a quotient by a power of two, modulo another. -/
theorem slice_toNat (w : Word) (start len : Nat) : (w.extractLsb' start len).toNat = w.toNat / 2 ^ start % 2 ^ len := by
  rw [BitVec.extractLsb'_toNat, Nat.shiftRight_eq_div_pow]

/-- Settles O1: field by field; `op` reaches the top of the word, so its quotient is below 64. -/
theorem fieldsAreFixedSlices : Obligations.FieldsAreFixedSlices := by
  intro w
  have hop : w.toNat / 2 ^ 26 < 2 ^ 6 := by omega
  exact ⟨(slice_toNat w 26 6).trans (Nat.mod_eq_of_lt hop), slice_toNat w 21 5, slice_toNat w 16 5, slice_toNat w 11 5,
    slice_toNat w 6 5, BitVec.extractLsb'_toNat 0 6 w, BitVec.extractLsb'_toNat 0 26 w, BitVec.extractLsb'_toNat 0 16 w⟩

end Sys2Proof.Claims
end

section
/-! Branches and the return from an exception: BEQ, BNE, BLEZ, BGTZ, the BCOND group and RFE (R211-R225, R244). -/

namespace Sys2Proof.Claims

open Sys2Proof.Machine

/-! ### Branches -/

/-- The branch offset is four times the signed immediate (R103, D13). -/
theorem boff_eq (off : Half) : boff off = BitVec.ofInt 32 (4 * off.toInt) := by
  rw [boff, BitVec.shiftLeft_eq_mul_twoPow, BitVec.ofInt_mul, BitVec.mul_comm]
  rfl

theorem jumpsTo_jumpTo (s : State) (target : Word) : JumpsTo s target (s.jumpTo target) :=
  ⟨rfl, fun _ => rfl, rfl, ⟨rfl, rfl, rfl, rfl⟩, .of_fields rfl rfl rfl rfl⟩

/-- A branch that is not taken leaves `next_pc` as it is, which is to jump there (R210, R211). -/
theorem branchIf_jumpsTo (s : State) (off : Half) {taken : Bool} {P : Prop} [Decidable P] (h : taken = true ↔ P) :
    JumpsTo s (if P then s.pc + BitVec.ofInt 32 (4 * off.toInt) else s.nextPc) (branchIf taken off s) := by
  rw [← boff_eq]
  by_cases hP : P
  · rw [if_pos hP, h.mpr hP]
    exact jumpsTo_jumpTo s _
  · rw [if_neg hP, Bool.eq_false_of_not_eq_true (mt h.mp hP)]
    exact jumpsTo_jumpTo s s.nextPc

/-- A link after a jump writes the link register and nothing else. -/
theorem jumpsAndLinks_linkTo {s t : State} {target : Word} (h : JumpsTo s target t) (r : Reg) :
    JumpsAndLinks s target r (t.linkTo r s.nextPc) := by
  obtain ⟨hnext, hregs, hpc, ⟨hhi, hlo, hld, hcop0⟩, ⟨hbytes, hgpu, hinstr, hdraws⟩⟩ := h
  obtain ⟨hvalue, hothers⟩ := regBecomes_setX t r s.nextPc
  exact ⟨(setX_nextPc ..).trans hnext, ⟨hvalue, fun q hq => (hothers q hq).trans (hregs q)⟩, (setX_pc ..).trans hpc,
    ⟨(setX_hi ..).trans hhi, (setX_lo ..).trans hlo, (setX_ld ..).trans hld, (setX_cop0 ..).trans hcop0⟩,
    ⟨fun p => (byteAt_of_mem_eq (setX_mem ..) p).trans (hbytes p), (setX_gpu ..).trans hgpu,
      (setX_instruction ..).trans hinstr, (setX_draws ..).trans hdraws⟩⟩

/-- `v <s 1` is `v ≤s 0` (R217, D14). -/
theorem ltSigned_one_iff (v : Word) : ltSigned v 1#32 = true ↔ v.toInt ≤ 0 := by
  rw [ltSigned, decide_eq_true_iff, show (1#32 : Word).toInt = 1 from rfl]
  omega

theorem zero_ltSigned_iff (v : Word) : ltSigned 0#32 v = true ↔ 0 < v.toInt := decide_eq_true_iff

/-- Settles O26: the four are one branch, on four conditions. -/
theorem conditionalBranches : Obligations.ConditionalBranches := by
  refine ⟨fun w => ?_, fun s rs rt off => ?_⟩
  · refine ⟨fun h => ?_, fun h => ?_, fun h => ?_, fun h => ?_⟩
    all_goals
      rw [decode, h]
      rfl
  · exact ⟨⟨_, rfl, branchIf_jumpsTo s off beq_iff_eq⟩, ⟨_, rfl, branchIf_jumpsTo s off bne_iff_ne⟩,
      ⟨_, rfl, branchIf_jumpsTo s off (ltSigned_one_iff _)⟩, ⟨_, rfl, branchIf_jumpsTo s off (zero_ltSigned_iff _)⟩⟩

/-- The BCOND condition is the sign, turned over by the sense bit (R221). -/
theorem bcondTaken_eq (v : Word) (sense : Bool) : bcondTaken v sense = (v.msb ^^ sense) := by
  have hsense : (boolWord sense <<< 31).msb = sense := by cases sense <;> rfl
  rw [bcondTaken, ltSigned, BitVec.toInt_zero, ← BitVec.msb_eq_toInt, BitVec.msb_xor, hsense]

theorem bcondTaken_false_iff (v : Word) : bcondTaken v false = true ↔ v.toInt < 0 := by
  rw [bcondTaken_eq, Bool.xor_false, BitVec.msb_eq_toInt, decide_eq_true_iff]

theorem bcondTaken_true_iff (v : Word) : bcondTaken v true = true ↔ 0 ≤ v.toInt := by
  rw [bcondTaken_eq, Bool.xor_true, BitVec.msb_eq_toInt, Bool.not_eq_true', decide_eq_false_iff_not, not_lt]

theorem rtBits_getLsbD_link (w : Word) : (rtBits w).getLsbD 4 = w.getLsbD 20 := by
  simp [rtBits]

theorem rtBits_getLsbD_sense (w : Word) : (rtBits w).getLsbD 0 = w.getLsbD 16 := by
  simp [rtBits]

/-- Settles O27: bits 20 and 16 are bits 4 and 0 of `rt`; the link is a register write after the branch. -/
theorem bcondBranchesAndLinks : Obligations.BcondBranchesAndLinks := by
  refine ⟨fun w hop => ?_, fun s rs off => ?_⟩
  · rw [decode_of_bcond hop, decodeBcond, rtBits_getLsbD_link, rtBits_getLsbD_sense]
    refine ⟨fun hlink hsense => ?_, fun hlink hsense => ?_, fun hlink hsense => ?_, fun hlink hsense => ?_⟩
    all_goals rw [hlink, hsense]
  · have hltz := branchIf_jumpsTo s off (bcondTaken_false_iff (s.x rs))
    have hgez := branchIf_jumpsTo s off (bcondTaken_true_iff (s.x rs))
    exact ⟨⟨_, rfl, hltz⟩, ⟨_, rfl, hgez⟩, ⟨_, rfl, jumpsAndLinks_linkTo hltz linkReg⟩,
      ⟨_, rfl, jumpsAndLinks_linkTo hgez linkReg⟩⟩

/-! ### RFE -/

/-- A pop moves bits 5:2 to 3:0 and keeps bits 31:4 (R244). -/
theorem getLsbD_popStatus (sr : Word) {i : Nat} (hi : i < 32) :
    (popStatus sr).getLsbD i = if i < 4 then sr.getLsbD (2 + i) else sr.getLsbD i := by
  have hkept : ∀ i < 32, (0xFFFFFFF0#32).getLsbD i = decide (4 ≤ i) := by decide
  have hmoved : ∀ i < 32, (0x3C#32).getLsbD (2 + i) = decide (i < 4) := by decide
  rw [popStatus, BitVec.getLsbD_or, BitVec.getLsbD_and, BitVec.getLsbD_ushiftRight, BitVec.getLsbD_and, hkept i hi,
    hmoved i hi]
  by_cases h : i < 4
  · simp [h]
  · simp [h, Nat.not_lt.mp h]

theorem extractLsb'_popStatus_low (sr : Word) {start : Nat} (h : start + 2 ≤ 4) :
    (popStatus sr).extractLsb' start 2 = sr.extractLsb' (2 + start) 2 := by
  ext i hi
  simp only [BitVec.getElem_extractLsb']
  rw [getLsbD_popStatus sr (by omega), if_pos (by omega), Nat.add_assoc]

theorem extractLsb'_popStatus_high (sr : Word) : (popStatus sr).extractLsb' 4 28 = sr.extractLsb' 4 28 := by
  ext i hi
  simp only [BitVec.getElem_extractLsb']
  rw [getLsbD_popStatus sr (by omega), if_neg (by omega)]

/-- Settles O31: the pop changes SR alone. -/
theorem rfePopsTheStatusStack : Obligations.RfePopsTheStatusStack := by
  refine ⟨fun w hop h0 h4 hfunct => ?_, rfl, fun s => ?_⟩
  · rw [decode_of_cop0 hop, decodeCop0, if_neg h0, if_neg h4, if_pos hfunct]
  · have hlow (start : Nat) (h : start + 2 ≤ 4) := extractLsb'_popStatus_low s.cop0.sr h
    exact ⟨_, rfl, rfl, hlow 0 (by decide), hlow 2 (by decide), extractLsb'_popStatus_high s.cop0.sr, rfl, rfl, rfl,
      fun _ => rfl, rfl, rfl, rfl, rfl, rfl, .of_fields rfl rfl rfl rfl⟩

end Sys2Proof.Claims
end

section
/-! Signed overflow (R150-R152): the model's sign-bit formulas are the overflow of the bit-vector library, so they say when an
exact result does not fit. -/

namespace Sys2Proof.Claims

open Sys2Proof.Machine

theorem signBit_test (v : Word) : (v &&& 0x80000000#32 != 0#32) = v.msb := by
  rw [show (0x80000000#32 : Word) = BitVec.twoPow 32 31 from rfl, BitVec.and_twoPow, BitVec.msb_eq_getLsbD_last]
  cases v.getLsbD (32 - 1) <;> rfl

theorem ovfAdd_eq (a b : Word) : ovfAdd a b = a.saddOverflow b := by
  rw [ovfAdd, signBit_test, BitVec.saddOverflow_eq, BitVec.msb_and, BitVec.msb_not, BitVec.msb_xor, BitVec.msb_xor]
  cases a.msb <;> cases b.msb <;> cases (a + b).msb <;> rfl

theorem ovfSub_eq (a b : Word) : ovfSub a b = a.ssubOverflow b := by
  rw [ovfSub, signBit_test, BitVec.ssubOverflow_eq, BitVec.msb_and, BitVec.msb_xor, BitVec.msb_xor]
  cases a.msb <;> cases b.msb <;> cases (a - b).msb <;> rfl

theorem ovfAdd_eq_false_iff (a b : Word) : ovfAdd a b = false ↔ fits (a.toInt + b.toInt) := by
  simp only [ovfAdd_eq, BitVec.saddOverflow, fits, Bool.or_eq_false_iff, decide_eq_false_iff_not]
  omega

theorem ovfSub_eq_false_iff (a b : Word) : ovfSub a b = false ↔ fits (a.toInt - b.toInt) := by
  simp only [ovfSub_eq, BitVec.ssubOverflow, fits, Bool.or_eq_false_iff, decide_eq_false_iff_not]
  omega

end Sys2Proof.Claims
end

section
/-! The counters through a step (R134, R141): phase 4 advances them, and an instruction that raises nothing keeps `pc`, and
`next_pc` too unless it is a jump or branch. -/

namespace Sys2Proof.Claims

open Sys2Proof.Machine

/-! ### The shared operations -/

/-- `pc` and `next_pc` are the same. -/
def SameCounters (s t : State) : Prop := t.pc = s.pc ∧ t.nextPc = s.nextPc

theorem sameCounters_setX (s : State) (r : Reg) (v : Word) : SameCounters s (s.setX r v) := ⟨setX_pc .., setX_nextPc ..⟩

theorem sameCounters_installLoad (s : State) (r : Reg) (v : Word) : SameCounters s (installLoad r v s) :=
  ⟨installLoad_pc .., installLoad_nextPc ..⟩

section
variable {s t : State} {n : Width} {a v : Word} {r : Reg}

theorem sameCounters_of_writeOrOverflow {b : Bool} (hb : b = false) (h : writeOrOverflow b r v s = .next t) :
    SameCounters s t := by
  subst hb
  cases h
  exact sameCounters_setX ..

theorem sameCounters_of_load {f : Word → Word} (ha : misaligned n a = false) (h : load n f r a s = .next t) :
    SameCounters s t := by
  obtain ⟨hmis, -⟩ | ⟨-, w, -, rfl⟩ := load_next h
  · exact absurd hmis (ne_true_of_eq_false ha)
  · exact sameCounters_installLoad ..

theorem sameCounters_of_loadMerged {f : Nat → Word → Word → Word} (h : loadMerged f r a s = .next t) :
    SameCounters s t := by
  obtain ⟨w, -, rfl⟩ := loadMerged_next h
  exact sameCounters_installLoad ..

theorem sameCounters_of_busWrite (h : busWrite s n a v = .ok t) : SameCounters s t := by
  rw [busWrite_ok h]
  exact ⟨rfl, rfl⟩

theorem sameCounters_of_store (ha : misaligned n a = false) (h : store n v a s = .next t) : SameCounters s t := by
  obtain ⟨hmis, -⟩ | ⟨-, hw⟩ := store_next h
  · exact absurd hmis (ne_true_of_eq_false ha)
  · exact sameCounters_of_busWrite hw

theorem sameCounters_of_storeMerged {f : Nat → Word → Word → Word} (h : storeMerged f v a s = .next t) :
    SameCounters s t := by
  obtain ⟨m, -, hw⟩ := storeMerged_next h
  exact sameCounters_of_busWrite hw

theorem sameCounters_of_sw {rt base : Reg} {off : Half} (ha : misaligned .word (ea s base off) = false)
    (h : execSw rt off base s = .next t) : SameCounters s t := by
  unfold execSw at h
  split at h
  · cases h
    exact ⟨rfl, rfl⟩
  · exact sameCounters_of_store ha h

theorem sameCounters_of_mfc0 {rt rd : Reg} (h : execMfc0 rt rd s = .next t) : SameCounters s t := by
  cases h
  unfold readCop0
  split <;> exact sameCounters_setX ..

end

theorem branchIf_pc (taken : Bool) (off : Half) (s : State) : (branchIf taken off s).pc = s.pc := by
  cases taken <;> rfl

/-! ### An instruction that raises nothing -/

/-- An entry of the table of R320 that raises nothing meets its condition. -/
theorem of_ite_eq_none {p : Prop} [Decidable p] {e : ExcCode} (h : (if p then none else some e) = none) : p :=
  of_not_not fun hp => nomatch (if_neg hp).symm.trans h

theorem pc_of_isControl {i : Instr} {s t : State} (hi : isControl i = true) (h : exec i s = .next t) : t.pc = s.pc := by
  cases i with
  | j | jr => cases h; rfl
  | jal | jalr => cases h; exact setX_pc ..
  | beq | bne | blez | bgtz | bltz | bgez => cases h; exact branchIf_pc ..
  | bltzal | bgezal => cases h; exact (setX_pc ..).trans (branchIf_pc ..)
  | _ => cases hi

theorem sameCounters_of_not_isControl {i : Instr} {s t : State} (hi : isControl i = false) (hr : raises i s = none)
    (h : exec i s = .next t) : SameCounters s t := by
  cases i with
  | j | jal | jr | jalr | beq | bne | blez | bgtz | bltz | bgez | bltzal | bgezal => cases hi
  | syscall | brk => cases hr
  | addi | add => exact sameCounters_of_writeOrOverflow ((ovfAdd_eq_false_iff ..).mpr (of_ite_eq_none hr)) h
  | sub => exact sameCounters_of_writeOrOverflow ((ovfSub_eq_false_iff ..).mpr (of_ite_eq_none hr)) h
  | lb | lbu => exact sameCounters_of_load (n := .byte) rfl h
  | lh | lhu => exact sameCounters_of_load ((misaligned_eq_false_iff .half _).mpr (of_ite_eq_none hr)) h
  | lw => exact sameCounters_of_load ((misaligned_eq_false_iff .word _).mpr (of_ite_eq_none hr)) h
  | lwl | lwr => exact sameCounters_of_loadMerged h
  | sb => exact sameCounters_of_store (n := .byte) rfl h
  | sh => exact sameCounters_of_store ((misaligned_eq_false_iff .half _).mpr (of_ite_eq_none hr)) h
  | sw => exact sameCounters_of_sw ((misaligned_eq_false_iff .word _).mpr (of_ite_eq_none hr)) h
  | swl | swr => exact sameCounters_of_storeMerged h
  | mfc0 => exact sameCounters_of_mfc0 h
  | mthi | mtlo | mult | multu | div | divu | mtc0 | rfe => cases h; exact ⟨rfl, rfl⟩
  | _ => cases h; exact sameCounters_setX ..

/-- The table's other half (R320, R210): without an exception `pc` stays, and only a jump or branch moves `next_pc`. -/
theorem counters_of_raises_none {i : Instr} {s t : State} (hr : raises i s = none) (h : exec i s = .next t) :
    t.pc = s.pc ∧ (isControl i = false → t.nextPc = s.nextPc) := by
  cases hi : isControl i with
  | true => exact ⟨pc_of_isControl hi h, nofun⟩
  | false =>
    obtain ⟨hpc, hnext⟩ := sameCounters_of_not_isControl hi hr h
    exact ⟨hpc, fun _ => hnext⟩

/-! ### The step as phase 5 of its fetched word -/

/-- A step that answers ran the word it fetched, then refetched and cleared x[0]. -/
theorem step_next_of_fetches {s t : State} {w : Word} (hw : Fetches s w) (h : step s = .next t) :
    ∃ u, execWord w (atPhase5 s w) = .next u ∧ t = clearX0 (refetch u) := by
  rw [step_eq hw] at h
  exact finishStep_next h

/-- From an aligned `pc` the check does nothing (R132). -/
theorem checkFetch_retireLoad_of_aligned {s : State} (h : s.pc.toNat % 4 = 0) :
    checkFetch (retireLoad s) = retireLoad s := by
  refine checkFetch_of_aligned ?_
  rw [pcMisaligned_eq, retireLoad_pc]
  exact (misaligned_eq_false_iff .word s.pc).mpr h

/-- From an aligned `pc` phase 5 starts with both counters advanced (R134). -/
theorem atPhase5_counters {s : State} (h : s.pc.toNat % 4 = 0) (w : Word) :
    (atPhase5 s w).pc = s.nextPc ∧ (atPhase5 s w).nextPc = s.nextPc + 4#32 := by
  simp [atPhase5, checkFetch_retireLoad_of_aligned h]

theorem execWord_of_decode {w : Word} {i : Instr} (h : decode w = .ok i) (s : State) : execWord w s = exec i s := by
  rw [execWord, h]

/-- Phase 5 on a word that raises nothing, legal or not (R136). -/
theorem counters_of_execWord {w : Word} {s t : State} (hr : ∀ i, decode w = .ok i → raises i s = none)
    (h : execWord w s = .next t) :
    t.pc = s.pc ∧ ((∀ i, decode w = .ok i → isControl i = false) → t.nextPc = s.nextPc) := by
  cases hdec : decode w with
  | ok i =>
    rw [execWord_of_decode hdec] at h
    obtain ⟨hpc, hnext⟩ := counters_of_raises_none (hr i hdec) h
    exact ⟨hpc, fun hctl => hnext (hctl i rfl)⟩
  | error e =>
    rw [execWord, hdec] at h
    cases h
    exact ⟨rfl, fun _ => rfl⟩

/-- Settles O12: phase 4 advances both counters, phase 5 keeps them, and the phases after it touch neither. -/
theorem programCounterLaw : Obligations.ProgramCounterLaw := by
  intro s t w halign hw hraise h
  obtain ⟨u, hu, rfl⟩ := step_next_of_fetches hw h
  obtain ⟨hpc, hnext⟩ := counters_of_execWord hraise hu
  obtain ⟨hpc5, hnext5⟩ := atPhase5_counters halign w
  simp only [clearX0_pc, clearX0_nextPc, refetch_pc, refetch_nextPc]
  exact ⟨hpc.trans hpc5, fun hctl => (hnext hctl).trans hnext5⟩

end Sys2Proof.Claims
end

section
/-! The load-delay slot through a step (R131, R256, R257). -/

namespace Sys2Proof.Machine

/-! ### The retire -/

section
variable {s : State} {slot : LoadSlot}

theorem retireLoad_of_none (h : s.ld = none) : retireLoad s = s := by
  simp only [retireLoad, h]

theorem retireLoad_of_due (h : s.ld = some slot) (h0 : slot.remaining = 0) :
    retireLoad s = { s.setX slot.reg slot.value with ld := none } := by
  simp only [retireLoad, h, if_pos h0]

theorem retireLoad_of_waiting (h : s.ld = some slot) (h0 : slot.remaining ≠ 0) :
    retireLoad s = { s with ld := some { slot with remaining := slot.remaining - 1 } } := by
  simp only [retireLoad, h, if_neg h0]

end

/-- With the slot empty after the retire, to retire first changes nothing. -/
theorem step_retireLoad {s : State} (h : (retireLoad s).ld = none) : step (retireLoad s) = step s := by
  unfold step
  rw [retireLoad_of_none h]

/-! ### A load on its way -/

/-- An effect installs a load, flushing the older one, or leaves the slot alone (R257). -/
theorem Effect.ld_or_installs {s t : State} (h : Effect s t) : t.ld = s.ld ∨ ∃ r v, t = installLoad r v s := by
  cases h with
  | loadSlot r v => exact .inr ⟨r, v, rfl⟩
  | writeReg | drawReg | jumpLink => exact .inl (setX_ld ..)
  | nothing | writeHiLo | jump | trap | writeCop0 | writeMem | packet => exact .inl rfl

/-- A load that is due reaches its register by the next retire, whatever runs before: it is still in the slot, or a newer load
has flushed it (R131, R257). -/
theorem Effect.due_load_arrives {s t : State} (h : Effect s t) {r : Reg} {v : Word} (hr : r ≠ 0)
    (hld : s.ld = some { reg := r, value := v, remaining := 0 }) : (retireLoad t).x r = v := by
  obtain hsame | ⟨q, u, rfl⟩ := h.ld_or_installs
  · simp [x_retireLoad, hsame, hld, hr]
  · simp [x_retireLoad, x_flushLoad, hld, hr]

/-- Phases 6 and 7 change nothing a retire looks at. -/
theorem retireLoad_clearX0_refetch_x (s : State) (q : Reg) : (retireLoad (clearX0 (refetch s))).x q = (retireLoad s).x q := by
  simp only [x_retireLoad, clearX0_ld, refetch_ld, clearX0_x, refetch_x]

end Sys2Proof.Machine

namespace Sys2Proof.Claims

open Sys2Proof.Machine

/-- Settles O9: a due slot is a register write, and it is empty after. -/
theorem loadDelayRetire : Obligations.LoadDelayRetire := by
  intro s
  refine ⟨retireLoad_of_none, fun slot hld h0 => ?_, fun slot => retireLoad_of_waiting⟩
  have hempty : (retireLoad s).ld = none := by rw [retireLoad_of_due hld h0]
  have hreg : RegBecomes s slot.reg slot.value (retireLoad s) := by
    rw [retireLoad_of_due hld h0]
    obtain ⟨hvalue, hothers⟩ := regBecomes_setX s slot.reg slot.value
    exact ⟨hvalue, hothers⟩
  exact ⟨hreg, hempty, retireLoad_pc s, retireLoad_nextPc s, retireLoad_hi s, retireLoad_lo s, retireLoad_cop0 s,
    .of_fields (retireLoad_mem s) (retireLoad_gpu s) (retireLoad_instruction s) (retireLoad_draws s),
    (step_retireLoad hempty).symm⟩

/-- What phase 5 reads is what the retire left (R131). -/
theorem atPhase5_x (s : State) (w : Word) (q : Reg) : (atPhase5 s w).x q = (retireLoad s).x q := by
  simp only [atPhase5, advance_x, checkFetch_x]

theorem atPhase5_ld (s : State) (w : Word) : (atPhase5 s w).ld = (retireLoad s).ld := by
  simp only [atPhase5, advance_ld, checkFetch_ld]

/-- Settles O41: the first retire counts the load down, so in phase 5 it is due and its register still old. -/
theorem loadedValueArrivesAfterOneInstruction : Obligations.LoadedValueArrivesAfterOneInstruction := by
  intro s t w w' r v hr hld hw
  have hretire := retireLoad_of_waiting hld one_ne_zero
  refine ⟨by rw [atPhase5_x, hretire]; rfl, fun h _ => ?_⟩
  obtain ⟨u, hu, rfl⟩ := step_next_of_fetches hw h
  have hdue : (atPhase5 s w).ld = some { reg := r, value := v, remaining := 0 } :=
    (atPhase5_ld s w).trans (congrArg State.ld hretire)
  rw [atPhase5_x, retireLoad_clearX0_refetch_x]
  exact (execWord_effect hu).due_load_arrives hr hdue

end Sys2Proof.Claims
end

section
/-! Which word a step runs, and register 0 after it (R130-R138). -/

namespace Sys2Proof.Claims

open Sys2Proof.Machine

theorem decode_of_decodeBytes {b0 b1 b2 b3 : Byte} {i : Instr} (h : decodeBytes [b0, b1, b2, b3] = .ok (i, [])) :
    decode (wordOfBytes b0 b1 b2 b3) = .ok i := by
  unfold decodeBytes at h
  dsimp only at h
  split at h
  · cases h
    assumption
  · cases h

/-- In the byte arrays an aligned `pc` fetches the little-endian word of its four bytes (R74, R133). -/
theorem fetches_of_isArray {s : State} (halign : s.pc.toNat % 4 = 0) (harr : (regionOf (phys s.pc)).isArray) :
    Fetches s (wordOfBytes (s.byteAt (phys s.pc)) (s.byteAt (phys s.pc + 1)) (s.byteAt (phys s.pc + 2))
      (s.byteAt (phys s.pc + 3))) := by
  have hspan := spansRegions_of_aligned ((misaligned_eq_false_iff .word s.pc).mpr halign)
  unfold Fetches fetch
  rw [checkFetch_retireLoad_of_aligned halign, retireLoad_pc, busRead_of_isArray _ hspan harr, retireLoad_mem]
  rfl

theorem step_of_decode {s : State} {w : Word} {i : Instr} (hw : Fetches s w) (hi : decode w = .ok i) :
    step s = finishStep (exec i (atPhase5 s w)) := by
  rw [step_eq hw, execWord_of_decode hi]
  rfl

/-- Settles O6: the bytes are the word the step fetches; the retire leaves `next_pc`. -/
theorem stepRunsTheDecodedInstruction : Obligations.StepRunsTheDecodedInstruction := by
  refine ⟨?_, fun s i w => step_of_decode⟩
  rintro s i _ _ _ _ halign harr rfl rfl rfl rfl hdec
  rw [step_of_decode (fetches_of_isArray halign harr) (decode_of_decodeBytes hdec), atPhase5,
    checkFetch_retireLoad_of_aligned halign, advance, retireLoad_nextPc]

/-- Settles O7: phase 7 is the last. -/
theorem registerZeroIsZeroAfterEveryStep : Obligations.RegisterZeroIsZeroAfterEveryStep := by
  intro s t h
  obtain ⟨w, u, -, -, rfl⟩ := step_next h
  exact clearX0_regs_zero _

end Sys2Proof.Claims
end

section
/-! The jumps J, JAL, JR, JALR (R213, R214, R219, R220). -/

namespace Sys2Proof.Claims

open Sys2Proof.Machine

/-- The jump target is the region of `pc`, the 26-bit field and two zero bits (R103). -/
theorem jtarget_eq (pc : Word) (target : BitVec 26) : jtarget pc target = pc.extractLsb' 28 4 ++ target ++ 0#2 := by
  have hregion : ∀ i < 32, (0xF0000000#32).getLsbD i = decide (28 ≤ i) := by decide
  apply BitVec.eq_of_getLsbD_eq
  intro i hi
  rw [jtarget, BitVec.getLsbD_or, BitVec.getLsbD_and, hregion i hi]
  simp only [BitVec.getLsbD_append, BitVec.getLsbD_shiftLeft, BitVec.getLsbD_setWidth, BitVec.getLsbD_extractLsb']
  obtain h2 | ⟨h2, h28⟩ | h28 : i < 2 ∨ (2 ≤ i ∧ i < 28) ∨ 28 ≤ i := by omega
  · simp [h2, show ¬ 28 ≤ i by omega]
  · simp [hi, show ¬ i < 2 by omega, show ¬ 28 ≤ i by omega, show i - 2 < 26 by omega, show i - 2 < 32 by omega]
  · have htop : 28 + (i - 2 - 26) = i := by omega
    simp [hi, h28, htop, show ¬ i < 2 by omega, show ¬ i - 2 < 26 by omega, show i - 2 - 26 < 4 by omega,
      BitVec.getLsbD_of_ge target (i - 2) (by omega)]

/-- Settles O25: a jump writes `next_pc`, and a link is a register write after it. -/
theorem jumpsAndLinksWriteNextPc : Obligations.JumpsAndLinksWriteNextPc := by
  refine ⟨fun w => ⟨fun hop => ?_, fun hop => ?_, fun hop hfunct => ?_, fun hop hfunct => ?_⟩, fun s rd rs target => ?_⟩
  iterate 2
    rw [decode, hop]
    rfl
  iterate 2
    rw [decode_of_special hop, decodeSpecial, hfunct]
    rfl
  · rw [← jtarget_eq]
    exact ⟨⟨_, rfl, jumpsTo_jumpTo s _⟩, ⟨_, rfl, jumpsAndLinks_linkTo (jumpsTo_jumpTo s _) linkReg⟩,
      ⟨_, rfl, jumpsTo_jumpTo s _⟩, ⟨_, rfl, jumpsAndLinks_linkTo (jumpsTo_jumpTo s _) rd⟩⟩

end Sys2Proof.Claims
end

section
/-! Immediate and trapping arithmetic: the overflow formulas (R150-R152), ADDI, ADD, SUB (R153, R177, R179) and the immediates
that never trap (R154-R160). -/

namespace Sys2Proof.Claims

open Sys2Proof.Machine

/-! ### Overflow -/

theorem ovfAdd_eq_true_iff (a b : Word) : ovfAdd a b = true ↔ ¬ fits (a.toInt + b.toInt) := by
  rw [← ovfAdd_eq_false_iff, Bool.not_eq_false]

theorem ovfSub_eq_true_iff (a b : Word) : ovfSub a b = true ↔ ¬ fits (a.toInt - b.toInt) := by
  rw [← ovfSub_eq_false_iff, Bool.not_eq_false]

/-- Settles O18: the model tests the two formulas as they stand. -/
theorem overflowFormulasAreTheRange : Obligations.OverflowFormulasAreTheRange := fun a b =>
  ⟨bne_iff_ne.symm.trans (ovfAdd_eq_true_iff a b), bne_iff_ne.symm.trans (ovfSub_eq_true_iff a b), ovfAdd_eq_true_iff a b,
    ovfSub_eq_true_iff a b⟩

/-- The wrapped sum is the exact one when the formula finds no overflow. -/
theorem toInt_add_of_ovfAdd {a b : Word} (h : ovfAdd a b = false) : (a + b).toInt = a.toInt + b.toInt :=
  BitVec.toInt_add_of_not_saddOverflow (Bool.eq_false_iff.mp ((ovfAdd_eq a b).symm.trans h))

/-- The wrapped difference is the exact one when the formula finds no overflow. -/
theorem toInt_sub_of_ovfSub {a b : Word} (h : ovfSub a b = false) : (a - b).toInt = a.toInt - b.toInt :=
  BitVec.toInt_sub_of_not_ssubOverflow (Bool.eq_false_iff.mp ((ovfSub_eq a b).symm.trans h))

/-! ### Register writes and traps -/

theorem answers_setX (s : State) (r : Reg) (v : Word) : Answers (.next (s.setX r v)) (WritesReg s r v) :=
  ⟨_, rfl, writesReg_setX s r v⟩

/-! An overflow test that is right about `z`, the exact result (R150). -/

section
variable {overflow : Bool} {z : Int} (h : overflow = false ↔ fits z)
include h

theorem writeOrOverflow_of_fits {v : Word} (hv : overflow = false → v.toInt = z) (s : State) (r : Reg) (hz : fits z) :
    ∃ v', v'.toInt = z ∧ Answers (writeOrOverflow overflow r v s) (WritesReg s r v') := by
  have hover := h.mpr hz
  refine ⟨v, hv hover, ?_⟩
  rw [hover]
  exact answers_setX s r v

theorem writeOrOverflow_of_not_fits (v : Word) (s : State) (r : Reg) (hz : ¬ fits z) :
    Answers (writeOrOverflow overflow r v s) (Traps s .ovf 0#32) := by
  rw [Bool.eq_true_of_not_eq_false (mt h.mp hz)]
  exact ⟨_, rfl, traps_takeException s .ovf 0#32⟩

end

/-! ### The immediates -/

theorem toInt_simm (imm : Half) : (simm imm).toInt = imm.toInt := BitVec.toInt_signExtend_of_le (by decide)

theorem zimm_eq_append (imm : Half) : zimm imm = 0#16 ++ imm := BitVec.setWidth_eq_append (by decide)

theorem limm_eq_append (imm : Half) : limm imm = imm ++ 0#16 := by
  have hlow : (imm.setWidth 32).extractLsb' 0 16 = imm := by
    rw [BitVec.extractLsb'_setWidth_of_le (by decide), BitVec.extractLsb'_eq_self]
  calc limm imm = (imm.setWidth 32).extractLsb' 0 16 ++ 0#16 := BitVec.shiftLeft_eq_concat_of_lt (by decide)
    _ = imm ++ 0#16 := by rw [hlow]

theorem boolWord_decide (p : Prop) [Decidable p] : boolWord (decide p) = if p then 1#32 else 0#32 := by
  simp only [boolWord, decide_eq_true_iff]

/-! ### The statements -/

/-- Settles O17: ADDI is ADD with the sign-extended immediate, whose value is the immediate's. -/
theorem trappingArithmetic : Obligations.TrappingArithmetic := by
  refine ⟨fun w => ⟨fun hop => ?_, fun hop hfunct => ?_, fun hop hfunct => ?_⟩, fun s rd rs rt imm => ?_⟩
  · rw [decode, hop]
    rfl
  iterate 2
    rw [decode_of_special hop, decodeSpecial, hfunct]
    rfl
  · rw [← toInt_simm]
    have hadd (a b : Word) := ovfAdd_eq_false_iff a b
    have hsub (a b : Word) := ovfSub_eq_false_iff a b
    exact ⟨writeOrOverflow_of_fits (hadd _ _) toInt_add_of_ovfAdd s rt, writeOrOverflow_of_not_fits (hadd _ _) _ s rt,
      writeOrOverflow_of_fits (hadd _ _) toInt_add_of_ovfAdd s rd, writeOrOverflow_of_not_fits (hadd _ _) _ s rd,
      writeOrOverflow_of_fits (hsub _ _) toInt_sub_of_ovfSub s rd, writeOrOverflow_of_not_fits (hsub _ _) _ s rd⟩

/-- Settles O16: each is one register write; the results differ from the model's in how the immediate and the bit are spelt. -/
theorem immediateResults : Obligations.ImmediateResults := by
  refine ⟨fun w => ?_, fun s rt rs imm => ?_⟩
  · refine ⟨fun hop => ?_, fun hop => ?_, fun hop => ?_, fun hop => ?_, fun hop => ?_, fun hop => ?_, fun hop => ?_⟩
    all_goals
      rw [decode, hop]
      rfl
  · rw [← boolWord_decide, ← boolWord_decide, ← zimm_eq_append, ← limm_eq_append]
    exact ⟨answers_setX s rt _, answers_setX s rt _, answers_setX s rt _, answers_setX s rt _, answers_setX s rt _,
      answers_setX s rt _, answers_setX s rt _⟩

end Sys2Proof.Claims
end

section
/-! Multiply and divide (R191-R194): `hi` and `lo` as one product, and as the quotient and remainder of the bit-vector library. -/

namespace Sys2Proof.Claims

open Sys2Proof.Machine

theorem answers_setHiLo (s : State) {P : Word → Word → Prop} {h l : Word} (hP : P h l) :
    Answers (.next { s with hi := h, lo := l }) (WritesHiLo s P) :=
  ⟨_, rfl, hP, fun _ => rfl, rfl, rfl, rfl, rfl, .of_fields rfl rfl rfl rfl⟩

/-! ### The product -/

/-- A signed product of two words fits in 64 bits. -/
theorem toInt_ofInt_product (a b : Word) : (BitVec.ofInt 64 (a.toInt * b.toInt)).toInt = a.toInt * b.toInt := by
  have hlow : -2 ^ 62 ≤ a.toInt * b.toInt := BitVec.le_toInt_mul_toInt
  have hhigh : a.toInt * b.toInt ≤ 2 ^ 62 := BitVec.toInt_mul_toInt_le
  exact BitVec.toInt_ofInt_eq_self (by decide) (by omega) (by omega)

/-- An unsigned product of two words fits in 64 bits. -/
theorem toNat_ofNat_product (a b : Word) : (BitVec.ofNat 64 (a.toNat * b.toNat)).toNat = a.toNat * b.toNat := by
  have hfits : a.toNat * b.toNat < 2 ^ 32 * 2 ^ 32 := Nat.mul_lt_mul'' a.isLt b.isLt
  exact Nat.mod_eq_of_lt hfits

/-- Settles O22: the two halves put together are the 64-bit product, which is exact. -/
theorem multiplyGivesTheExactProduct : Obligations.MultiplyGivesTheExactProduct := by
  refine ⟨fun w hop => ⟨fun hfunct => ?_, fun hfunct => ?_⟩, fun s rs rt => ⟨answers_setHiLo s ?_, answers_setHiLo s ?_⟩⟩
  iterate 2
    rw [decode_of_special hop, decodeSpecial, hfunct]
    rfl
  · rw [BitVec.extractLsb'_append_extractLsb', toInt_ofInt_product]
  · rw [← toNat_append_eq_add, BitVec.extractLsb'_append_extractLsb', toNat_ofNat_product]

/-! ### Signed division -/

theorem signedQuotRem_zero (n : Word) :
    signedQuotRem n 0#32 = (if n.toInt < 0 then 1#32 else 0xFFFFFFFF#32, n) := by
  simp [signedQuotRem, ltSigned]

theorem signedQuotRem_overflow : signedQuotRem 0x80000000#32 0xFFFFFFFF#32 = (0x80000000#32, 0#32) := rfl

section
variable {n d : Word}

theorem toInt_sdiv_of_no_overflow (hover : ¬ (n = 0x80000000#32 ∧ d = 0xFFFFFFFF#32)) :
    (n.sdiv d).toInt = n.toInt.tdiv d.toInt :=
  BitVec.toInt_sdiv_of_ne_or_ne n d (not_and_or.mp hover)

/-- Outside the edge cases DIV is the library's signed division. -/
theorem signedQuotRem_eq (hd : d ≠ 0#32) (hover : ¬ (n = 0x80000000#32 ∧ d = 0xFFFFFFFF#32)) :
    signedQuotRem n d = (n.sdiv d, n.srem d) := by
  have hquot : BitVec.ofInt 32 (n.toInt.tdiv d.toInt) = n.sdiv d := by
    rw [← toInt_sdiv_of_no_overflow hover, BitVec.ofInt_toInt]
  have hrem : BitVec.ofInt 32 (n.toInt - n.toInt.tdiv d.toInt * d.toInt) = n.srem d := by
    rw [mul_comm, ← Int.tmod_def, ← BitVec.toInt_srem, BitVec.ofInt_toInt]
  rw [signedQuotRem, if_neg hd, if_neg hover]
  exact Prod.ext hquot hrem

end

theorem abs_tmod_lt_abs (n : ℤ) {d : ℤ} (hd : d ≠ 0) : |n.tmod d| < |d| := by
  rw [Int.abs_eq_natAbs, Int.abs_eq_natAbs, Int.natAbs_tmod, Int.ofNat_lt]
  exact Nat.mod_lt _ (Int.natAbs_pos.mpr hd)

/-- A truncated remainder that is not zero has the dividend's sign. -/
theorem tmod_eq_zero_or_neg_iff (n d : ℤ) : n.tmod d = 0 ∨ (n.tmod d < 0 ↔ n < 0) := by
  by_cases hdvd : d ∣ n
  · exact .inl (Int.tmod_eq_zero_of_dvd hdvd)
  · have hsign := Int.sign_tmod n d
    rw [if_neg hdvd] at hsign
    rw [← Int.sign_eq_neg_one_iff_neg, hsign, Int.sign_eq_neg_one_iff_neg]
    exact .inr .rfl

/-- Settles O23: the two edge cases as they stand, and otherwise the library's signed quotient and remainder. -/
theorem divideTruncatesTowardZero : Obligations.DivideTruncatesTowardZero := by
  refine ⟨fun w hop hfunct => ?_, fun s rs rt => ?_⟩
  · rw [decode_of_special hop, decodeSpecial, hfunct]
    rfl
  intro n d
  refine answers_setHiLo s (h := (signedQuotRem n d).2) (l := (signedQuotRem n d).1)
    ⟨fun hd => ?_, fun hn hd => ?_, fun hd hover => ?_⟩
  · rw [hd, signedQuotRem_zero]
    exact ⟨rfl, rfl⟩
  · rw [hn, hd, signedQuotRem_overflow]
    exact ⟨rfl, rfl⟩
  · have hnonzero : d.toInt ≠ 0 := fun h => hd (BitVec.eq_of_toInt_eq h)
    rw [signedQuotRem_eq hd hover]
    dsimp only
    rw [BitVec.toInt_srem]
    exact ⟨toInt_sdiv_of_no_overflow hover, by rw [Int.tmod_def, mul_comm], abs_tmod_lt_abs _ hnonzero,
      tmod_eq_zero_or_neg_iff _ _⟩

/-! ### Unsigned division -/

theorem unsignedQuotRem_zero (n : Word) : unsignedQuotRem n 0#32 = (0xFFFFFFFF#32, n) := rfl

theorem unsignedQuotRem_eq (n : Word) {d : Word} (hd : d ≠ 0#32) : unsignedQuotRem n d = (n / d, n % d) := by
  rw [unsignedQuotRem, if_neg hd, BitVec.udiv_def, BitVec.umod_def]

/-- Settles O24: the edge case as it stands, and otherwise the library's unsigned quotient and remainder. -/
theorem unsignedDivide : Obligations.UnsignedDivide := by
  refine ⟨fun w hop hfunct => ?_, fun s rs rt => answers_setHiLo s ⟨fun hd => ?_, fun hd => ?_⟩⟩
  · rw [decode_of_special hop, decodeSpecial, hfunct]
    rfl
  · rw [hd, unsignedQuotRem_zero]
    exact ⟨rfl, rfl⟩
  · rw [unsignedQuotRem_eq _ hd]
    exact ⟨BitVec.toNat_udiv, BitVec.toNat_umod⟩

end Sys2Proof.Claims
end

section
/-! SPECIAL's shifts (R171-R176), register arithmetic, logic and comparison (R178-R186), and the HI/LO moves (R187-R190). -/

namespace Sys2Proof.Claims

open Sys2Proof.Machine

/-! ### Shifts, bit by bit -/

section
variable (v : Word) (n : Nat) {i : Nat}

theorem getLsbD_srl : (v >>> n).getLsbD i = if i + n < 32 then v.getLsbD (i + n) else false := by
  rw [BitVec.getLsbD_ushiftRight, Nat.add_comm]
  split
  · rfl
  · exact BitVec.getLsbD_of_ge v _ (not_lt.mp ‹_›)

theorem getLsbD_sll (hi : i < 32) : (v <<< n).getLsbD i = (decide (n ≤ i) && v.getLsbD (i - n)) := by
  rw [BitVec.getLsbD_shiftLeft, decide_eq_true hi, Bool.true_and, ← decide_not, decide_eq_decide.mpr not_lt]

theorem getLsbD_sra (hi : i < 32) : (v.sshiftRight n).getLsbD i = if i + n < 32 then v.getLsbD (i + n) else v.getLsbD 31 := by
  rw [BitVec.getLsbD_sshiftRight, decide_eq_false (not_le.mpr hi), Nat.add_comm, BitVec.msb_eq_getLsbD_last]
  rfl

end

/-- The mask of the low five bits is the remainder by 32 (R103). -/
theorem vshift_eq (v : Word) : vshift v = v.toNat % 32 := by
  rw [vshift, BitVec.toNat_and]
  exact Nat.and_two_pow_sub_one_eq_mod _ 5

/-! A variable shift is the constant shift by the low five bits of the register (R174-R176). -/

section
variable (rd rt rs : Reg) (s : State)

theorem exec_sllv : exec (.sllv rd rt rs) s = exec (.sll rd rt ((s.x rs).toNat % 32)) s := by
  rw [← vshift_eq]
  rfl

theorem exec_srlv : exec (.srlv rd rt rs) s = exec (.srl rd rt ((s.x rs).toNat % 32)) s := by
  rw [← vshift_eq]
  rfl

theorem exec_srav : exec (.srav rd rt rs) s = exec (.sra rd rt ((s.x rs).toNat % 32)) s := by
  rw [← vshift_eq]
  rfl

end

/-- Settles O19: the constant shifts for every amount, and a variable shift is a constant one. -/
theorem shiftResults : Obligations.ShiftResults := by
  refine ⟨fun w hop => ?_, fun s rd rt rs k _ => ?_⟩
  · refine ⟨fun hfunct => ?_, fun hfunct => ?_, fun hfunct => ?_, fun hfunct => ?_, fun hfunct => ?_, fun hfunct => ?_⟩
    all_goals
      rw [decode_of_special hop, decodeSpecial, hfunct]
      rfl
  · intro left right arith amount
    have hsll n : ∃ v, left n v ∧ Answers (exec (.sll rd rt n) s) (WritesReg s rd v) :=
      ⟨_, fun _ => getLsbD_sll _ n, answers_setX s rd _⟩
    have hsrl n : ∃ v, right n v ∧ Answers (exec (.srl rd rt n) s) (WritesReg s rd v) :=
      ⟨_, fun _ _ => getLsbD_srl _ n, answers_setX s rd _⟩
    have hsra n : ∃ v, arith n v ∧ Answers (exec (.sra rd rt n) s) (WritesReg s rd v) :=
      ⟨_, fun _ => getLsbD_sra _ n, answers_setX s rd _⟩
    rw [exec_sllv, exec_srlv, exec_srav]
    exact ⟨hsll k, hsrl k, hsra k, hsll amount, hsrl amount, hsra amount⟩

/-! ### Register results and HI/LO moves -/

/-- Settles O20: each is one register write. -/
theorem registerResults : Obligations.RegisterResults := by
  refine ⟨fun w hop => ?_, fun s rd rs rt => ?_⟩
  · refine ⟨fun hfunct => ?_, fun hfunct => ?_, fun hfunct => ?_, fun hfunct => ?_, fun hfunct => ?_, fun hfunct => ?_,
      fun hfunct => ?_, fun hfunct => ?_⟩
    all_goals
      rw [decode_of_special hop, decodeSpecial, hfunct]
      rfl
  · rw [← boolWord_decide, ← boolWord_decide]
    exact ⟨answers_setX s rd _, answers_setX s rd _, answers_setX s rd _, answers_setX s rd _, answers_setX s rd _,
      answers_setX s rd _, answers_setX s rd _, answers_setX s rd _⟩

/-- Settles O21: two register writes, and two writes of one half that keep the other. -/
theorem hiLoMoves : Obligations.HiLoMoves := by
  refine ⟨fun w hop => ?_, fun s r => ?_⟩
  · refine ⟨fun hfunct => ?_, fun hfunct => ?_, fun hfunct => ?_, fun hfunct => ?_⟩
    all_goals
      rw [decode_of_special hop, decodeSpecial, hfunct]
      rfl
  · exact ⟨answers_setX s r _, answers_setX s r _, answers_setHiLo s ⟨rfl, rfl⟩, answers_setHiLo s ⟨rfl, rfl⟩⟩

end Sys2Proof.Claims
end

section
/-! The delay slot of a jump or branch (R210). -/

namespace Sys2Proof.Claims

open Sys2Proof.Machine

/-- Settles O13: the branch keeps the `pc` that phase 4 advanced to the slot, its target waits in `next_pc`, and a slot that
does not trap moves that target to `pc` (O12). -/
theorem delaySlotRunsBeforeTheTarget : Obligations.DelaySlotRunsBeforeTheTarget := by
  intro s t v w i halign hw hdec hctl hv h
  rw [step_of_decode hw hdec, hv] at h
  cases h
  have hpc : (clearX0 (refetch v)).pc = s.nextPc := by
    rw [clearX0_pc, refetch_pc, pc_of_isControl hctl hv, (atPhase5_counters halign w).1]
  have hnext : (clearX0 (refetch v)).nextPc = v.nextPc := by rw [clearX0_nextPc, refetch_nextPc]
  exact ⟨hpc, hnext, fun u w' halign' hw' hraise hu => (programCounterLaw _ u w' halign' hw' hraise hu).1.trans hnext⟩

end Sys2Proof.Claims
end

section
/-! SYSCALL and BREAK (R240, R241), and the table of exceptions for every instruction (R246, R320): each row traps, and without
an exception only MTC0 and RFE change COP0. -/

namespace Sys2Proof.Claims

open Sys2Proof.Machine

theorem exec_syscall_traps (s : State) : Answers (exec .syscall s) (Traps s .sys 0#32) :=
  ⟨_, rfl, traps_takeException s .sys 0#32⟩

theorem exec_brk_traps (s : State) : Answers (exec .brk s) (Traps s .bp 0#32) := ⟨_, rfl, traps_takeException s .bp 0#32⟩

/-- Settles O28: the code field is not looked at, and both answers are the trap entry. -/
theorem syscallAndBreakTrap : Obligations.SyscallAndBreakTrap := by
  refine ⟨fun w hop => ⟨fun hfunct => ?_, fun hfunct => ?_⟩, fun s => ⟨exec_syscall_traps s, exec_brk_traps s⟩⟩
  all_goals
    rw [decode_of_special hop, decodeSpecial, hfunct]
    rfl

/-! ### The rows of the table -/

/-- AdES records no address, so its trap entry is that of any address (R325, D21). -/
theorem traps_adES (s : State) (a b : Word) : Traps s .adES b (takeException .adES a s) := traps_takeException s .adES b

section
variable {n : Width} {a : Word}

theorem load_traps (h : ¬ a.toNat % n.bytes = 0) (f : Word → Word) (r : Reg) (s : State) :
    Answers (load n f r a s) (Traps s .adEL a) :=
  ⟨_, load_of_misaligned ((misaligned_iff n a).mpr h) f r, traps_takeException s .adEL a⟩

theorem store_traps (h : ¬ a.toNat % n.bytes = 0) (v b : Word) (s : State) : Answers (store n v a s) (Traps s .adES b) :=
  ⟨_, store_of_misaligned ((misaligned_iff n a).mpr h) v, traps_adES s a b⟩

end

theorem execSw_traps {s : State} {base : Reg} {off : Half} (h : ¬ (ea s base off).toNat % 4 = 0) (rt : Reg) (b : Word) :
    Answers (execSw rt off base s) (Traps s .adES b) :=
  ⟨_, execSw_of_misaligned ((misaligned_iff .word _).mpr h), traps_adES s _ b⟩

/-- An instruction that the table says raises an exception takes its trap. -/
theorem traps_of_raises {i : Instr} {s : State} {e : ExcCode} (h : raises i s = some e) :
    Answers (exec i s) (Traps s e (badAddress i s)) := by
  cases i with
  | syscall => cases h; exact exec_syscall_traps s
  | brk => cases h; exact exec_brk_traps s
  | addi | add =>
    obtain ⟨hfits, ⟨⟩⟩ := Option.ite_none_left_eq_some.mp h
    exact writeOrOverflow_of_not_fits (ovfAdd_eq_false_iff ..) _ s _ hfits
  | sub =>
    obtain ⟨hfits, ⟨⟩⟩ := Option.ite_none_left_eq_some.mp h
    exact writeOrOverflow_of_not_fits (ovfSub_eq_false_iff ..) _ s _ hfits
  | lh | lhu =>
    obtain ⟨hmis, ⟨⟩⟩ := Option.ite_none_left_eq_some.mp h
    exact load_traps (n := .half) hmis ..
  | lw =>
    obtain ⟨hmis, ⟨⟩⟩ := Option.ite_none_left_eq_some.mp h
    exact load_traps (n := .word) hmis ..
  | sh =>
    obtain ⟨hmis, ⟨⟩⟩ := Option.ite_none_left_eq_some.mp h
    exact store_traps (n := .half) hmis ..
  | sw =>
    obtain ⟨hmis, ⟨⟩⟩ := Option.ite_none_left_eq_some.mp h
    exact execSw_traps hmis ..
  | _ => cases h

/-! ### COP0 without an exception (R246) -/

section
variable {s t : State} {n : Width} {a v : Word} {r : Reg}

theorem cop0_of_writeOrOverflow {b : Bool} (hb : b = false) (h : writeOrOverflow b r v s = .next t) : t.cop0 = s.cop0 := by
  subst hb
  cases h
  exact setX_cop0 ..

theorem cop0_of_load {f : Word → Word} (ha : misaligned n a = false) (h : load n f r a s = .next t) : t.cop0 = s.cop0 := by
  obtain ⟨hmis, -⟩ | ⟨-, w, -, rfl⟩ := load_next h
  · exact absurd hmis (ne_true_of_eq_false ha)
  · exact installLoad_cop0 ..

theorem cop0_of_loadMerged {f : Nat → Word → Word → Word} (h : loadMerged f r a s = .next t) : t.cop0 = s.cop0 := by
  obtain ⟨w, -, rfl⟩ := loadMerged_next h
  exact installLoad_cop0 ..

theorem cop0_of_busWrite (h : busWrite s n a v = .ok t) : t.cop0 = s.cop0 := by
  rw [busWrite_ok h]
  rfl

theorem cop0_of_store (ha : misaligned n a = false) (h : store n v a s = .next t) : t.cop0 = s.cop0 := by
  obtain ⟨hmis, -⟩ | ⟨-, hw⟩ := store_next h
  · exact absurd hmis (ne_true_of_eq_false ha)
  · exact cop0_of_busWrite hw

theorem cop0_of_storeMerged {f : Nat → Word → Word → Word} (h : storeMerged f v a s = .next t) : t.cop0 = s.cop0 := by
  obtain ⟨m, -, hw⟩ := storeMerged_next h
  exact cop0_of_busWrite hw

theorem cop0_of_sw {rt base : Reg} {off : Half} (ha : misaligned .word (ea s base off) = false)
    (h : execSw rt off base s = .next t) : t.cop0 = s.cop0 := by
  unfold execSw at h
  split at h
  · cases h
    rfl
  · exact cop0_of_store ha h

theorem cop0_of_mfc0 {rt rd : Reg} (h : execMfc0 rt rd s = .next t) : t.cop0 = s.cop0 := by
  cases h
  unfold readCop0
  split <;> exact setX_cop0 ..

end

theorem branchIf_cop0 (taken : Bool) (off : Half) (s : State) : (branchIf taken off s).cop0 = s.cop0 := by
  cases taken <;> rfl

/-- The table's other half for COP0: without an exception only MTC0 and RFE write it. -/
theorem cop0_of_raises_none {i : Instr} {s t : State} (hi : writesCop0 i = false) (hr : raises i s = none)
    (h : exec i s = .next t) : t.cop0 = s.cop0 := by
  cases i with
  | mtc0 | rfe => cases hi
  | syscall | brk => cases hr
  | addi | add => exact cop0_of_writeOrOverflow ((ovfAdd_eq_false_iff ..).mpr (of_ite_eq_none hr)) h
  | sub => exact cop0_of_writeOrOverflow ((ovfSub_eq_false_iff ..).mpr (of_ite_eq_none hr)) h
  | lb | lbu => exact cop0_of_load (n := .byte) rfl h
  | lh | lhu => exact cop0_of_load ((misaligned_eq_false_iff .half _).mpr (of_ite_eq_none hr)) h
  | lw => exact cop0_of_load ((misaligned_eq_false_iff .word _).mpr (of_ite_eq_none hr)) h
  | lwl | lwr => exact cop0_of_loadMerged h
  | sb => exact cop0_of_store (n := .byte) rfl h
  | sh => exact cop0_of_store ((misaligned_eq_false_iff .half _).mpr (of_ite_eq_none hr)) h
  | sw => exact cop0_of_sw ((misaligned_eq_false_iff .word _).mpr (of_ite_eq_none hr)) h
  | swl | swr => exact cop0_of_storeMerged h
  | mfc0 => exact cop0_of_mfc0 h
  | beq | bne | blez | bgtz | bltz | bgez => cases h; exact branchIf_cop0 ..
  | bltzal | bgezal => cases h; exact (setX_cop0 ..).trans (branchIf_cop0 ..)
  | j | jr | mthi | mtlo | mult | multu | div | divu => cases h; rfl
  | _ => cases h; exact setX_cop0 ..

/-- Settles O11: the rows of the table trap; in every other case the counters are O12's, and COP0 is `cop0_of_raises_none`. -/
theorem exceptionsAreExactlyTheTable : Obligations.ExceptionsAreExactlyTheTable := by
  intro i s
  refine ⟨fun e => traps_of_raises, fun hr t h => ?_⟩
  obtain ⟨hpc, hnext⟩ := counters_of_raises_none hr h
  exact ⟨hpc, hnext, fun hi => cop0_of_raises_none hi hr h⟩

end Sys2Proof.Claims
end

section
/-! The bytes of a word under masks and shifts, and so the merges of LWL, LWR, SWL and SWR byte by byte (R263, R264, R268,
R269). -/

namespace Sys2Proof.Machine

/-! ### Bytes of a word -/

/-- A word is its four bytes. -/
theorem eq_of_byteOfWord_eq {v w : Word} (h : ∀ i < 4, byteOfWord v i = byteOfWord w i) : v = w := by
  rw [← wordOfBytes_byteOfWord v, ← wordOfBytes_byteOfWord w, h 0 (by decide), h 1 (by decide), h 2 (by decide),
    h 3 (by decide)]

theorem byteOfWord_or (v w : Word) (i : Nat) : byteOfWord (v ||| w) i = byteOfWord v i ||| byteOfWord w i :=
  BitVec.extractLsb'_or

theorem byteOfWord_and (v w : Word) (i : Nat) : byteOfWord (v &&& w) i = byteOfWord v i &&& byteOfWord w i :=
  BitVec.extractLsb'_and

theorem byteOfWord_shiftLeft (w : Word) (j : Nat) {i : Nat} (hi : i < 4) :
    byteOfWord (w <<< (8 * j)) i = if j ≤ i then byteOfWord w (i - j) else 0#8 := by
  unfold byteOfWord
  ext b hb
  simp only [BitVec.getElem_extractLsb', BitVec.getLsbD_shiftLeft, show 8 * i + b < 32 by omega, decide_true, Bool.true_and]
  split
  · rw [decide_eq_false (by omega), BitVec.getElem_extractLsb', show 8 * i + b - 8 * j = 8 * (i - j) + b by omega]
    rfl
  · rw [decide_eq_true (by omega), BitVec.getElem_zero]
    rfl

theorem byteOfWord_ushiftRight (w : Word) (j i : Nat) :
    byteOfWord (w >>> (8 * j)) i = if i + j < 4 then byteOfWord w (i + j) else 0#8 := by
  unfold byteOfWord
  ext b hb
  rw [BitVec.getElem_extractLsb', BitVec.getLsbD_ushiftRight]
  split
  · rw [BitVec.getElem_extractLsb', show 8 * j + (8 * i + b) = 8 * (i + j) + b by omega]
  · rw [BitVec.getElem_zero, BitVec.getLsbD_of_ge _ _ (by omega)]

/-- The byte `i` of a little-endian word is the one at `p + i` (R74). -/
theorem byteOfWord_readLe (m : Memory) (p : Nat) {i : Nat} (hi : i < 4) :
    byteOfWord (m.readLe .word p) i = Cells.read m (p + i) := by
  unfold byteOfWord Memory.readLe wordOfBytes
  obtain rfl | rfl | rfl | rfl : i = 0 ∨ i = 1 ∨ i = 2 ∨ i = 3 := by omega
  all_goals
    simp (disch := decide) only [BitVec.extractLsb'_append_eq_of_le, BitVec.extractLsb'_append_eq_of_add_le,
      BitVec.extractLsb'_eq_self, Nat.reduceMul, Nat.reduceSub, Nat.add_zero]

/-! ### The merges: a word shifted by whole bytes into the bytes that a mask has cleared -/

section
variable (old w : Word) {mask : Word} {i k : Nat}

/-- The upper bytes of `old` are replaced. -/
theorem byteOfWord_merge_left {j : Nat} (hmask : ∀ i < 4, byteOfWord mask i = if j ≤ i then 0#8 else BitVec.allOnes 8)
    (hi : i < 4) :
    byteOfWord ((old &&& mask) ||| (w <<< (8 * j))) i = if j ≤ i then byteOfWord w (i - j) else byteOfWord old i := by
  rw [byteOfWord_or, byteOfWord_and, byteOfWord_shiftLeft w j hi, hmask i hi]
  split
  · rw [BitVec.and_zero, BitVec.zero_or]
  · rw [BitVec.and_allOnes, BitVec.or_zero]

/-- The lower bytes of `old` are replaced. -/
theorem byteOfWord_merge_right {j : Nat}
    (hmask : ∀ i < 4, byteOfWord mask i = if i + j < 4 then 0#8 else BitVec.allOnes 8) (hi : i < 4) :
    byteOfWord ((old &&& mask) ||| (w >>> (8 * j))) i = if i + j < 4 then byteOfWord w (i + j) else byteOfWord old i := by
  rw [byteOfWord_or, byteOfWord_and, byteOfWord_ushiftRight, hmask i hi]
  split
  · rw [BitVec.and_zero, BitVec.zero_or]
  · rw [BitVec.and_allOnes, BitVec.or_zero]

/-- LWL puts the bytes `0..k` of the memory word into the top of the register (R263). -/
theorem byteOfWord_mergeLwl (hk : k < 4) (hi : i < 4) :
    byteOfWord (mergeLwl k old w) i = if 3 - k ≤ i then byteOfWord w (i - (3 - k)) else byteOfWord old i := by
  obtain rfl | rfl | rfl | rfl : k = 0 ∨ k = 1 ∨ k = 2 ∨ k = 3 := by omega
  · exact byteOfWord_merge_left old w (j := 3) (by decide) hi
  · exact byteOfWord_merge_left old w (j := 2) (by decide) hi
  · exact byteOfWord_merge_left old w (j := 1) (by decide) hi
  · exact (if_pos (Nat.zero_le i)).symm

/-- LWR puts the bytes `k..3` of the memory word into the bottom of the register (R264). -/
theorem byteOfWord_mergeLwr (hk : k < 4) (hi : i < 4) :
    byteOfWord (mergeLwr k old w) i = if i + k < 4 then byteOfWord w (i + k) else byteOfWord old i := by
  obtain rfl | rfl | rfl | rfl : k = 0 ∨ k = 1 ∨ k = 2 ∨ k = 3 := by omega
  · exact (if_pos hi).symm
  · exact byteOfWord_merge_right old w (j := 1) (by decide) hi
  · exact byteOfWord_merge_right old w (j := 2) (by decide) hi
  · exact byteOfWord_merge_right old w (j := 3) (by decide) hi

end

/-- SWL merges the register into the memory word as LWR, at the mirrored lane, merges the other way (R268). -/
theorem mergeSwl_eq_mergeLwr (m r : Word) {k : Nat} (hk : k < 4) : mergeSwl k m r = mergeLwr (3 - k) m r := by
  obtain rfl | rfl | rfl | rfl : k = 0 ∨ k = 1 ∨ k = 2 ∨ k = 3 := by omega
  all_goals rfl

/-- SWR merges the register into the memory word as LWL, at the mirrored lane, merges the other way (R269). -/
theorem mergeSwr_eq_mergeLwl (m r : Word) {k : Nat} (hk : k < 4) : mergeSwr k m r = mergeLwl (3 - k) m r := by
  obtain rfl | rfl | rfl | rfl : k = 0 ∨ k = 1 ∨ k = 2 ∨ k = 3 := by omega
  all_goals rfl

section
variable (m r : Word) {i k : Nat}

/-- SWL puts the top `k + 1` bytes of the register into the bytes `0..k` of the memory word (R268). -/
theorem byteOfWord_mergeSwl (hk : k < 4) (hi : i < 4) :
    byteOfWord (mergeSwl k m r) i = if i ≤ k then byteOfWord r (3 - k + i) else byteOfWord m i := by
  rw [mergeSwl_eq_mergeLwr m r hk, byteOfWord_mergeLwr m r (by omega) hi, Nat.add_comm]
  exact if_congr (by omega) rfl rfl

/-- SWR puts the bottom `4 - k` bytes of the register into the bytes `k..3` of the memory word (R269). -/
theorem byteOfWord_mergeSwr (hk : k < 4) (hi : i < 4) :
    byteOfWord (mergeSwr k m r) i = if k ≤ i then byteOfWord r (i - k) else byteOfWord m i := by
  rw [mergeSwr_eq_mergeLwl m r hk, byteOfWord_mergeLwl m r (by omega) hi, show 3 - (3 - k) = k by omega]

end

/-- The lane is the address modulo 4. -/
theorem lane_eq (a : Word) : lane a = a.toNat % 4 := and3_toNat a

theorem lane_lt (a : Word) : lane a < 4 := by
  rw [lane_eq]
  omega

end Sys2Proof.Machine
end

section
/-! The statements about loads through the slot and about merged loads and stores (R258-R264, R268, R269). -/

namespace Sys2Proof.Claims

open Sys2Proof.Machine

/-! ### The load-delay slot -/

/-- The flushed register file, as the statements say it (R257). -/
theorem flushLoad_x_eq_afterFlush (s : State) (q : Reg) : (flushLoad s).x q = afterFlush s q := by
  rw [x_flushLoad, afterFlush]
  cases s.ld with
  | none => rfl
  | some slot => exact if_congr (and_congr_right fun hq => by rw [hq]) rfl rfl

theorem installsLoad_installLoad (s : State) (r : Reg) (v : Word) : InstallsLoad s r v (installLoad r v s) :=
  ⟨installLoad_ld .., fun q => (installLoad_x ..).trans (flushLoad_x_eq_afterFlush s q), installLoad_hi .., installLoad_lo ..,
    installLoad_pc .., installLoad_nextPc .., installLoad_cop0 ..,
    .of_fields (installLoad_mem ..) (installLoad_gpu ..) (installLoad_instruction ..) (installLoad_draws ..)⟩

theorem load_installs {s : State} {n : Width} {a v : Word} (ha : misaligned n a = false) (hr : busRead s n a = .ok v)
    (f : Word → Word) (rt : Reg) : Answers (load n f rt a s) (InstallsLoad s rt (f v)) :=
  ⟨_, load_of_ok ha hr f rt, installsLoad_installLoad s rt (f v)⟩

/-! ### Aligned loads: the bus answers a value of the access's width (R72) -/

theorem mask_readLe (m : Memory) (n : Width) (p : Nat) : n.mask (m.readLe n p) = m.readLe n p := by
  cases n with
  | byte | half =>
    exact congrArg (BitVec.setWidth 32) ((BitVec.setWidth_setWidth_of_le _ (by decide)).trans (BitVec.setWidth_eq _))
  | word => rfl

theorem mask_zero (n : Width) : n.mask 0#32 = 0#32 := by cases n <;> rfl

theorem mask_of_ioRead {g : Gpu} {n : Width} {p : Nat} {v : Word} (h : ioRead g n p = .ok v) : n.mask v = v := by
  by_cases hn : n = .word
  · rw [hn]
    rfl
  · unfold ioRead at h
    rw [if_neg (fun hw => hn hw.1), if_neg (fun hw => hn hw.1)] at h
    split at h
    · cases h
    · cases h
      exact mask_zero n

theorem mask_of_busRead {s : State} {n : Width} {a v : Word} (ha : misaligned n a = false) (h : busRead s n a = .ok v) :
    n.mask v = v := by
  rw [busRead_aligned s ha] at h
  split at h
  · cases h; exact mask_readLe ..
  · cases h; exact mask_readLe ..
  · cases h; exact mask_readLe ..
  · cases h; exact mask_zero n
  · exact mask_of_ioRead h

/-- An aligned access clear of the ports reads a value of its width. -/
theorem busRead_of_clearOfPorts (s : State) {n : Width} {a : Word} (ha : misaligned n a = false) (hclear : clearOfPorts n a) :
    ∃ v, busRead s n a = .ok (n.mask v) := by
  obtain ⟨v, hv⟩ := busRead_ok_of_clear s ha (.inr ((clearOfPorts_iff n a).mp hclear))
  exact ⟨v, by rw [mask_of_busRead ha hv, hv]⟩

/-- Settles O34: the bus answers a value of the access's width, and the slot takes it, extended. -/
theorem alignedLoads : Obligations.AlignedLoads := by
  refine ⟨fun w => ?_, fun s rt base off => ⟨fun hclear => ?_, fun h2 hclear => ?_, fun h4 => ?_⟩⟩
  · refine ⟨fun hop => ?_, fun hop => ?_, fun hop => ?_, fun hop => ?_, fun hop => ?_⟩
    all_goals
      rw [decode, hop]
      rfl
  · obtain ⟨v, hv⟩ := busRead_of_clearOfPorts s rfl hclear
    exact ⟨v.setWidth 8, hv, sextByte_mask v ▸ load_installs (n := .byte) rfl hv sextByte rt,
      load_installs (n := .byte) rfl hv id rt⟩
  · have ha : misaligned .half (ea s base off) = false := (misaligned_eq_false_iff .half _).mpr h2
    obtain ⟨v, hv⟩ := busRead_of_clearOfPorts s ha hclear
    exact ⟨v.setWidth 16, hv, sextHalf_mask v ▸ load_installs ha hv sextHalf rt, load_installs ha hv id rt⟩
  · have ha : misaligned .word (ea s base off) = false := (misaligned_eq_false_iff .word _).mpr h4
    obtain ⟨v, hv⟩ := busRead_word_ok s ha
    exact ⟨v, hv, load_installs ha hv id rt⟩

/-! ### Merged loads and stores -/

section
variable {s : State} {a w : Word} (h : busRead s .word (alignedWord a) = .ok w)
include h

theorem loadMerged_of_ok (f : Nat → Word → Word → Word) (rt : Reg) :
    loadMerged f rt a s = .next (installLoad rt (f (lane a) (s.x rt) w) s) := by
  unfold loadMerged
  rw [h]
  rfl

theorem storeMerged_of_ok (f : Nat → Word → Word → Word) (r : Word) :
    storeMerged f r a s = .next (afterWrite s .word (alignedWord a) (f (lane a) w r)) := by
  unfold storeMerged
  rw [h, ofAccess, busWrite_of_clear s _ (alignedWord_aligned a) (.inl rfl)]
  rfl

theorem loadMerged_installs (f : Nat → Word → Word → Word) (rt : Reg) :
    Answers (loadMerged f rt a s) (InstallsLoad s rt (f (lane a) (s.x rt) w)) :=
  ⟨_, loadMerged_of_ok h f rt, installsLoad_installLoad ..⟩

theorem storeMerged_storesBytes (hwf : Memory.wf s.mem) (f : Nat → Word → Word → Word) (r : Word) :
    Answers (storeMerged f r a s) (StoresBytes s .word (alignedWord a) (f (lane a) w r)) :=
  ⟨_, storeMerged_of_ok h f r, afterWrite_storesBytes hwf ..⟩

end

/-- Settles O37: the aligned word is always read, and the merges are those of the register as it stands. -/
theorem unalignedLoadsMergeBytes : Obligations.UnalignedLoadsMergeBytes := by
  refine ⟨fun w => ⟨fun hop => ?_, fun hop => ?_⟩, fun s rt base off => ?_⟩
  iterate 2
    rw [decode, hop]
    rfl
  · intro a k
    obtain ⟨w, hw⟩ := busRead_word_ok s (alignedWord_aligned a)
    have hk : lane a = k := lane_eq a
    have hlt : k < 4 := hk ▸ lane_lt a
    refine ⟨w, _, _, hw, fun i hi => ?_, fun i hi => ?_, loadMerged_installs hw mergeLwl rt,
      loadMerged_installs hw mergeLwr rt⟩
    · rw [hk, byteOfWord_mergeLwl _ _ hlt hi]
    · rw [hk, byteOfWord_mergeLwr _ _ hlt hi]
      exact if_congr (by omega) rfl rfl

/-- Settles O40: the aligned word is always read and written, with the register merged in. -/
theorem unalignedStoresMergeBytes : Obligations.UnalignedStoresMergeBytes := by
  refine ⟨fun w => ⟨fun hop => ?_, fun hop => ?_⟩, fun s rt base off hwf => ?_⟩
  iterate 2
    rw [decode, hop]
    rfl
  · intro a k
    obtain ⟨m, hm⟩ := busRead_word_ok s (alignedWord_aligned (ea s base off))
    have hk : lane (ea s base off) = k := lane_eq _
    have hlt : k < 4 := hk ▸ lane_lt _
    refine ⟨m, _, _, hm, fun j hj => ?_, fun j hj => ?_, storeMerged_storesBytes hm hwf mergeSwl (s.x rt),
      storeMerged_storesBytes hm hwf mergeSwr (s.x rt)⟩
    · rw [hk, byteOfWord_mergeSwl _ _ hlt hj]
    · rw [hk, byteOfWord_mergeSwr _ _ hlt hj]

end Sys2Proof.Claims
end

section
/-! The pairs LWR and LWL, SWR and SWL, three bytes apart (R273): the first access takes the bytes of its aligned word from the
address on, the second the bytes of the next aligned word before the address's lane, and together they are the four bytes at
the address. -/

namespace Sys2Proof.Claims

open Sys2Proof.Machine

/-! ### The aligned word in the byte arrays -/

theorem phys_mod_four (a : Word) : phys a % 4 = a.toNat % 4 := by
  rw [phys_eq]
  omega

theorem phys_alignedWord (a : Word) : phys (alignedWord a) = phys a - lane a := by
  rw [phys_eq, phys_eq, alignedWord_toNat, lane_eq]
  omega

theorem lane_le_phys (a : Word) : lane a ≤ phys a := by
  have hmod := phys_mod_four a
  rw [lane_eq]
  omega

theorem lane_pos {a : Word} (h : a.toNat % 4 ≠ 0) : 0 < lane a := Nat.pos_of_ne_zero (lane_eq a ▸ h)

/-- An address and the aligned word around it lie in one region (R73). -/
theorem regionOf_alignedWord (a : Word) : regionOf (phys (alignedWord a)) = regionOf (phys a) := by
  have hmod := phys_mod_four a
  apply regionOf_in_word
  rw [phys_alignedWord, lane_eq]
  omega

/-- The bytes of the aligned word around an address in the byte arrays (R74). -/
theorem busRead_alignedWord (s : State) {a : Word} (h : (regionOf (phys a)).isArray) :
    ∃ w, busRead s .word (alignedWord a) = .ok w ∧ ∀ i < 4, byteOfWord w i = s.byteAt (phys a - lane a + i) := by
  rw [← regionOf_alignedWord] at h
  refine ⟨_, busRead_of_isArray s (spansRegions_of_aligned (alignedWord_aligned a)) h, fun i hi => ?_⟩
  rw [byteOfWord_readLe _ _ hi, phys_alignedWord]
  rfl

theorem lt_of_isArray {p : Nat} (h : (regionOf p).isArray) : p < 0x1FC80000 := by
  by_contra hp
  have hr : regionOf p = .unmapped := by
    simp only [regionOf, ramSize, scratchpadBase, biosBase, biosSize]
    rw [if_neg (by omega), if_neg (by omega), if_neg (by omega), if_neg (by omega)]
  simp [Region.isArray, hr] at h

/-- The last of four bytes in the byte arrays is three further, without a wrap. -/
theorem phys_add_three {a : Word} (h : (regionOf (phys a + 3)).isArray) : phys (a + 3#32) = phys a + 3 := by
  have hlt := lt_of_isArray h
  rw [phys_add]
  exact Nat.mod_eq_of_lt (by simp only [BitVec.toNat_ofNat]; omega)

/-- The last of four bytes at an unaligned address is in the next lane round. -/
theorem lane_add_three {a : Word} (h : a.toNat % 4 ≠ 0) : lane (a + 3#32) = lane a - 1 := by
  rw [lane_eq, lane_eq, BitVec.toNat_add, BitVec.toNat_ofNat]
  omega

theorem isArray_of_writable {p : Nat} (h : writable p) : (regionOf p).isArray := ((writable_iff p).mp h).imp_right .inl

/-! ### The loads -/

/-- `word` is the bytes of `w` from lane `k` on, then the bytes of `v` below it. -/
def Straddles (k : Nat) (w v word : Word) : Prop :=
  ∀ i < 4, byteOfWord word i = if i + k < 4 then byteOfWord w (i + k) else byteOfWord v (i + k - 4)

section
variable {k : Nat} {w v word : Word} (h : Straddles k w v word) (h0 : 0 < k) (hk : k < 4) (old : Word)
include h h0 hk

theorem mergeLwl_mergeLwr : mergeLwl (k - 1) (mergeLwr k old w) v = word := by
  refine eq_of_byteOfWord_eq fun i hi => ?_
  rw [byteOfWord_mergeLwl _ _ (by omega) hi, byteOfWord_mergeLwr _ _ hk hi, h i hi]
  by_cases hlow : i + k < 4
  · rw [if_neg (by omega), if_pos hlow, if_pos hlow]
  · rw [if_pos (by omega), if_neg hlow, show i - (3 - (k - 1)) = i + k - 4 by omega]

theorem mergeLwr_mergeLwl : mergeLwr k (mergeLwl (k - 1) old v) w = word := by
  refine eq_of_byteOfWord_eq fun i hi => ?_
  rw [byteOfWord_mergeLwr _ _ hk hi, byteOfWord_mergeLwl _ _ (by omega) hi, h i hi]
  by_cases hlow : i + k < 4
  · rw [if_pos hlow, if_pos hlow]
  · rw [if_neg hlow, if_neg hlow, if_pos (by omega), show i - (3 - (k - 1)) = i + k - 4 by omega]

end

/-- Two merged loads, the second on the register as the first leaves it one instruction later (R271). -/
theorem loadMerged_twice {s s' : State} {a b w v word : Word} (hw : busRead s .word (alignedWord a) = .ok w)
    (hv : busRead s' .word (alignedWord b) = .ok v) {f g : Nat → Word → Word → Word} {rt : Reg}
    (h : g (lane b) (f (lane a) (s.x rt) w) v = word) :
    Answers (loadMerged f rt a s) (fun t => ∃ v, t.ld = some ⟨rt, v, 1⟩ ∧
      (s'.x rt = v → Answers (loadMerged g rt b s') (fun u => u.ld = some ⟨rt, word, 1⟩))) := by
  refine ⟨_, loadMerged_of_ok hw f rt, _, installLoad_ld .., fun hx => ⟨_, loadMerged_of_ok hv g rt, ?_⟩⟩
  rw [hx, h]
  exact installLoad_ld ..

/-- The four bytes at an unaligned address straddle its aligned word and the next. -/
theorem straddles_readLe {s : State} {a w v : Word} (ha : a.toNat % 4 ≠ 0) (hlast : (regionOf (phys a + 3)).isArray)
    (hw : ∀ i < 4, byteOfWord w i = s.byteAt (phys a - lane a + i))
    (hv : ∀ i < 4, byteOfWord v i = s.byteAt (phys (a + 3#32) - lane (a + 3#32) + i)) :
    Straddles (lane a) w v (s.mem.readLe .word (phys a)) := by
  have hle := lane_le_phys a
  have hlt := lane_lt a
  have hpos := lane_pos ha
  intro i hi
  rw [phys_add_three hlast, lane_add_three ha] at hv
  rw [byteOfWord_readLe _ _ hi]
  split
  · rw [hw _ ‹_›, show phys a - lane a + (i + lane a) = phys a + i by omega]
    rfl
  · rw [hv _ (by omega), show phys a + 3 - (lane a - 1) + (i + lane a - 4) = phys a + i by omega]
    rfl

/-! ### The stores -/

/-- Every byte after a word store in RAM or the scratchpad. -/
theorem byteAt_of_storesBytes {s t : State} {a v : Word} (h : StoresBytes s .word a v t) (hw : writable (phys a)) (p : Nat) :
    t.byteAt p = if phys a ≤ p ∧ p < phys a + 4 then byteOfWord v (p - phys a) else s.byteAt p := by
  split
  · have hstored := h.stored hw (p - phys a) (show p - phys a < 4 by omega)
    rwa [Nat.add_sub_cancel' (by omega)] at hstored
  · exact h.outside p (show p < phys a ∨ phys a + 4 ≤ p by omega)

/-- Every byte after a merged store in RAM or the scratchpad: the word stored is the old one with the register merged in. -/
theorem byteAt_of_storeMerged {s t : State} {f : Nat → Word → Word → Word} {r a : Word} (hwf : Memory.wf s.mem)
    (hw : writable (phys a)) (h : storeMerged f r a s = .next t) :
    ∃ m, (∀ i < 4, byteOfWord m i = s.byteAt (phys a - lane a + i)) ∧
      ∀ p, t.byteAt p = if phys a - lane a ≤ p ∧ p < phys a - lane a + 4
        then byteOfWord (f (lane a) m r) (p - (phys a - lane a)) else s.byteAt p := by
  obtain ⟨m, hm, hbytes⟩ := busRead_alignedWord s (isArray_of_writable hw)
  refine ⟨m, hbytes, fun p => ?_⟩
  rw [storeMerged_of_ok hm] at h
  cases h
  have hw' : writable (phys (alignedWord a)) := (writable_iff _).mpr (regionOf_alignedWord a ▸ (writable_iff _).mp hw)
  rw [← phys_alignedWord]
  exact byteAt_of_storesBytes (afterWrite_storesBytes hwf ..) hw' p

theorem wf_afterWrite {s : State} (hwf : Memory.wf s.mem) (n : Width) (a v : Word) : Memory.wf (afterWrite s n a v).mem := by
  unfold afterWrite
  dsimp only
  split
  · exact Memory.wf_writeLe hwf ..
  · exact hwf

theorem wf_of_storeMerged {s t : State} {f : Nat → Word → Word → Word} {r a : Word} (hwf : Memory.wf s.mem)
    (h : storeMerged f r a s = .next t) : Memory.wf t.mem := by
  obtain ⟨m, -, ht⟩ := storeMerged_next h
  exact busWrite_ok ht ▸ wf_afterWrite hwf ..

theorem x_of_storeMerged {s t : State} {f : Nat → Word → Word → Word} {r a : Word} (h : storeMerged f r a s = .next t)
    (q : Reg) : t.x q = s.x q := by
  obtain ⟨m, -, ht⟩ := storeMerged_next h
  exact busWrite_ok ht ▸ rfl

section
variable {s t : State} {r a : Word} (hwf : Memory.wf s.mem) (hw : writable (phys a))
include hwf hw

/-- SWR stores the register from the address to the end of its aligned word (R269). -/
theorem byteAt_of_swr (h : storeMerged mergeSwr r a s = .next t) (p : Nat) :
    t.byteAt p = if phys a ≤ p ∧ p < phys a - lane a + 4 then byteOfWord r (p - phys a) else s.byteAt p := by
  obtain ⟨m, hm, ht⟩ := byteAt_of_storeMerged hwf hw h
  have hle := lane_le_phys a
  rw [ht p]
  by_cases hin : phys a - lane a ≤ p ∧ p < phys a - lane a + 4
  · rw [if_pos hin, byteOfWord_mergeSwr _ _ (lane_lt a) (by omega), hm _ (by omega), Nat.add_sub_cancel' hin.1,
      show p - (phys a - lane a) - lane a = p - phys a by omega]
    exact if_congr (by omega) rfl rfl
  · rw [if_neg hin, if_neg (by omega)]

/-- SWL stores the register from the start of the aligned word to the address (R268). -/
theorem byteAt_of_swl (h : storeMerged mergeSwl r a s = .next t) (p : Nat) :
    t.byteAt p = if phys a - lane a ≤ p ∧ p ≤ phys a then byteOfWord r (p + 3 - phys a) else s.byteAt p := by
  obtain ⟨m, hm, ht⟩ := byteAt_of_storeMerged hwf hw h
  have hle := lane_le_phys a
  have hlt := lane_lt a
  rw [ht p]
  by_cases hin : phys a - lane a ≤ p ∧ p < phys a - lane a + 4
  · rw [if_pos hin, byteOfWord_mergeSwl _ _ hlt (by omega), hm _ (by omega), Nat.add_sub_cancel' hin.1,
      show 3 - lane a + (p - (phys a - lane a)) = p + 3 - phys a by omega]
    exact if_congr (by omega) rfl rfl
  · rw [if_neg hin, if_neg (by omega)]

/-- SWR at an unaligned address, then SWL three bytes further, store the four bytes at the address (R273). -/
theorem byteAt_of_swr_swl {u : State} (ha : a.toNat % 4 ≠ 0) (hlast : writable (phys a + 3))
    (hswr : storeMerged mergeSwr r a s = .next t) (hswl : storeMerged mergeSwl r (a + 3#32) t = .next u) (p : Nat) :
    u.byteAt p = if phys a ≤ p ∧ p < phys a + 4 then byteOfWord r (p - phys a) else s.byteAt p := by
  have hend : phys (a + 3#32) = phys a + 3 := phys_add_three (isArray_of_writable hlast)
  have hle := lane_le_phys a
  have hlt := lane_lt a
  have hpos := lane_pos ha
  rw [byteAt_of_swl (wf_of_storeMerged hwf hswr) (hend.symm ▸ hlast) hswl p, hend, lane_add_three ha,
    byteAt_of_swr hwf hw hswr p]
  obtain hfirst | hsecond | hout : (phys a ≤ p ∧ p < phys a - lane a + 4) ∨
      (phys a - lane a + 4 ≤ p ∧ p < phys a + 4) ∨ ¬ (phys a ≤ p ∧ p < phys a + 4) := by omega
  · rw [if_neg (by omega), if_pos hfirst, if_pos (by omega)]
  · rw [if_pos (by omega), if_pos (by omega), Nat.add_sub_add_right]
  · rw [if_neg (by omega), if_neg (by omega), if_neg hout]

end

/-- Settles O43: the two merged loads take the two parts of a straddling word, and the two stores cover its four bytes. -/
theorem unalignedPairsMoveTheWord : Obligations.UnalignedPairsMoveTheWord := by
  refine ⟨?_, ?_⟩
  · intro s s' rt base base' off off' a ha hfirst hlast hsame word
    have hend : (regionOf (phys (a + 3#32))).isArray := (phys_add_three hlast).symm ▸ hlast
    have hpos := lane_pos ha
    refine ⟨fun hea hea' => ?_, fun hea hea' => ?_⟩
    · obtain ⟨w, hw, hwbytes⟩ := busRead_alignedWord s hfirst
      obtain ⟨v, hv, hvbytes⟩ := busRead_alignedWord s' hend
      simp only [hsame] at hvbytes
      have hword : Straddles (lane a) w v word := straddles_readLe ha hlast hwbytes hvbytes
      simp only [exec, execLwr, execLwl, hea, hea']
      exact loadMerged_twice hw hv (lane_add_three ha ▸ mergeLwl_mergeLwr hword hpos (lane_lt a) _)
    · obtain ⟨w, hw, hwbytes⟩ := busRead_alignedWord s' hfirst
      obtain ⟨v, hv, hvbytes⟩ := busRead_alignedWord s hend
      simp only [hsame] at hwbytes
      have hword : Straddles (lane a) w v word := straddles_readLe ha hlast hwbytes hvbytes
      simp only [exec, execLwr, execLwl, hea, hea']
      exact loadMerged_twice hv hw (lane_add_three ha ▸ mergeLwr_mergeLwl hword hpos (lane_lt a) _)
  · intro s t u rt base off off' hwf a ha hea hfirst hlast hswr hswl
    have hx := x_of_storeMerged hswr
    have hswl' : storeMerged mergeSwl (s.x rt) (a + 3#32) t = .next u := by
      rwa [exec, execSwl, hx, ea, hx, ← ea, hea] at hswl
    have hbytes := byteAt_of_swr_swl hwf hfirst ha hlast hswr hswl'
    refine ⟨fun i hi => ?_, fun p hp => ?_⟩
    · rw [hbytes, if_pos (by omega), Nat.add_sub_cancel_left]
    · rw [hbytes, if_neg (by omega)]

end Sys2Proof.Claims
end

section
/-! What a packet does to the GPU, state by state (R291-R302), and the way of a transfer's cursor through its rectangle: it
meets each pixel once, so what a 0xA0 transfer writes a 0xC0 transfer of the same rectangle reads (R305). -/

namespace Sys2Proof.Machine.Gpu

open Sys2Proof.Claims (slice_toNat feed readPairs sizeWidth sizeHeight)

/-! ### A packet in each state of the port -/

section
variable {g : Gpu} (w : Word)

theorem gp0Write_of_awaitingCommand (hs : g.gp0State = .awaitingCommand) : g.gp0Write w = g.commandWord w := by
  simp only [gp0Write, hs]

theorem gp0Write_of_receivingParameters (hs : g.gp0State = .receivingParameters) : g.gp0Write w = g.parameterWord w := by
  simp only [gp0Write, hs]

theorem gp0Write_of_receivingData (hs : g.gp0State = .receivingData) : g.gp0Write w = g.dataWord w := by
  simp only [gp0Write, hs]

theorem gp0Write_of_transferringData (hs : g.gp0State = .transferringData) : g.gp0Write w = g.transferWord := by
  simp only [gp0Write, hs]

end

/-! ### Commands -/

theorem commandByte_eq {w : Word} {b : Byte} (h : w.toNat / 2 ^ 24 = b.toNat) : w.extractLsb' 24 8 = b := by
  have hw := w.isLt
  apply BitVec.eq_of_toNat_eq
  rw [slice_toNat]
  omega

theorem commandByte_ne {w : Word} {b : Byte} (h : w.toNat / 2 ^ 24 ≠ b.toNat) : w.extractLsb' 24 8 ≠ b := by
  have hw := w.isLt
  rintro rfl
  rw [slice_toNat] at h
  omega

/-! ### Parameters -/

theorem gp0Write_of_lastParameter {g : Gpu} (w : Word) (hs : g.gp0State = .receivingParameters)
    (hlast : g.cmd.remainingWords = 1) :
    g.gp0Write w = if g.cmd.kind = .rectangle then (g.addParam w).drawPixel else (g.addParam w).startTransfer := by
  rw [gp0Write_of_receivingParameters w hs, parameterWord_eq, if_pos (by rw [hlast])]

theorem toNat_loHalf (w : Word) : (loHalf w).toNat = w.toNat % 65536 := by
  simp only [loHalf, slice_toNat, Nat.reducePow, Nat.div_one]

theorem toNat_hiHalf (w : Word) : (hiHalf w).toNat = w.toNat / 65536 := by
  have hw := w.isLt
  simp only [hiHalf, slice_toNat, Nat.reducePow]
  omega

theorem toNat_and_columnMask (v : Half) : (v &&& 0x3FF#16).toNat = v.toNat % 1024 := by
  simpa using Nat.and_two_pow_sub_one_eq_mod v.toNat 10

theorem toNat_and_rowMask (v : Half) : (v &&& 0x1FF#16).toNat = v.toNat % 512 := by
  simpa using Nat.and_two_pow_sub_one_eq_mod v.toNat 9

theorem decodeWidth_eq_sizeWidth (size : Word) : decodeWidth (loHalf size) = sizeWidth size := by
  rw [decodeWidth, sizeWidth, toNat_and_columnMask, BitVec.toNat_sub, toNat_loHalf, BitVec.toNat_ofNat]
  omega

theorem decodeHeight_eq_sizeHeight (size : Word) : decodeHeight (hiHalf size) = sizeHeight size := by
  rw [decodeHeight, sizeHeight, toNat_and_rowMask, BitVec.toNat_sub, toNat_hiHalf, BitVec.toNat_ofNat]
  omega

/-- The cursor at the start of a transfer of `w` columns at the position word `pos` (R299). -/
def startCursor (pos : Word) (w : Nat) : Cursor :=
  { x := pos.toNat % 1024, y := pos.toNat / 65536 % 512, xStart := pos.toNat % 1024, xMax := pos.toNat % 1024 + w }

theorem startTransfer_eq {g : Gpu} {pos size : Word} (hp : g.cmd.params = [pos, size]) :
    g.startTransfer =
      { g with
        cmd := { g.cmd with remainingWords := sizeWidth size * sizeHeight size / 2 }
        cursor := startCursor pos (sizeWidth size)
        gp0State := if sizeWidth size * sizeHeight size / 2 = 0 then .awaitingCommand
                    else if g.cmd.kind = .cpuToVram then .receivingData else .transferringData } := by
  have h0 : g.param 0 = pos := by simp [param, hp]
  have h1 : g.param 1 = size := by simp [param, hp]
  have hx : (loHalf pos &&& 0x3FF#16).toNat = pos.toNat % 1024 := by
    rw [toNat_and_columnMask, toNat_loHalf]
    omega
  have hy : (hiHalf pos &&& 0x1FF#16).toNat = pos.toNat / 65536 % 512 := by
    rw [toNat_and_rowMask, toNat_hiHalf]
  simp only [startTransfer, h0, h1, hx, hy, decodeWidth_eq_sizeWidth, decodeHeight_eq_sizeHeight, startCursor]

/-- The position word of a transfer is kept (R296). -/
theorem gp0Write_transferPosition {g : Gpu} {kind : CmdKind} (pos : Word) (hs : g.gp0State = .receivingParameters)
    (hcmd : g.cmd = { kind := kind, params := [], remainingWords := 2 }) :
    g.gp0Write pos = { g with cmd := { kind := kind, params := [pos], remainingWords := 1 } } := by
  rw [gp0Write_of_receivingParameters pos hs, parameterWord_eq, addParam, hcmd]
  rfl

/-- The size word of a transfer starts it (R299). -/
theorem gp0Write_transferSize {g : Gpu} {kind : CmdKind} {pos : Word} (size : Word) (hk : kind ≠ .rectangle)
    (hs : g.gp0State = .receivingParameters) (hcmd : g.cmd = { kind := kind, params := [pos], remainingWords := 1 }) :
    g.gp0Write size =
      { g with
        cmd := { kind := kind, params := [pos, size], remainingWords := sizeWidth size * sizeHeight size / 2 }
        cursor := startCursor pos (sizeWidth size)
        gp0State := if sizeWidth size * sizeHeight size / 2 = 0 then .awaitingCommand
                    else if kind = .cpuToVram then .receivingData else .transferringData } := by
  have hadd : g.addParam size = { g with cmd := { kind := kind, params := [pos, size], remainingWords := 0 } } := by
    rw [addParam, hcmd]
    rfl
  rw [gp0Write_of_lastParameter size hs (by rw [hcmd]), hcmd, if_neg hk, hadd]
  exact startTransfer_eq rfl

/-! ### The pixel of 0x68 -/

/-- Three 5-bit channels at bits 0, 5 and 10 do not overlap, so putting them together is a sum. -/
theorem or_channels {r g b : Nat} (hr : r < 2 ^ 5) (hg : g < 2 ^ 5) (hb : b < 2 ^ 5) :
    g <<< 5 % 2 ^ 16 ||| b <<< 10 % 2 ^ 16 ||| r = r + g * 32 + b * 1024 := by
  have hg' : g <<< 5 % 2 ^ 16 = g <<< 5 := Nat.mod_eq_of_lt (by rw [Nat.shiftLeft_eq]; omega)
  have hb' : b <<< 10 % 2 ^ 16 = b <<< 10 := Nat.mod_eq_of_lt (by rw [Nat.shiftLeft_eq]; omega)
  have hlow : g <<< 5 + r < 2 ^ 10 := by
    rw [Nat.shiftLeft_eq]
    omega
  rw [hg', hb', Nat.or_right_comm, ← Nat.shiftLeft_add_eq_or_of_lt hr, Nat.or_comm, ← Nat.shiftLeft_add_eq_or_of_lt hlow,
    Nat.shiftLeft_eq, Nat.shiftLeft_eq]
  omega

/-- The pixel of a colour: the three channels, each divided by 8, side by side (R297, R298). -/
theorem packColour_eq (col : Word) :
    packColour col =
      BitVec.ofNat 16 (col.toNat % 256 / 8 + col.toNat / 256 % 256 / 8 * 32 + col.toNat / 65536 % 256 / 8 * 1024) := by
  have hchannel (start : Nat) : (((col.extractLsb' start 8) >>> 3).setWidth 16).toNat = col.toNat / 2 ^ start % 256 / 8 := by
    rw [BitVec.toNat_setWidth, BitVec.toNat_ushiftRight, slice_toNat, Nat.shiftRight_eq_div_pow]
    exact Nat.mod_eq_of_lt (by omega)
  apply BitVec.eq_of_toNat_eq
  simp only [packColour, BitVec.toNat_or, BitVec.toNat_shiftLeft, hchannel, BitVec.toNat_ofNat, Nat.pow_zero, Nat.div_one]
  rw [or_channels (by omega) (by omega) (by omega)]
  exact (Nat.mod_eq_of_lt (by omega)).symm

/-- The position packet of 0x68 (R296, R297). -/
theorem gp0Write_rectanglePosition {g : Gpu} {col : Word} (pos : Word) (hs : g.gp0State = .receivingParameters)
    (hcmd : g.cmd = { kind := .rectangle, params := [col], remainingWords := 1 }) :
    g.gp0Write pos =
      { g with
        vram := Cells.write g.vram (pos.toNat / 65536 % 512 * 1024 + pos.toNat % 1024) (packColour col)
        cmd := { kind := .rectangle, params := [col, pos], remainingWords := 0 }
        gp0State := .awaitingCommand } := by
  have hadd : g.addParam pos = { g with cmd := { kind := .rectangle, params := [col, pos], remainingWords := 0 } } := by
    rw [addParam, hcmd]
    rfl
  have hindex : vramIndex (loHalf pos).toNat (hiHalf pos).toNat = pos.toNat / 65536 % 512 * 1024 + pos.toNat % 1024 := by
    rw [vramIndex, toNat_loHalf, toNat_hiHalf, Nat.mod_mod_of_dvd _ (show 1024 ∣ 65536 by decide)]
  rw [gp0Write_of_lastParameter pos hs (by rw [hcmd]), hcmd, if_pos rfl, hadd, ← hindex]
  rfl

/-! ### Data phases -/

/-- The VRAM index of the pixel at the cursor (R299). -/
def cursorIndex (c : Cursor) : Nat := vramIndex c.x c.y

theorem countWord_eq (g : Gpu) :
    g.countWord =
      { g with
        cmd := { g.cmd with remainingWords := g.cmd.remainingWords - 1 }
        gp0State := if g.cmd.remainingWords - 1 = 0 then .awaitingCommand else g.gp0State } := rfl

theorem wf_vram_dataWord {g : Gpu} (hv : Vram.wf g.vram) (w : Word) : Vram.wf (g.dataWord w).vram :=
  Cells.wf_write (Cells.wf_write hv _ _) _ _

/-- Every pixel after a data word: the high half comes second, so it stays where the two pixels coincide (R300). -/
theorem read_dataWord {g : Gpu} (hv : Vram.wf g.vram) (w : Word) (i : Nat) :
    Cells.read (g.dataWord w).vram i =
      if i = cursorIndex (advanceCursor g.cursor) then hiHalf w
      else if i = cursorIndex g.cursor then loHalf w else Cells.read g.vram i := by
  change Cells.read (Cells.write (Cells.write g.vram (cursorIndex g.cursor) (loHalf w))
    (cursorIndex (advanceCursor g.cursor)) (hiHalf w)) i = _
  rw [Cells.read_write (Cells.wf_write hv _ _), Cells.read_write hv]

/-- A data phase with `n` words to come; after the last one the port awaits a command (R299-R301). -/
def Expects (g : Gpu) (phase : Gp0State) (n : Nat) : Prop :=
  g.cmd.remainingWords = n ∧ g.gp0State = if n = 0 then .awaitingCommand else phase

theorem Expects.gp0State_eq {g : Gpu} {phase : Gp0State} {n : Nat} (h : g.Expects phase (n + 1)) : g.gp0State = phase := h.2

/-- Counting a word looks at the count and at the port's state alone. -/
theorem Expects.countWord {g k : Gpu} {phase : Gp0State} {n : Nat} (h : g.Expects phase (n + 1)) (hc : k.cmd = g.cmd)
    (hs : k.gp0State = g.gp0State) : k.countWord.Expects phase n := by
  obtain ⟨hwords, hst⟩ := h
  have hrem : k.cmd.remainingWords - 1 = n := by rw [hc, hwords, Nat.add_sub_cancel]
  refine ⟨hrem, ?_⟩
  rw [countWord_eq, hrem, hs, hst]
  rfl

theorem Expects.feed_cons {g : Gpu} {n : Nat} (h : g.Expects .receivingData (n + 1)) (w : Word) (ws : List Word) :
    feed g (w :: ws) = feed (g.dataWord w) ws :=
  congrArg (feed · ws) (gp0Write_of_receivingData w h.gp0State_eq)

theorem Expects.dataWord {g : Gpu} {n : Nat} (h : g.Expects .receivingData (n + 1)) (w : Word) :
    (g.dataWord w).Expects .receivingData n :=
  h.countWord rfl rfl

theorem Expects.transferWord {g : Gpu} {n : Nat} (h : g.Expects .transferringData (n + 1)) :
    g.transferWord.Expects .transferringData n :=
  h.countWord rfl rfl

/-! ### The cursor's way through a rectangle -/

/-- The indices of the next `n` pixels of a transfer, in order (R302). -/
def pixelPath (c : Cursor) (n : Nat) : List Nat := (List.iterate advanceCursor c n).map cursorIndex

theorem pixelPath_succ (c : Cursor) (n : Nat) :
    pixelPath c (n + 1) = cursorIndex c :: pixelPath (advanceCursor c) n := rfl

/-- The pixels come row by row (R302). -/
theorem iterate_advanceCursor_startCursor (pos : Word) {w : Nat} (hw : 0 < w) (k : Nat) :
    advanceCursor^[k] (startCursor pos w) =
      { startCursor pos w with x := pos.toNat % 1024 + k % w, y := pos.toNat / 65536 % 512 + k / w } := by
  induction k with
  | zero => simp [startCursor]
  | succ k ih =>
    have hk := Nat.mod_add_div k w
    have hlt := Nat.mod_lt k hw
    rw [Function.iterate_succ_apply', ih, advanceCursor]
    by_cases hend : k % w + 1 = w
    · obtain ⟨hdiv, hmod⟩ : (k + 1) / w = k / w + 1 ∧ (k + 1) % w = 0 :=
        (Nat.div_mod_unique hw).mpr ⟨by rw [Nat.mul_succ]; omega, hw⟩
      rw [if_pos (by simp only [startCursor]; omega), hdiv, hmod]
      rfl
    · obtain ⟨hdiv, hmod⟩ : (k + 1) / w = k / w ∧ (k + 1) % w = k % w + 1 :=
        (Nat.div_mod_unique hw).mpr ⟨by omega, by omega⟩
      rw [if_neg (by simp only [startCursor]; omega), hdiv, hmod]
      rfl

/-- Offsets below 1024 and 512 tell the pixels of a rectangle apart, wherever it wraps (R299, D10). -/
theorem vramIndex_add_inj {x y a b c d : Nat} (ha : a < 1024) (hb : b < 512) (hc : c < 1024) (hd : d < 512)
    (h : vramIndex (x + a) (y + b) = vramIndex (x + c) (y + d)) : a = c ∧ b = d := by
  unfold vramIndex at h
  omega

/-- A transfer meets each pixel of its rectangle once (R302). -/
theorem nodup_pixelPath_startCursor (pos size : Word) {n : Nat} (hn : n ≤ sizeWidth size * sizeHeight size) :
    (pixelPath (startCursor pos (sizeWidth size)) n).Nodup := by
  have hpos : 0 < sizeWidth size := Nat.succ_pos _
  have hw : sizeWidth size ≤ 1024 := by
    unfold sizeWidth
    omega
  have hh : sizeHeight size ≤ 512 := by
    unfold sizeHeight
    omega
  have hcolumn (k : Nat) : k % sizeWidth size < 1024 := (Nat.mod_lt k hpos).trans_le hw
  have hrow {k : Nat} (hk : k ∈ List.range n) : k / sizeWidth size < 512 :=
    (Nat.div_lt_of_lt_mul ((List.mem_range.mp hk).trans_le hn)).trans_le hh
  rw [pixelPath, ← List.range_map_iterate, List.map_map]
  refine List.nodup_range.map_on fun i hi j hj h => ?_
  rw [Function.comp, Function.comp, iterate_advanceCursor_startCursor _ hpos, iterate_advanceCursor_startCursor _ hpos] at h
  obtain ⟨hmod, hdiv⟩ := vramIndex_add_inj (hcolumn i) (hrow hi) (hcolumn j) (hrow hj) h
  rw [← Nat.mod_add_div i (sizeWidth size), hmod, hdiv, Nat.mod_add_div]

/-! ### Transfers -/

theorem wf_vram_feed {g : Gpu} (hv : Vram.wf g.vram) (packets : List Word) : Vram.wf (feed g packets).vram := by
  induction packets generalizing g with
  | nil => exact hv
  | cons w ws ih => exact ih (wf_vram_gp0Write hv w)

/-- The command word and the header of a transfer (R293, R294, R299). -/
theorem feed_header {g : Gpu} {kind : CmdKind} (hk : kind ≠ .rectangle) {c : Word}
    (hc : g.gp0Write c = g.startCommand kind [] 2) (pos size : Word) :
    feed g [c, pos, size] =
      { g with
        cmd := { kind := kind, params := [pos, size], remainingWords := sizeWidth size * sizeHeight size / 2 }
        cursor := startCursor pos (sizeWidth size)
        gp0State := if sizeWidth size * sizeHeight size / 2 = 0 then .awaitingCommand
                    else if kind = .cpuToVram then .receivingData else .transferringData } := by
  change ((g.gp0Write c).gp0Write pos).gp0Write size = _
  rw [hc, gp0Write_transferPosition pos rfl rfl, gp0Write_transferSize size hk rfl rfl]
  rfl

theorem gp0State_feed_data {g : Gpu} {data : List Word} (h : g.Expects .receivingData data.length) :
    (feed g data).gp0State = .awaitingCommand := by
  induction data generalizing g with
  | nil => exact h.2
  | cons w ws ih =>
    rw [h.feed_cons]
    exact ih (h.dataWord w)

/-- Data words change the pixels of their path alone (R300). -/
theorem read_feed_data_of_notMem {g : Gpu} {data : List Word} (h : g.Expects .receivingData data.length)
    (hv : Vram.wf g.vram) {i : Nat} (hi : i ∉ pixelPath g.cursor (2 * data.length)) :
    Cells.read (feed g data).vram i = Cells.read g.vram i := by
  induction data generalizing g with
  | nil => rfl
  | cons w ws ih =>
    rw [List.length_cons, Nat.mul_succ, pixelPath_succ, pixelPath_succ, List.mem_cons, List.mem_cons, not_or, not_or] at hi
    obtain ⟨hfirst, hsecond, hrest⟩ := hi
    rw [h.feed_cons, ih (h.dataWord w) (wf_vram_dataWord hv w) hrest, read_dataWord hv, if_neg hsecond, if_neg hfirst]

/-- The pair of pixels a packet of 0xC0 reads at the cursor (R301). -/
def pairAt (v : Vram) (c : Cursor) : Word := Cells.read v (cursorIndex (advanceCursor c)) ++ Cells.read v (cursorIndex c)

/-- The next `n` pairs of pixels from a cursor on (R301, R302). -/
def pairsFrom (v : Vram) : Cursor → Nat → List Word
  | _, 0 => []
  | c, n + 1 => pairAt v c :: pairsFrom v (advanceCursor (advanceCursor c)) n

/-- Reading moves the pairs of the path into `gpuread`, in order (R301). -/
theorem readPairs_eq_pairsFrom {g : Gpu} {n : Nat} (h : g.Expects .transferringData n) :
    readPairs n g = pairsFrom g.vram g.cursor n := by
  induction n generalizing g with
  | zero => rfl
  | succ n ih =>
    rw [readPairs, gp0Write_of_transferringData _ h.gp0State_eq, ih h.transferWord]
    rfl

theorem hiHalf_append_loHalf (w : Word) : hiHalf w ++ loHalf w = w :=
  (BitVec.extractLsb'_append_extractLsb'_eq_extractLsb' rfl).trans BitVec.extractLsb'_eq_self

/-- Data words stay where they were written: no later pixel of the path comes back (R300). -/
theorem pairsFrom_feed_data {g : Gpu} {data : List Word} (h : g.Expects .receivingData data.length)
    (hv : Vram.wf g.vram) (hpath : (pixelPath g.cursor (2 * data.length)).Nodup) :
    pairsFrom (feed g data).vram g.cursor data.length = data := by
  induction data generalizing g with
  | nil => rfl
  | cons w ws ih =>
    rw [List.length_cons, Nat.mul_succ, pixelPath_succ, pixelPath_succ, List.nodup_cons, List.nodup_cons, List.mem_cons,
      not_or] at hpath
    obtain ⟨⟨hne, hfirst⟩, hsecond, hrest⟩ := hpath
    have hv' := wf_vram_dataWord hv w
    have hw := h.dataWord w
    have hpair : pairAt (feed (g.dataWord w) ws).vram g.cursor = w := by
      rw [pairAt, read_feed_data_of_notMem hw hv' hsecond, read_feed_data_of_notMem hw hv' hfirst, read_dataWord hv,
        read_dataWord hv, if_pos rfl, if_neg hne, if_pos rfl, hiHalf_append_loHalf]
    change pairAt (feed g (w :: ws)).vram g.cursor :: pairsFrom (feed g (w :: ws)).vram (g.dataWord w).cursor ws.length = _
    rw [h.feed_cons, hpair, ih hw hv' hrest]

/-! ### The port's invariant -/

theorem remainingWords_eq_zero_iff {g : Gpu} (h : g.portInv) : g.cmd.remainingWords = 0 ↔ g.gp0State = .awaitingCommand := by
  unfold portInv at h
  cases hs : g.gp0State <;> rw [hs] at h
  case awaitingCommand => exact iff_of_true h rfl
  case receivingParameters =>
    obtain ⟨-, -, hwords⟩ | ⟨-, hwords, -⟩ := h
    all_goals exact iff_of_false (by omega) nofun
  case receivingData | transferringData =>
    obtain ⟨-, hwords, -⟩ := h
    exact iff_of_false (by omega) nofun

end Sys2Proof.Machine.Gpu
end

section
/-! The GPU commands (R290-R305). -/

namespace Sys2Proof.Claims

open Sys2Proof.Machine Sys2Proof.Machine.Gpu

/-- Settles O49: the top byte is the quotient by 2^24. -/
theorem commandByteSelectsTheCommand : Obligations.CommandByteSelectsTheCommand := by
  intro g w hs
  rw [gp0Write_of_awaitingCommand w hs]
  unfold commandWord
  refine ⟨fun h => ?_, fun h => ?_, fun h => ?_, fun h68 hA0 hC0 => ?_⟩
  · rw [commandByte_eq (b := 0x68#8) h]
    rfl
  · rw [commandByte_eq (b := 0xA0#8) h]
    rfl
  · rw [commandByte_eq (b := 0xC0#8) h]
    rfl
  · split
    · next h => exact absurd h (commandByte_ne h68)
    · next h => exact absurd h (commandByte_ne hA0)
    · next h => exact absurd h (commandByte_ne hC0)
    · rfl

/-- Settles O50: the parameter is the last one, so the packet is one write at the position's index. -/
theorem rectangleDrawsOnePixel : Obligations.RectangleDrawsOnePixel := by
  intro g col pos hs hcmd hv
  rw [gp0Write_rectanglePosition pos hs hcmd, packColour_eq]
  exact ⟨rfl, rfl, rfl, rfl, Cells.read_write hv _ _⟩

/-- Settles O51: the first word is kept as a parameter, the second is the last one and starts the transfer. -/
theorem transferHeader : Obligations.TransferHeader := by
  intro g kind pos size hkind hs
  have hrect : kind ≠ .rectangle := by
    obtain rfl | rfl := hkind <;> nofun
  exact ⟨gp0Write_transferPosition pos hs, gp0Write_transferSize size hrect hs⟩

/-- Settles O52: a packet of a data phase moves two pixels and counts one word. -/
theorem transferDataPhases : Obligations.TransferDataPhases := by
  intro g w hv index next c t
  refine ⟨fun hs => ?_, fun hs => ?_, fun hs => ?_⟩
  · obtain hs | hs := hs
    · have ht : t = g.dataWord w := gp0Write_of_receivingData w hs
      rw [ht]
      exact ⟨rfl, rfl, rfl⟩
    · have ht : t = g.transferWord := gp0Write_of_transferringData w hs
      rw [ht]
      exact ⟨rfl, rfl, rfl⟩
  · have ht : t = g.dataWord w := gp0Write_of_receivingData w hs
    rw [ht]
    exact ⟨rfl, read_dataWord hv w⟩
  · have ht : t = g.transferWord := gp0Write_of_transferringData w hs
    rw [ht]
    exact ⟨rfl, rfl⟩

/-- Settles O53: in each state of the port the invariant says whether words are expected. -/
theorem packetsKeepThePortInvariant : Obligations.PacketsKeepThePortInvariant := fun _ w h =>
  have hw := portInv_gp0Write h w
  ⟨hw, remainingWords_eq_zero_iff hw⟩

/-- Settles O54: both transfers take the same path, which meets each pixel once. -/
theorem transferRoundTrip : Obligations.TransferRoundTrip := by
  intro g c1 c2 pos size data hs hv hc1 hc2 hlen written
  obtain ⟨-, hcmd1, -, -⟩ := commandByteSelectsTheCommand g c1 hs
  have hheader := feed_header (g := g) (kind := .cpuToVram) nofun (hcmd1 hc1) pos size
  have hwriting : (feed g [c1, pos, size]).Expects .receivingData data.length := by
    rw [hheader, hlen]
    exact ⟨rfl, rfl⟩
  have hwritten : written = feed (feed g [c1, pos, size]) data := List.foldl_append
  have hdone : written.gp0State = .awaitingCommand := hwritten ▸ gp0State_feed_data hwriting
  have hpath : (pixelPath (feed g [c1, pos, size]).cursor (2 * data.length)).Nodup := by
    rw [hheader]
    exact nodup_pixelPath_startCursor pos size (by omega)
  have hpairs := pairsFrom_feed_data hwriting (wf_vram_feed hv _) hpath
  rw [← hwritten, hheader] at hpairs
  obtain ⟨-, -, hcmd2, -⟩ := commandByteSelectsTheCommand written c2 hdone
  have hheader2 := feed_header (g := written) (kind := .vramToCpu) nofun (hcmd2 hc2) pos size
  have hreading : (feed written [c2, pos, size]).Expects .transferringData data.length := by
    rw [hheader2, hlen]
    exact ⟨rfl, rfl⟩
  refine ⟨hdone, ?_⟩
  rw [readPairs_eq_pairsFrom hreading, hheader2]
  exact hpairs

end Sys2Proof.Claims
end

section
/-! The trap entry (R320-R326), and the RFE after it (R333). -/

namespace Sys2Proof.Claims

open Sys2Proof.Machine

/-- The bits of Cause that a trap keeps lie above the code, and every code fits its five bits (R320, R324). -/
theorem extractLsb'_causeAfter (cause : Word) (e : ExcCode) :
    (causeAfter cause e).extractLsb' 2 5 = e.code.extractLsb' 0 5 := by
  have hkept : (cause &&& 0x0000FF00#32).extractLsb' 2 5 = 0#5 := by
    rw [BitVec.extractLsb'_and]
    exact BitVec.and_zero
  have hcode : (e.code <<< 2).extractLsb' 2 5 = e.code.extractLsb' 0 5 := by cases e <;> rfl
  rw [causeAfter, BitVec.extractLsb'_or, hkept, hcode, BitVec.zero_or]

/-- Settles O29: the entry is R321's, and Cause holds the code in bits 6:2. -/
theorem trapEntry : Obligations.TrapEntry :=
  ⟨⟨rfl, rfl, rfl, rfl, rfl⟩, fun e a s => ⟨traps_takeException s e a, extractLsb'_causeAfter s.cop0.cause e⟩⟩

/-! ### A push of the status stack, then a pop -/

/-- What a mask selects of a pushed SR: bits above the stack as they were, and bits of the two low pairs moved up (R323). -/
theorem pushStatus_and (sr mask : Word) :
    pushStatus sr &&& mask = (sr &&& (0xFFFFFFC0#32 &&& mask)) ||| (sr <<< 2 &&& (0x3C#32 &&& mask)) := by
  rw [pushStatus, BitVec.and_or_distrib_right, BitVec.shiftLeft_and_distrib, BitVec.and_assoc, BitVec.and_assoc]
  rfl

theorem shiftLeft_ushiftRight_cancel {v : Word} (h : v.toNat < 2 ^ 30) : v <<< 2 >>> 2 = v := by
  apply BitVec.eq_of_toNat_eq
  rw [BitVec.toNat_ushiftRight, BitVec.toNat_shiftLeft, Nat.shiftLeft_eq, Nat.shiftRight_eq_div_pow]
  omega

/-- RFE undoes a trap's push, but for bits 5:4, which hold a copy of the old bits 3:2 (R333). -/
theorem popStatus_pushStatus (sr : Word) :
    popStatus (pushStatus sr) = (sr &&& 0xFFFFFFC0#32) ||| ((sr &&& 0x0C#32) <<< 2) ||| (sr &&& 0x0F#32) := by
  have hkept : pushStatus sr &&& 0xFFFFFFF0#32 = (sr &&& 0xFFFFFFC0#32) ||| ((sr &&& 0x0C#32) <<< 2) := by
    rw [pushStatus_and, BitVec.shiftLeft_and_distrib]
    rfl
  have hpopped : pushStatus sr &&& 0x3C#32 = (sr &&& 0x0F#32) <<< 2 := by
    rw [pushStatus_and, BitVec.shiftLeft_and_distrib, show 0xFFFFFFC0#32 &&& 0x3C#32 = 0#32 from rfl, BitVec.and_zero,
      BitVec.zero_or]
    rfl
  have hsmall : (sr &&& 0x0F#32).toNat < 2 ^ 30 := Nat.and_le_right.trans_lt (by decide)
  rw [popStatus, hkept, hpopped, shiftLeft_ushiftRight_cancel hsmall]

/-- Settles O32: RFE writes SR alone, with the pop of what the trap pushed. -/
theorem trapThenRfe : Obligations.TrapThenRfe := fun _ _ s => ⟨_, rfl, popStatus_pushStatus s.cop0.sr, rfl⟩

end Sys2Proof.Claims
end

section
/-! The example words of the encoding (R115), and the word placed where the next step fetches (R132, R133). -/

namespace Sys2Proof.Claims

open Sys2Proof.Machine

/-- Settles O2: the decoder runs on each of the twelve words. -/
theorem exampleWordsDecode : Obligations.ExampleWordsDecode :=
  ⟨rfl, rfl, rfl, rfl, rfl, rfl, rfl, rfl, rfl, rfl, rfl, rfl⟩

/-! ### Where the next step fetches -/

/-- After the alignment check `pc` is the address of the fetch: its own, or the exception vector (R132). -/
theorem checkFetch_pc (s : State) : (checkFetch s).pc = s.fetchAddr := by
  unfold checkFetch State.fetchAddr
  split <;> rfl

theorem fetchAddr_retireLoad (s : State) : (retireLoad s).fetchAddr = s.fetchAddr := by
  unfold State.fetchAddr pcMisaligned
  rw [retireLoad_pc]

/-- An aligned `pc` is itself the address of the fetch. -/
theorem fetchAddr_of_aligned {s : State} (h : misaligned .word s.pc = false) : s.fetchAddr = s.pc := by
  rw [State.fetchAddr, pcMisaligned_eq, h]
  rfl

theorem fetchAddr_aligned (s : State) : misaligned .word s.fetchAddr = false := by
  rw [← checkFetch_pc, ← pcMisaligned_eq, checkFetch_aligned]

/-- The fetch of a step is a bus read of the state before the step: neither retire nor check touches memory or the GPU (R133). -/
theorem fetches_iff (s : State) (w : Word) : Fetches s w ↔ busRead s .word s.fetchAddr = .ok w := by
  unfold Fetches fetch
  rw [checkFetch_pc, fetchAddr_retireLoad, busRead_congr (s := checkFetch (retireLoad s)) (t := s) (by simp) (by simp)]

/-! ### Placing a word there (log entry 3) -/

theorem placeable_iff (a : Word) : placeable a = true ↔ (regionOf (phys a)).isArray := by
  unfold placeable Region.isArray
  cases regionOf (phys a) <;> decide

theorem misaligned_resetVector : misaligned .word Config.resetVector = false := by decide

theorem placeable_resetVector : placeable Config.resetVector = true := by decide

/-- The bytes of a word, stored where the next step fetches, are fetched as that word (R74, R133). -/
theorem fetches_writeBytes {s : State} {a : Word} (hwf : Memory.wf s.mem) (ha : s.fetchAddr = a) (h : placeable a = true)
    (w : Word) : Fetches { s with mem := s.mem.writeBytes (phys a) (bytesOfWord w) } w := by
  subst ha
  rw [fetches_iff]
  have hread : (s.mem.writeBytes (phys s.fetchAddr) (bytesOfWord w)).readLe .word (phys s.fetchAddr) = w :=
    Memory.readLe_writeLe hwf .word (phys s.fetchAddr) w
  exact (busRead_of_isArray _ (spansRegions_of_aligned (fetchAddr_aligned s)) ((placeable_iff _).mp h)).trans
    (congrArg Except.ok hread)

/-- Settles O60: where the fetch address holds no memory, the placing is one at the reset vector. -/
theorem placedWordIsFetched : Obligations.PlacedWordIsFetched := by
  intro s w hwf
  have hword : BitVec.ofNat 32 (w.toNat % 2 ^ 32) = w := by
    rw [Nat.mod_eq_of_lt w.isLt, BitVec.ofNat_toNat, BitVec.setWidth_eq]
  unfold State.withFetchWord
  rw [hword]
  split
  · next h => exact fetches_writeBytes hwf rfl h w
  · exact fetches_writeBytes (s := { s with pc := Config.resetVector }) hwf (fetchAddr_of_aligned misaligned_resetVector)
      placeable_resetVector w

end Sys2Proof.Claims
end
